-- ==== Sys2Proof/Config.lean ====
section
/-! DEFINITION. The parameters of the model (00_scope.md R6 to R8) and the free values that the spec leaves
open (93_implementation_defined.md U1, U2, U3). -/

namespace Sys2Proof.Config

/-- `W` in the reference configuration (R6). The model takes `W` as an argument, `w`. -/
abbrev referenceW : Nat := 64

/-- `TEXT_DEPTH` in the reference configuration (R7). The model takes `TEXT_DEPTH` as an argument, `depth`. -/
abbrev referenceDepth : Nat := 512

/-- `TRACE_DEPTH = 2 * W`, the number of records of `TRC` (R8). -/
abbrev traceDepth (w : Nat) : Nat := 2 * w

/-- The number of decimal digits of a natural number, for every `fuel` that is at least `p`. -/
def digitCount : (fuel p : Nat) → Nat
  | 0, _ => 1
  | fuel + 1, p => if p < 10 then 1 else 1 + digitCount fuel (p / 10)

/-- `termlen(p)` of R7: one character for the exponents 0 and 1, two and the digits of `p` above. -/
def termLen (p : Nat) : Nat :=
  if p ≤ 1 then 1 else 2 + digitCount p p

/-- `ENC_MAX(W)` of R7, the length of the longest text ENCODE can produce. -/
def encMax (w : Nat) : Nat :=
  (w - 1) + ((List.range w).map termLen).sum

/-- The parameters the spec admits (R6, R7): every `W` from 8 to 512 and every `TEXT_DEPTH` in its range. -/
abbrev legal (w depth : Nat) : Prop :=
  8 ≤ w ∧ w ≤ 512 ∧ encMax w ≤ depth ∧ depth ≤ min 4096 (2 ^ w - 1)

/-- The `k`-th `w`-bit word that a host read of an unspecified value returns (U2, U3). FREE VALUE: no body, log 5. -/
opaque freeWord : (w k : Nat) → BitVec w

/-- What cell `i` of `TXT` holds after the `epoch`-th reset while nothing has written it: "an arbitrary function
from index to byte" (U1). FREE VALUE: no body, log 6. -/
opaque unwrittenText : (epoch i : Nat) → BitVec 8

end Sys2Proof.Config
end

