-- ==== Sys2Proof/Word.lean ====
section
/-! DEFINITION. The word types: a `W`-bit word, a character cell, a bus address (00_scope.md R6, 10_state.md R28,
20_memory.md R50). -/

namespace Sys2Proof

/-- A register, a trace word, the bus data: `w` bits, bit `i` the coefficient of `x^i` (R10). -/
abbrev Word (w : Nat) := BitVec w

/-- A character cell of the text buffer (R28). -/
abbrev Byte := BitVec 8

/-- A bus address: a 14-bit word index (R50), whatever the width of a word. -/
abbrev Addr := BitVec 14

end Sys2Proof
end

