-- ==== Sys2Proof/Syntax.lean ====
section
/-! DEFINITION. The five commands (30_encoding.md R71, Table E-2; spec/opcode_table.json). No command has an
operand in its word: the operands are implicit registers and cells (R70, R73). -/

namespace Sys2Proof

inductive Instr where
  /-- OPC 1: `TXT, TXTLEN <- encode(A)` (40_codec.md R93). -/
  | encode
  /-- OPC 2: `RES <- decode(TXT)` (40_codec.md R99). -/
  | decode
  /-- OPC 3: `RES, TRC <- reduce(A, M, N)` (41_reducer.md R114). -/
  | reduce
  /-- OPC 4: `RES, TRC <- multiply(A, B, M, N)` (42_multiplier.md R124). -/
  | multiply
  /-- OPC 5: decode the modulus text, reduce `A`, reduce `B`, multiply (43_evaluate.md R138). -/
  | evaluate
  deriving DecidableEq, Repr

end Sys2Proof
end

