-- ==== Sys2Proof/WellFormed.lean ====
section
/-! DEFINITION. Well-formedness. A command has no operand field (30_encoding.md R70, R73), so every term of `Instr`
is well formed; what can be ill formed is a command WORD (R70 to R72), and the parameters (00_scope.md R6, R7;
`Config.legal`). -/

namespace Sys2Proof

/-- Every command is well formed: there is no operand to check (R73). -/
def Instr.wf (i : Instr) : Bool :=
  match i with
  | .encode => true
  | .decode => true
  | .reduce => true
  | .multiply => true
  | .evaluate => true

/-- A word the host may write as a command: its value is one of the five opcodes of Table E-2 (R71), so its bits
`W-1:4` are 0 (R70). -/
def commandWordWf {w : Nat} (v : Word w) : Bool :=
  decide (1 ≤ v.toNat ∧ v.toNat ≤ 5)

end Sys2Proof
end

