-- ==== Sys2Proof/Decode.lean ====
section
/-! DEFINITION. The decoder of the command word, total on any word and rejecting by name, and the encoder
(30_encoding.md R70 to R74). -/

namespace Sys2Proof

/-- Why a word is not a command (R72). -/
inductive IllegalWord where
  /-- `OPC` is 0 or 6 to 15. -/
  | reservedOpcode (opc : BitVec 4)
  /-- `OPC` is 1 to 5 and some bit of `W-1:4` is 1. -/
  | upperBitsSet (opc : BitVec 4)
  deriving DecidableEq, Repr

/-- `OPC`, bits 3:0 of a command word (Table E-1). -/
def opcField {w : Nat} (v : Word w) : BitVec 4 :=
  v.extractLsb' 0 4

/-- `ZERO`, bits `W-1:4` of a command word (Table E-1). -/
def zeroField {w : Nat} (v : Word w) : BitVec (w - 4) :=
  v.extractLsb' 4 (w - 4)

/-- The opcode map (R71, Table E-2). -/
def opcodeMap (opc : BitVec 4) : Option Instr :=
  if opc = 1 then some .encode
  else if opc = 2 then some .decode
  else if opc = 3 then some .reduce
  else if opc = 4 then some .multiply
  else if opc = 5 then some .evaluate
  else none

/-- Decode a command word (R70 to R72): every bit is looked at, and nothing reserved falls through. -/
def decodeWord {w : Nat} (v : Word w) : Except IllegalWord Instr :=
  match opcodeMap (opcField v) with
  | none => .error (.reservedOpcode (opcField v))
  | some i => if zeroField v = 0 then .ok i else .error (.upperBitsSet (opcField v))

/-- The opcode of a command (R71, Table E-2). -/
def opcode (i : Instr) : BitVec 4 :=
  match i with
  | .encode => 1
  | .decode => 2
  | .reduce => 3
  | .multiply => 4
  | .evaluate => 5

/-- The word of a command in `w` bits: `OPC` with `ZERO` above it (R70). -/
def encodeWord (w : Nat) (i : Instr) : Word w :=
  (opcode i).setWidth w

/-- The `width`-bit command word whose bits are `v`, of which the table gives `nbits`; the bits above are 0. A command is
one `W`-bit word and is never split (R59, R74), so there is no byte order to lay out. -/
def tableWord (width nbits v : Nat) : Word width :=
  BitVec.ofNat width (v % 2 ^ nbits)

/-- What the decoder reads from a row's word of spec/opcode_table.json, whose words are those of `W = 64`. -/
def decodeTableWord (nbits w : Nat) : Option Instr :=
  (decodeWord (tableWord Config.referenceW nbits w)).toOption

end Sys2Proof
end

