-- ==== Sys2Proof/Machine/State.lean ====
section
/-! DEFINITION. The state of the block as plain data (10_state.md R21, Table S-1), its reset value (R38, Table S-4),
the faults of Table X-1 (60_exceptions.md R146), and the model's own stops. -/

namespace Sys2Proof.Machine

/-- The sequencer's control state (R31). -/
inductive Phase where
  /-- No command in progress. -/
  | idle
  /-- A command word has been latched and nothing of it has run. -/
  | start
  /-- The Reducer loop is running on `A` (REDUCE, or the first segment of EVALUATE). -/
  | reda
  /-- The Reducer loop is running on `B` (second segment of EVALUATE). -/
  | redb
  /-- The Multiplier loop is running. -/
  | mult
  deriving DecidableEq, Repr

/-- The fields of `STATUS` (R25, Table S-2). The other bits have no storage and read 0 (log 12). -/
structure Status where
  /-- Bit 0: a command is running. -/
  busy : Bool
  /-- Bit 1: the most recent command has completed, with or without fault. -/
  done : Bool
  /-- Bit 2: the most recent command completed with a fault. -/
  err : Bool
  /-- Bits 7:4: the fault code; 0 when `err` is false. -/
  errcode : BitVec 4
  deriving DecidableEq, Repr

/-- The eight faults a command can end with (R146, Table X-1). They are recorded in `STATUS` and the block goes on:
they are no stop of the model. -/
inductive CommandFault where
  | illegalCommand
  | degreeRange
  | textLength
  | malformedTerm
  | malformedExponent
  | exponentRange
  | modulusDegree
  | nonCanonical
  deriving DecidableEq, Repr

/-- A trace record: eight words (30_encoding.md R79 to R82). -/
structure Record (w : Nat) where
  /-- Word 0, the header of Table E-4. -/
  header : BitVec w
  word1 : BitVec w
  word2 : BitVec w
  word3 : BitVec w
  word4 : BitVec w
  word5 : BitVec w
  word6 : BitVec w
  word7 : BitVec w
  deriving DecidableEq, Repr

/-- One event of the total order of host accesses and engine steps (00_scope.md R18, 20_memory.md R63). -/
inductive Event (w : Nat) where
  /-- `MemRead(addr, 1)` by the host (20_memory.md R52, R53). -/
  | read (addr : Addr)
  /-- `MemWrite(addr, 1, data)` by the host (20_memory.md R54 to R57). -/
  | write (addr : Addr) (data : Word w)
  /-- The reset event (70_reset_and_hazards.md R170). -/
  | reset
  /-- One turn of the engine: its enabled step, or nothing when it has none. -/
  | engine
  /-- The host's `WAIT` line (30_encoding.md R85): read `STATUS` until `BUSY` is 0 (log 14). -/
  | poll
  deriving DecidableEq, Repr

/-- Why a step of the model stops. The spec's own faults are not here: they are next states (`raise`). -/
inductive Fault where
  /-- Raised by `append` when `TRCCNT >= TRACE_DEPTH`: the record does not exist, and the spec says that no overflow
  behaviour does (R8). Safe: no run reaches it (`Safety.Inv`, log 10). -/
  | traceOverflow
  /-- Raised by `enginePhase` where the rules enable no engine step: in IDLE, where `step` never asks, and at the exit
  of REDA under a command that does not reduce (60_exceptions.md R147). Safe: no run reaches it (log 11). -/
  | noStepEnabled
  deriving DecidableEq, Repr

/-- Why a step of the model has no meaning. -/
inductive Refusal where
  /-- Raised by `exec` for an instruction that has no meaning yet; safe. No arm raises it in this model. -/
  | notModelled (mnemonic : String)
  deriving DecidableEq, Repr

/-- The whole state of a block whose words are `w` bits wide (R21, Table S-1): its parameter `TEXT_DEPTH`, the spec's state,
and four fields of the model's own at the end. `CMD` has no storage (R24). -/
structure Block (w : Nat) where
  /-- `TEXT_DEPTH`, an argument of the model that nothing changes (00_scope.md R7). -/
  depth : Nat
  /-- `STATUS` (R25). -/
  status : Status
  /-- `ERRINFO` (R26). -/
  errinfo : Word w
  /-- `A` (R22). -/
  a : Word w
  /-- `B` (R22). -/
  b : Word w
  /-- `M`, the modulus (R22). -/
  m : Word w
  /-- `N`, the field degree (R22). -/
  n : Word w
  /-- `RES` (R23). -/
  res : Word w
  /-- `RESA` (R23). -/
  resa : Word w
  /-- `RESB` (R23). -/
  resb : Word w
  /-- `TXTLEN` (R27). -/
  txtlen : Word w
  /-- `TRCCNT` (R30). -/
  trccnt : Word w
  /-- `TXT` (R28): the cells something has written since reset, by rising index. -/
  txt : List Host.Cell
  /-- `TRC` (R29): the records that have been appended since reset, by rising index. -/
  trc : List (Nat × Record w)
  /-- `CUR`, the command word in progress (R31). -/
  cur : Word w
  /-- `PHASE` (R31). -/
  phase : Phase
  /-- `WV`, the Reducer's value (R32). -/
  wv : Word w
  /-- `WA`, the Multiplier's a (R32). -/
  wa : Word w
  /-- `WB`, the Multiplier's b (R32). -/
  wb : Word w
  /-- `ACC`, the Multiplier's result (R32). -/
  acc : Word w
  /-- `SEG`, the trace segment (R32). -/
  seg : BitVec 2
  /-- MODEL'S OWN (log 3): the events that happen next, the head first; when it is empty the engine moves. -/
  agenda : List (Event w)
  /-- MODEL'S OWN (log 4): what the host's reads have returned, newest first. -/
  replies : List (Word w)
  /-- MODEL'S OWN (log 5): how many free values the host's reads have drawn. -/
  draws : Nat
  /-- MODEL'S OWN (log 6): how many reset events there have been. -/
  epoch : Nat
  deriving DecidableEq, Repr

/-- A block just after reset (R38, Table S-4). `cur`, `wv`, `wa`, `wb`, `acc` and `seg` have no reset value in the
spec (U5): 0 is the model's (log 7). The last four are the model's own (log 9). -/
def Block.reset (w depth : Nat) : Block w where
  depth := depth
  status := { busy := false, done := false, err := false, errcode := 0 }
  errinfo := 0
  a := 0
  b := 0
  m := 0
  n := 0
  res := 0
  resa := 0
  resb := 0
  txtlen := 0
  trccnt := 0
  txt := []
  trc := []
  cur := 0
  phase := .idle
  wv := 0
  wa := 0
  wb := 0
  acc := 0
  seg := 0
  agenda := []
  replies := []
  draws := 0
  epoch := 0

/-- A state of the machine: the argument `W` of the model, and a block with words of that width. Every operation, meaning and
step below is defined for every `W` and every `TEXT_DEPTH`; none changes them (00_scope.md R6, R7; log 1). -/
structure State where
  /-- `W` (R6). -/
  w : Nat
  /-- The block's state. -/
  block : Block w
  deriving DecidableEq, Repr

/-- A block as a state of the machine. -/
abbrev State.of {w : Nat} (s : Block w) : State :=
  { w := w, block := s }

/-- The machine with the parameters `W = w` and `TEXT_DEPTH = depth` just after reset. -/
def State.resetWith (w depth : Nat) : State :=
  .of (Block.reset w depth)

/-- The state just after reset, in the reference configuration (R6, R7; log 1). -/
def State.reset : State :=
  State.resetWith Config.referenceW Config.referenceDepth

end Sys2Proof.Machine
end

