-- ==== Sys2Proof/Machine/Operands.lean ====
section
/-! DEFINITION. The operations on polynomial values (00_scope.md R10 to R16), at any width. -/

namespace Sys2Proof.Machine

/-- `bit_length(v)` (R11): 0 for 0, and `1 + floor(log2 v)` above. -/
def bitLength {w : Nat} (v : BitVec w) : Nat :=
  if v.toNat = 0 then 0 else 1 + v.toNat.log2

/-- `deg(v)` (R11), an integer: `deg(0) = -1`. -/
def deg {w : Nat} (v : BitVec w) : Int :=
  (bitLength v : Int) - 1

/-- `v` is canonical for the field degree `n` (R12). -/
def canonical {w : Nat} (v : BitVec w) (n : Nat) : Bool :=
  decide (deg v < (n : Int))

/-- `shl_W(v, s)` (R15): bits shifted past the top are dropped. -/
def shl {w : Nat} (v : BitVec w) (s : Nat) : BitVec w :=
  v <<< s

/-- `shr1(v)` (R15). -/
def shr1 {w : Nat} (v : BitVec w) : BitVec w :=
  v >>> 1

/-- `v[i]` (R10); a bit that does not exist is 0. -/
def bitAt {w : Nat} (v : BitVec w) (i : Nat) : Bool :=
  v.getLsbD i

/-- `N` is in range: the test of `DegreeRange` fails to fire (60_exceptions.md R151). -/
def degreeInRange {w : Nat} (n : BitVec w) : Bool :=
  decide (n.toNat < w)

/-- The modulus has degree exactly `n` (R13, 60_exceptions.md R153). -/
def modulusOk {w : Nat} (m : BitVec w) (n : Nat) : Bool :=
  decide (deg m = (n : Int))

end Sys2Proof.Machine
end

