-- ==== Sys2Proof/Machine/Flags.lean ====
section
/-! DEFINITION. `STATUS` as the host reads it (10_state.md R25), the fault codes (60_exceptions.md R146), and the
bits of a trace header (30_encoding.md R80). There is no arithmetic flag (10_state.md R35). -/

namespace Sys2Proof.Machine

/-- One bit, `zext`ended. -/
def bitWord {w : Nat} (b : Bool) : BitVec w :=
  if b then 1 else 0

/-- `STATUS` as a word (Table S-2): `BUSY` bit 0, `DONE` bit 1, `ERR` bit 2, `ERRCODE` bits 7:4, the rest 0. -/
def statusWord {w : Nat} (st : Status) : Word w :=
  bitWord st.busy ||| bitWord st.done <<< 1 ||| bitWord st.err <<< 2 ||| st.errcode.setWidth w <<< 4

/-- The code of a fault (Table X-1); 0 means no fault. -/
def faultCode (f : CommandFault) : BitVec 4 :=
  match f with
  | .illegalCommand => 1
  | .degreeRange => 2
  | .textLength => 3
  | .malformedTerm => 4
  | .malformedExponent => 5
  | .exponentRange => 6
  | .modulusDegree => 7
  | .nonCanonical => 8

/-- `STATUS` after an accepted `CMD` write (20_memory.md R56). -/
def statusAccepted : Status :=
  { busy := true, done := false, err := false, errcode := 0 }

/-- `STATUS` after a fault (60_exceptions.md R148). -/
def statusFaulted (f : CommandFault) : Status :=
  { busy := false, done := true, err := true, errcode := faultCode f }

/-- `STATUS` after a completion without fault (60_exceptions.md R149): `ERR` and `ERRCODE` stay as they were. -/
def statusCompleted (st : Status) : Status :=
  { st with busy := false, done := true }

/-- The header of a `RED` record (30_encoding.md R80, R81): `KIND = 1` and the segment in bits 3:2. -/
def redHeader {w : Nat} (seg : BitVec 2) : BitVec w :=
  (1 : BitVec w) ||| seg.setWidth w <<< 2

/-- The header of a `MUL` record (R80, R82): `KIND = 2`, `SEG = 2`, and `BIT`, `CHG`, `OVF` in bits 4, 5, 6. -/
def mulHeader {w : Nat} (bit chg ovf : Bool) : BitVec w :=
  (0x0A : BitVec w) ||| bitWord bit <<< 4 ||| bitWord chg <<< 5 ||| bitWord ovf <<< 6

/-- `KIND`, bits 1:0 of a header (Table E-4). -/
def headerKind {w : Nat} (h : BitVec w) : BitVec 2 :=
  h.extractLsb' 0 2

/-- `SEG`, bits 3:2 of a header (Table E-4). -/
def headerSeg {w : Nat} (h : BitVec w) : BitVec 2 :=
  h.extractLsb' 2 2

end Sys2Proof.Machine
end

