-- ==== Sys2Proof/Machine/Ops.lean ====
section
/-! DEFINITION. The named operations over the buffers and registers: the two buffers as canonical lists, the text
operand, `append`, taking a fault (`raise`), completing (`complete`), accepting a command word and the reset event. -/

namespace Sys2Proof.Machine

variable {w : Nat}

/-- The outcome of a step of the machine. -/
abbrev MachineOutcome := Host.Outcome State Fault Refusal

/-- The outcome of an engine step of a block. -/
abbrev StepOutcome (w : Nat) := Host.Outcome (Block w) Fault Refusal

/-- An engine step of the block as a step of the machine: the parameters stay. -/
def State.lift (o : StepOutcome w) : MachineOutcome :=
  match o with
  | .next t => .next (.of t)
  | .fault r => .fault r
  | .refused r => .refused r

/-! ## Buffers -/

/-- What a canonical list holds at index `i`; `none` where nothing has been written. -/
def Store.find {α : Type} : List (Nat × α) → Nat → Option α
  | [], _ => none
  | (k, x) :: rest, i => if k = i then some x else Store.find rest i

/-- Write `x` at index `i`, keeping the indexes strictly rising. -/
def Store.insert {α : Type} : List (Nat × α) → Nat → α → List (Nat × α)
  | [], i, x => [(i, x)]
  | (k, y) :: rest, i, x =>
    if i < k then (i, x) :: (k, y) :: rest
    else if i = k then (i, x) :: rest
    else (k, y) :: Store.insert rest i x

/-- The canonical form of a buffer of `size` cells: indexes strictly rising, each below `size`. -/
abbrev Store.wf {α : Type} (size : Nat) (l : List (Nat × α)) : Prop :=
  (l.map Prod.fst).Pairwise (· < ·) ∧ ∀ k ∈ l.map Prod.fst, k < size

/-- What something has written to cell `i` of `TXT` since reset (10_state.md R28). -/
def Memory.read (txt : List Host.Cell) (i : Nat) : Option Byte :=
  Store.find txt i

/-- `TXT[i] <- c`. -/
def Memory.write (txt : List Host.Cell) (i : Nat) (c : Byte) : List Host.Cell :=
  Store.insert txt i c

/-- `TXT[i] <- s[0]`, `TXT[i+1] <- s[1]`, and so on. -/
def Memory.writeText : List Host.Cell → Nat → List Byte → List Host.Cell
  | txt, _, [] => txt
  | txt, i, c :: s => Memory.writeText (Memory.write txt i c) (i + 1) s

/-- The canonical form of `TXT`, for `TEXT_DEPTH = depth`. -/
abbrev Memory.wf (depth : Nat) (txt : List Host.Cell) : Prop :=
  Store.wf depth txt

/-- The canonical form of `TRC`. -/
abbrev Trace.wf (trc : List (Nat × Record w)) : Prop :=
  Store.wf (Config.traceDepth w) trc

/-- `TRC[k] <- r[0]`, `TRC[k+1] <- r[1]`, and so on. -/
def Trace.writeRecords : List (Nat × Record w) → Nat → List (Record w) → List (Nat × Record w)
  | trc, _, [] => trc
  | trc, k, r :: rs => Trace.writeRecords (Store.insert trc k r) (k + 1) rs

/-- Word `f` of a record (30_encoding.md R80). -/
def recordWord {w : Nat} (r : Record w) (f : Nat) : BitVec w :=
  match f with
  | 0 => r.header
  | 1 => r.word1
  | 2 => r.word2
  | 3 => r.word3
  | 4 => r.word4
  | 5 => r.word5
  | 6 => r.word6
  | _ => r.word7

/-- The byte in `TXT[i]`: what was written last, or the cell's free value where nothing has been (U1, log 6). -/
def textByte (s : Block w) (i : Nat) : Byte :=
  (Memory.read s.txt i).getD (Config.unwrittenText s.epoch i)

/-- The text operand of DECODE and EVALUATE: `TXT[0], ..., TXT[x[TXTLEN]-1]` (10_state.md R27). -/
def textOperand (s : Block w) : List Byte :=
  (List.range s.txtlen.toNat).map (textByte s)

/-- `append(rec)` (30_encoding.md R80). There is no record at `TRACE_DEPTH` or above (00_scope.md R8, log 10). -/
def append (r : Record w) (s : Block w) : StepOutcome w :=
  if s.trccnt.toNat < (Config.traceDepth w) then
    .next { s with trc := Store.insert s.trc s.trccnt.toNat r, trccnt := s.trccnt + 1 }
  else .fault .traceOverflow

/-! ## Faults, completion, acceptance, reset -/

/-- `raise F(info)` (60_exceptions.md R148): the one way a command's fault is taken. Nothing is saved and control goes
nowhere: the block is idle. There is no return from it (R158). -/
def raise (f : CommandFault) (info : Word w) (s : Block w) : Block w :=
  { s with status := statusFaulted f, errinfo := info, phase := .idle }

/-- `complete` (60_exceptions.md R149). -/
def complete (s : Block w) : Block w :=
  { s with status := statusCompleted s.status, phase := .idle }

/-- An accepted write of `v` to `CMD` (20_memory.md R56). It also ends a fault's record (60_exceptions.md R158). -/
def acceptCommand (v : Word w) (s : Block w) : Block w :=
  { s with cur := v, phase := .start, status := statusAccepted, errinfo := 0 }

/-- `x[TRCCNT] <- 0`, the first assignment of REDUCE, MULTIPLY and EVALUATE (10_state.md R30). -/
def clearTrace (s : Block w) : Block w :=
  { s with trccnt := 0 }

/-- The reset event (70_reset_and_hazards.md R170, R171): every register and buffer of the block at its reset value.
What is not the block's stays: the agenda and the replies (log 20). -/
def resetBlock (s : Block w) : Block w :=
  { Block.reset w s.depth with agenda := s.agenda, replies := s.replies, draws := s.draws, epoch := s.epoch + 1 }

end Sys2Proof.Machine
end

