-- ==== Sys2Proof/Machine/Bus.lean ====
section
/-! DEFINITION. The host's side of the bus: the address map (20_memory.md R50, Table M-1), reads (R52, R53) and writes
(R54 to R57). -/

namespace Sys2Proof.Machine

variable {w : Nat}

/-- What an address names (Table M-1). -/
inductive Place where
  | cmd
  | status
  | errinfo
  | a
  | b
  | m
  | n
  | res
  | resa
  | resb
  | txtlen
  | trccnt
  /-- `TXT[i]`. -/
  | txt (i : Nat)
  /-- `TRC[k][f]`. -/
  | trc (k f : Nat)
  /-- An address that names nothing: reads 0, ignores writes. -/
  | reserved (addr : Addr)
  deriving DecidableEq, Repr

/-- The registers of Table M-1, by address. -/
def registerMap : List (Nat × Place) :=
  [(0x0000, .cmd), (0x0001, .status), (0x0002, .errinfo), (0x0004, .a), (0x0005, .b), (0x0006, .m), (0x0007, .n),
   (0x0008, .res), (0x0009, .resa), (0x000A, .resb), (0x000C, .txtlen), (0x000D, .trccnt)]

/-- The map of Table M-1, from an address to what it names. -/
def placeAt (w depth : Nat) (addr : Addr) : Place :=
  match Store.find registerMap addr.toNat with
  | some p => p
  | none =>
    if 0x1000 ≤ addr.toNat ∧ addr.toNat < 0x1000 + depth then .txt (addr.toNat - 0x1000)
    else if 0x2000 ≤ addr.toNat ∧ addr.toNat < 0x2000 + 8 * (Config.traceDepth w) then
      .trc ((addr.toNat - 0x2000) / 8) ((addr.toNat - 0x2000) % 8)
    else .reserved addr

/-- The address of a place (Table M-1). -/
def addrOf (p : Place) : Addr :=
  match p with
  | .cmd => 0x0000
  | .status => 0x0001
  | .errinfo => 0x0002
  | .a => 0x0004
  | .b => 0x0005
  | .m => 0x0006
  | .n => 0x0007
  | .res => 0x0008
  | .resa => 0x0009
  | .resb => 0x000A
  | .txtlen => 0x000C
  | .trccnt => 0x000D
  | .txt i => BitVec.ofNat 14 (0x1000 + i)
  | .trc k f => BitVec.ofNat 14 (0x2000 + 8 * k + f)
  | .reserved addr => addr

/-- The value a host read returns where the spec fixes one, `none` where it is unspecified and the engine stands idle
(R52): a trace record that is not valid (U2). An unwritten `TXT` cell reads as its own free value (U1, log 6). -/
def readIdle (s : Block w) (p : Place) : Option (Word w) :=
  match p with
  | .cmd => some 0
  | .status => some (statusWord s.status)
  | .errinfo => some s.errinfo
  | .a => some s.a
  | .b => some s.b
  | .m => some s.m
  | .n => some s.n
  | .res => some s.res
  | .resa => some s.resa
  | .resb => some s.resb
  | .txtlen => some s.txtlen
  | .trccnt => some s.trccnt
  | .txt i => some ((textByte s i).setWidth w)
  | .trc k f => if k < s.trccnt.toNat then (Store.find s.trc k).map (fun r => recordWord r f) else none
  | .reserved _ => some 0

/-- A place whose reads are unspecified while a command runs (R53, U3). -/
def engineWritten (p : Place) : Bool :=
  match p with
  | .m | .res | .resa | .resb | .txtlen | .trccnt | .txt _ | .trc _ _ => true
  | .cmd | .status | .errinfo | .a | .b | .n | .reserved _ => false

/-- The value a host read returns where the spec fixes one (R52, R53). -/
def readValue (s : Block w) (p : Place) : Option (Word w) :=
  if s.status.busy && engineWritten p then none else readIdle s p

/-- The host's read of an address (R52, R53). It changes nothing of the block; an unspecified value is the next free
draw, "independent for each read" (U3, log 5). -/
def hostRead (addr : Addr) (s : Block w) : Block w :=
  match readValue s (placeAt w s.depth addr) with
  | some v => { s with replies := v :: s.replies }
  | none => { s with replies := Config.freeWord w s.draws :: s.replies, draws := s.draws + 1 }

/-- The host's write to a place while no command runs (R54, R55, R56). -/
def writeIdle (p : Place) (v : Word w) (s : Block w) : Block w :=
  match p with
  | .cmd => acceptCommand v s
  | .a => { s with a := v }
  | .b => { s with b := v }
  | .m => { s with m := v }
  | .n => { s with n := v }
  | .txtlen => { s with txtlen := v }
  | .txt i => { s with txt := Memory.write s.txt i (v.setWidth 8) }
  | .status => s
  | .errinfo => s
  | .res => s
  | .resa => s
  | .resb => s
  | .trccnt => s
  | .trc _ _ => s
  | .reserved _ => s

/-- The host's write to an address: dropped while a command runs (R57). -/
def hostWrite (addr : Addr) (v : Word w) (s : Block w) : Block w :=
  if s.status.busy then s else writeIdle (placeAt w s.depth addr) v s

end Sys2Proof.Machine
end

