-- ==== Sys2Proof/Machine/Reducer.lean ====
section
/-! DEFINITION. The Reducer `gf2n_reducer_xor_fold` (41_reducer.md): the pure functions R111 and R112, and the engine's
iteration (R114, step I). -/

namespace Sys2Proof.Machine

variable {w : Nat}

/-- The triple `(shift, sm, nv)` of one iteration (R111). -/
structure RedStep (w : Nat) where
  shift : Nat
  sm : BitVec w
  nv : BitVec w
  deriving DecidableEq, Repr

/-- The shift amount `deg(v) - n` (R111), a natural number wherever `deg(v) >= n`. -/
def redShift {w : Nat} (v : BitVec w) (n : Nat) : Nat :=
  (deg v - (n : Int)).toNat

/-- `red_step(v, m, n)` (R111). -/
def redStep {w : Nat} (v m : BitVec w) (n : Nat) : RedStep w :=
  { shift := redShift v n
    sm := shl m (redShift v n)
    nv := v ^^^ shl m (redShift v n) }

/-- `RED(seg, v, shift, sm, nv)` (R112, 30_encoding.md R81, Table E-5). -/
def redRecord {w : Nat} (seg : BitVec 2) (v : BitVec w) (st : RedStep w) : Record w :=
  { header := redHeader seg
    word1 := v
    word2 := BitVec.ofNat w st.shift
    word3 := st.sm
    word4 := st.nv
    word5 := 0
    word6 := 0
    word7 := 0 }

/-- The loop of R112, at most `fuel` iterations: the value and the records, oldest first. -/
def reduceLoop {w : Nat} (m : BitVec w) (n : Nat) (seg : BitVec 2) : (fuel : Nat) → BitVec w → BitVec w × List (Record w)
  | 0, v => (v, [])
  | fuel + 1, v =>
    if canonical v n then (v, [])
    else
      let st := redStep v m n
      let rest := reduceLoop m n seg fuel st.nv
      (rest.1, redRecord seg v st :: rest.2)

/-- The domain of `reduce` (R110). -/
def reduceDomain {w : Nat} (m : BitVec w) (n : Nat) : Bool :=
  decide (n < w) && modulusOk m n

/-- `reduce(v, m, n)` (R110, R112); no value outside its domain (log 16). `w` iterations are enough (R113). -/
def reduce {w : Nat} (v m : BitVec w) (n : Nat) (seg : BitVec 2) : Option (BitVec w × List (Record w)) :=
  if reduceDomain m n then some (reduceLoop m n seg w v) else none

/-- Step I of R114, one Reducer iteration, in REDUCE and in EVALUATE alike. -/
def redIteration (s : Block w) : StepOutcome w :=
  let st := redStep s.wv s.m s.n.toNat
  append (redRecord s.seg s.wv st) { s with wv := st.nv }

end Sys2Proof.Machine
end

