-- ==== Sys2Proof/Machine/Multiplier.lean ====
section
/-! DEFINITION. The Multiplier `gf2n_shift_and_xor_multiplier` (42_multiplier.md): the pure functions R121 and R122, the
carry-less product they are measured by (R130), and the engine's iteration and exit (R124, steps I and X). -/

namespace Sys2Proof.Machine

variable {w : Nat}

/-- The loop variables of the Multiplier (R121). -/
structure MulVars (w : Nat) where
  acc : BitVec w
  a : BitVec w
  b : BitVec w
  deriving DecidableEq, Repr

/-- The loop variables after one iteration, and its record (R121; 30_encoding.md R82, Table E-6). -/
def mulStep {w : Nat} (x : MulVars w) (m : BitVec w) (n : Nat) : MulVars w × Record w :=
  let bit := bitAt x.b 0
  let acc' := if bit then x.acc ^^^ x.a else x.acc
  let chg := decide (acc' ≠ x.acc)
  let b' := shr1 x.b
  let as := shl x.a 1
  let ovf := bitAt as n
  let a' := if ovf then as ^^^ m else as
  ({ acc := acc', a := a', b := b' },
   { header := mulHeader bit chg ovf
     word1 := x.acc
     word2 := acc'
     word3 := b'
     word4 := as
     word5 := a'
     word6 := x.a
     word7 := x.b })

/-- The loop of R122, at most `fuel` iterations: the product and the records, oldest first. -/
def multiplyLoop {w : Nat} (m : BitVec w) (n : Nat) : (fuel : Nat) → MulVars w → BitVec w × List (Record w)
  | 0, x => (x.acc, [])
  | fuel + 1, x =>
    if x.b = 0 then (x.acc, [])
    else
      let next := mulStep x m n
      let rest := multiplyLoop m n fuel next.1
      (rest.1, next.2 :: rest.2)

/-- The domain of `multiply` (R120). -/
def multiplyDomain {w : Nat} (a b m : BitVec w) (n : Nat) : Bool :=
  reduceDomain m n && canonical a n && canonical b n

/-- `multiply(a, b, m, n)` (R120, R122); no value outside its domain (R120, U7, log 16). `w` iterations are enough
(R123). -/
def multiply {w : Nat} (a b m : BitVec w) (n : Nat) : Option (BitVec w × List (Record w)) :=
  if multiplyDomain a b m n then some (multiplyLoop m n w { acc := 0, a := a, b := b }) else none

/-- The sum of the carry-less products of `a` by the lowest `k` bits of `b`, in a word of any width. -/
def clmulBits {w : Nat} (a b : BitVec w) : (k : Nat) → BitVec w
  | 0 => 0
  | k + 1 => clmulBits a b k ^^^ (if bitAt b k then shl a k else 0)

/-- `clmul(a, b)` (R130): the carry-less product of two `w`-bit values. It has degree at most `2w - 2`, so `2w` bits
hold it whole, as the spec's unbounded integers do (log 17). -/
def clmul {w : Nat} (a b : BitVec w) : BitVec (2 * w) :=
  clmulBits (a.setWidth (2 * w)) (b.setWidth (2 * w)) w

/-- Step I of R124, one Multiplier iteration, in MULTIPLY and in EVALUATE alike. -/
def mulIteration (s : Block w) : StepOutcome w :=
  let next := mulStep { acc := s.acc, a := s.wa, b := s.wb } s.m s.n.toNat
  append next.2 { s with acc := next.1.acc, wa := next.1.a, wb := next.1.b }

/-- Step X of R124, the exit of the Multiplier, in MULTIPLY and in EVALUATE alike. -/
def mulExit (s : Block w) : StepOutcome w :=
  .next (complete { s with res := s.acc })

end Sys2Proof.Machine
end

