-- ==== Sys2Proof/Machine/Sequencer.lean ====
section
/-! DEFINITION. The sequencer: which engine step is enabled in which phase (60_exceptions.md R147, 10_state.md R34),
with the steps every command shares written once. -/

namespace Sys2Proof.Machine

variable {w : Nat}

/-- The Reducer loop's condition, `deg(x[WV]) >= x[N]` (41_reducer.md R114). -/
def reducing (s : Block w) : Bool :=
  !canonical s.wv s.n.toNat

/-- Step X of REDUCE (41_reducer.md R114): the exit of REDA when the command is REDUCE. -/
def reduceExit (s : Block w) : StepOutcome w :=
  .next (complete { s with res := s.wv })

/-- Step XA of EVALUATE (43_evaluate.md R138): the exit of REDA when the command is EVALUATE. -/
def evaluateExitA (s : Block w) : StepOutcome w :=
  .next { s with resa := s.wv, wv := s.b, seg := 1, phase := .redb }

/-- Step XB of EVALUATE (43_evaluate.md R138): the exit of REDB. -/
def evaluateExitB (s : Block w) : StepOutcome w :=
  .next { s with resb := s.wv, wa := s.resa, wb := s.wv, acc := 0, seg := 2, phase := .mult }

/-- At the exit of REDA a command that does not reduce has no step (R147, log 11). -/
def noExit (_ : Block w) : StepOutcome w :=
  .fault .noStepEnabled

/-- One engine step of a command (R147): its own first step in START; in every other phase the step that the phase and
the loop condition choose; at the exit of REDA the command's own exit. In IDLE no step is enabled (log 11). -/
def enginePhase (first exitA : Block w → StepOutcome w) (s : Block w) : StepOutcome w :=
  match s.phase with
  | .idle => .fault .noStepEnabled
  | .start => first s
  | .reda => if reducing s then redIteration s else exitA s
  | .redb => if reducing s then redIteration s else evaluateExitB s
  | .mult => if s.wb = 0 then mulExit s else mulIteration s

/-- The first step of a word that is not a command (60_exceptions.md R150). -/
def illegalFirst (s : Block w) : StepOutcome w :=
  .next (raise .illegalCommand 0 s)

/-- One engine step under a latched word that is not a command (R147, R150). -/
def execIllegal (s : State) : MachineOutcome :=
  State.lift (enginePhase illegalFirst noExit s.block)

end Sys2Proof.Machine
end

