-- ==== Sys2Proof/Machine/Text.lean ====
section
/-! DEFINITION. The Polynomial Codec as pure functions (40_codec.md R90 to R98), at any width, and the grammar of a
well-formed text (30_encoding.md R75 to R77) as a recogniser of its own. -/

namespace Sys2Proof.Machine

/-! ## Characters (30_encoding.md R75, R76) -/

/-- `+`. -/
def chPlus : Byte := 0x2B
/-- `0`. -/
def chZero : Byte := 0x30
/-- `1`. -/
def chOne : Byte := 0x31
/-- `x`. -/
def chX : Byte := 0x78
/-- `^`. -/
def chCaret : Byte := 0x5E

/-- The whitespace set `WS` (R76). -/
def isSpace (c : Byte) : Bool :=
  decide (c = 0x20 ∨ (0x09 ≤ c.toNat ∧ c.toNat ≤ 0x0D))

/-- A decimal digit, `0x30` to `0x39` (Table E-3). -/
def isDigit (c : Byte) : Bool :=
  decide (0x30 ≤ c.toNat ∧ c.toNat ≤ 0x39)

/-- The value of a digit character. -/
def digitValue (c : Byte) : Nat :=
  c.toNat - 0x30

/-- The character of a decimal digit `d < 10`. -/
def digitChar (d : Nat) : Byte :=
  BitVec.ofNat 8 (0x30 + d)

/-! ## `encode` -/

/-- The decimal digits of `p`, most significant first, for every `fuel` that is at least `p + 1`. -/
def decDigits : (fuel p : Nat) → List Byte
  | 0, _ => []
  | fuel + 1, p => if p < 10 then [digitChar p] else decDigits fuel (p / 10) ++ [digitChar (p % 10)]

/-- `dec(p)` (00_scope.md R20): the decimal numeral of `p` with no leading zero. -/
def dec (p : Nat) : List Byte :=
  decDigits (p + 1) p

/-- `term(p)` (R90). -/
def term (p : Nat) : List Byte :=
  if p = 0 then [chOne] else if p = 1 then [chX] else chX :: chCaret :: dec p

/-- `bits(v)` (R91): the positions of the set bits, ascending. -/
def bits {w : Nat} (v : BitVec w) : List Nat :=
  (List.range w).filter (fun p => v.getLsbD p)

/-- `encode(v)` (R92): the terms of the set bits in descending order, joined by `+`; the glyph `0` for 0. -/
def encodeText {w : Nat} (v : BitVec w) : List Byte :=
  if v = 0 then [chZero] else [chPlus].intercalate ((bits v).reverse.map term)

/-! ## `decode` -/

/-- Step 1 (R94): delete whitespace wherever it stands. -/
def stripSpace (t : List Byte) : List Byte :=
  t.filter (fun c => !isSpace c)

/-- Step 2 (R95): the maximal pieces between `+` characters, empty pieces included. -/
def splitTerms (t : List Byte) : List (List Byte) :=
  t.splitOn chPlus

/-- The natural number a digit string denotes in base ten, leading zeros allowed, never truncated (R96). -/
def digitsValue (d : List Byte) : Nat :=
  d.foldl (fun e c => 10 * e + digitValue c) 0

/-- What one term is (R96). -/
inductive TermClass where
  | exp (e : Nat)
  | bad (f : CommandFault)
  deriving DecidableEq, Repr

/-- Step 3 (R96): classify one term, the first line that applies. -/
def classify (w : Nat) (u : List Byte) : TermClass :=
  if u = [chOne] then .exp 0
  else if u = [chX] then .exp 1
  else
    match u with
    | c0 :: c1 :: d =>
      if c0 = chX ∧ c1 = chCaret then
        if d = [] ∨ d.all isDigit = false then .bad .malformedExponent
        else if w ≤ digitsValue d then .bad .exponentRange
        else .exp (digitsValue d)
      else .bad .malformedTerm
    | _ => .bad .malformedTerm

/-- `Ok(v)` or `Err(f, j)` (40_codec.md section 3). -/
inductive DecodeResult (w : Nat) where
  | ok (v : BitVec w)
  | err (f : CommandFault) (j : Nat)
  deriving DecidableEq, Repr

/-- Step 4 (R97): OR the bits of the terms, from the left; the first bad term ends it with its index. -/
def combine (w : Nat) : (j : Nat) → (v : BitVec w) → List (List Byte) → DecodeResult w
  | _, v, [] => .ok v
  | j, v, u :: us =>
    match classify w u with
    | .bad f => .err f j
    | .exp e => combine w (j + 1) (v ||| BitVec.twoPow w e) us

/-- `decode(t)` (R98). -/
def decodeText (w : Nat) (t : List Byte) : DecodeResult w :=
  combine w 0 0 (splitTerms (stripSpace t))

/-! ## The grammar -/

/-- Where the recogniser of the grammar of R77 stands. -/
inductive GrammarState where
  /-- At the start of a term. -/
  | term
  /-- After the term `1`. -/
  | one
  /-- After `x`. -/
  | x
  /-- After `x^`. -/
  | caret
  /-- After `x^` and at least one digit; the exponent read so far. -/
  | digits (e : Nat)
  deriving DecidableEq, Repr

/-- Does the rest of a whitespace-free text match the grammar, every exponent below `w`? (R77) The exponents 0 and 1 of
the terms `1` and `x` are below every width R6 admits. -/
def matchesGrammar (w : Nat) : GrammarState → List Byte → Bool
  | .term, [] => false
  | .term, c :: t =>
    if c = chOne then matchesGrammar w .one t
    else if c = chX then matchesGrammar w .x t
    else false
  | .one, [] => true
  | .one, c :: t => if c = chPlus then matchesGrammar w .term t else false
  | .x, [] => true
  | .x, c :: t =>
    if c = chPlus then matchesGrammar w .term t
    else if c = chCaret then matchesGrammar w .caret t
    else false
  | .caret, [] => false
  | .caret, c :: t => if isDigit c then matchesGrammar w (.digits (digitValue c)) t else false
  | .digits e, [] => decide (e < w)
  | .digits e, c :: t =>
    if c = chPlus then decide (e < w) && matchesGrammar w .term t
    else if isDigit c then matchesGrammar w (.digits (10 * e + digitValue c)) t
    else false

/-- A well-formed text (R77). -/
def textWf (w : Nat) (t : List Byte) : Bool :=
  matchesGrammar w .term (stripSpace t)

end Sys2Proof.Machine
end

