-- ==== Sys2Proof/Machine/Arithmetic.lean ====
section
/-! DEFINITION. The commands REDUCE, MULTIPLY and EVALUATE (41_reducer.md R114, 42_multiplier.md R124, 43_evaluate.md
R138), one engine step at a time, and the pure function `evaluate` (R135). -/

namespace Sys2Proof.Machine

variable {w : Nat}

/-- Step S of REDUCE (41_reducer.md R114). `TRCCNT` is cleared before any check. -/
def reduceFirst (s : Block w) : StepOutcome w :=
  let s := clearTrace s
  if !degreeInRange s.n then .next (raise .degreeRange 0 s)
  else if !modulusOk s.m s.n.toNat then .next (raise .modulusDegree 0 s)
  else .next { s with wv := s.a, seg := 0, phase := .reda }

/-- Step S of MULTIPLY (42_multiplier.md R124). -/
def multiplyFirst (s : Block w) : StepOutcome w :=
  let s := clearTrace s
  if !degreeInRange s.n then .next (raise .degreeRange 0 s)
  else if !modulusOk s.m s.n.toNat then .next (raise .modulusDegree 0 s)
  else if !canonical s.a s.n.toNat then .next (raise .nonCanonical 0 s)
  else if !canonical s.b s.n.toNat then .next (raise .nonCanonical 1 s)
  else .next { s with wa := s.a, wb := s.b, acc := 0, seg := 2, phase := .mult }

/-- Step S of EVALUATE (43_evaluate.md R138). `M` is written only when the text decoded and its degree is `N` (R136). -/
def evaluateFirst (s : Block w) : StepOutcome w :=
  let s := clearTrace s
  if !degreeInRange s.n then .next (raise .degreeRange 0 s)
  else if s.depth < s.txtlen.toNat then .next (raise .textLength 0 s)
  else
    match decodeText w (textOperand s) with
    | .err f j => .next (raise f (BitVec.ofNat w j) s)
    | .ok m =>
      if !modulusOk m s.n.toNat then .next (raise .modulusDegree 0 s)
      else .next { s with m := m, wv := s.a, seg := 0, phase := .reda }

/-- REDUCE (41_reducer.md R114): steps S, I, X. -/
def execReduce (s : State) : MachineOutcome :=
  State.lift (enginePhase reduceFirst reduceExit s.block)

/-- MULTIPLY (42_multiplier.md R124): steps S, I, X. -/
def execMultiply (s : State) : MachineOutcome :=
  State.lift (enginePhase multiplyFirst noExit s.block)

/-- EVALUATE (43_evaluate.md R138): steps S, I-red, XA, XB, I-mul, X. -/
def execEvaluate (s : State) : MachineOutcome :=
  State.lift (enginePhase evaluateFirst evaluateExitA s.block)

/-- What `evaluate` returns when it does not fault (R135). -/
structure Evaluation (w : Nat) where
  product : BitVec w
  aReduced : BitVec w
  bReduced : BitVec w
  modulus : BitVec w
  trace : List (Record w)
  deriving DecidableEq, Repr

/-- `evaluate(a, b, t, n)` (43_evaluate.md R135): `Fault(f, info)` or the results. -/
def evaluate {w : Nat} (depth : Nat) (a b : BitVec w) (t : List Byte) (n : Nat) :
    Except (CommandFault × Nat) (Evaluation w) :=
  if w ≤ n then .error (.degreeRange, 0)
  else if depth < t.length then .error (.textLength, 0)
  else
    match decodeText w t with
    | .err f j => .error (f, j)
    | .ok m =>
      if !modulusOk m n then .error (.modulusDegree, 0)
      else
        let ra := reduceLoop m n 0 w a
        let rb := reduceLoop m n 1 w b
        let p := multiplyLoop m n w { acc := 0, a := ra.1, b := rb.1 }
        .ok { product := p.1
              aReduced := ra.1
              bReduced := rb.1
              modulus := m
              trace := ra.2 ++ rb.2 ++ p.2 }

end Sys2Proof.Machine
end

