-- ==== Sys2Proof/Machine/Codec.lean ====
section
/-! DEFINITION. The commands ENCODE and DECODE (40_codec.md R93, R99). Each is one engine step. -/

namespace Sys2Proof.Machine

variable {w : Nat}

/-- The step of ENCODE (R93). The text always fits (R7), so there is no fault. -/
def encodeFirst (s : Block w) : StepOutcome w :=
  let t := encodeText s.a
  .next (complete { s with txt := Memory.writeText s.txt 0 t, txtlen := BitVec.ofNat w t.length })

/-- The step of DECODE (R99). -/
def decodeFirst (s : Block w) : StepOutcome w :=
  if s.depth < s.txtlen.toNat then .next (raise .textLength 0 s)
  else
    match decodeText w (textOperand s) with
    | .err f j => .next (raise f (BitVec.ofNat w j) s)
    | .ok v => .next (complete { s with res := v })

/-- ENCODE (R93). -/
def execEncode (s : State) : MachineOutcome :=
  State.lift (enginePhase encodeFirst noExit s.block)

/-- DECODE (R99). -/
def execDecode (s : State) : MachineOutcome :=
  State.lift (enginePhase decodeFirst noExit s.block)

end Sys2Proof.Machine
end

