-- ==== Sys2Proof/Machine/Dispatch.lean ====
section
/-! DEFINITION. One arm per command (60_exceptions.md R147): one engine step of the command in progress. -/

namespace Sys2Proof.Machine

def exec (i : Instr) (s : State) : Host.Outcome State Fault Refusal :=
  match i with
  | .encode => Sys2Proof.Machine.execEncode s
  | .decode => Sys2Proof.Machine.execDecode s
  | .reduce => Sys2Proof.Machine.execReduce s
  | .multiply => Sys2Proof.Machine.execMultiply s
  | .evaluate => Sys2Proof.Machine.execEvaluate s

end Sys2Proof.Machine
end

