-- ==== Sys2Proof/Machine/Turn.lean ====
section
/-! DEFINITION. One event of the total order of host accesses and engine steps (00_scope.md R18, 20_memory.md R63). -/

namespace Sys2Proof.Machine

variable {w : Nat}

/-- The engine's turn: the one step that is enabled (60_exceptions.md R147), chosen by the latched word; in IDLE the
engine has none and waits (00_scope.md R18), so nothing changes. -/
def engineTurn (s : State) : MachineOutcome :=
  if s.block.phase = .idle then .next s
  else
    match decodeWord s.block.cur with
    | .ok i => exec i s
    | .error _ => execIllegal s

/-- One poll of `WAIT` (30_encoding.md R85): read `STATUS`; while `BUSY` is 1, poll again after the engine's next turn
(log 14). -/
def pollStatus (s : Block w) : Block w :=
  if s.status.busy then { hostRead (addrOf .status) s with agenda := .engine :: .poll :: s.agenda }
  else hostRead (addrOf .status) s

/-- What an event does to the machine with the block `s`. -/
def perform (e : Event w) (s : Block w) : MachineOutcome :=
  match e with
  | .read addr => .next (.of (hostRead addr s))
  | .write addr v => .next (.of (hostWrite addr v s))
  | .reset => .next (.of (resetBlock s))
  | .engine => engineTurn (.of s)
  | .poll => .next (.of (pollStatus s))

/-- One event: the head of the agenda, or the engine's turn when the agenda is empty (log 3). -/
def nextEvent (s : Block w) : MachineOutcome :=
  match s.agenda with
  | [] => engineTurn (.of s)
  | e :: rest => perform e { s with agenda := rest }

/-- The block in which the command word `v` has just been accepted and the engine moves next: what a host write of `v`
to `CMD` does (20_memory.md R56), with nothing of the host pending (log 2). -/
def placeCommand (v : Word w) (s : Block w) : Block w :=
  { acceptCommand v s with agenda := [] }

end Sys2Proof.Machine
end

