-- ==== Sys2Proof/Machine/Step.lean ====
section
/-! DEFINITION. One step of the machine is one event. -/

namespace Sys2Proof.Machine

/-- One step: the next event of the total order (00_scope.md R18, 20_memory.md R63). -/
def step (s : State) : Host.Outcome State Fault Refusal :=
  nextEvent s.block

/-- `s` with a row's word latched where the engine fetches its next command: `CUR`, with `PHASE = START` and the flags as
an accepted `CMD` write leaves them (20_memory.md R56, R65; log 2). -/
def State.withFetchWord (s : State) (nbits w : Nat) : State :=
  .of (placeCommand (tableWord s.w nbits w) s.block)

end Sys2Proof.Machine
end

