-- ==== Sys2Proof/Machine/Script.lean ====
section
/-! DEFINITION. The host script notation (30_encoding.md R84, R85, Tables E-7 and E-8) as an expansion into events.
It is notation, not hardware; `EXPECT` performs only the read. -/

namespace Sys2Proof.Machine

variable {w : Nat}

/-- A line of a host script. -/
inductive ScriptLine (w : Nat) where
  /-- `WR <reg>, <value>`. -/
  | wr (p : Place) (v : Word w)
  /-- `RD <reg>`. -/
  | rd (p : Place)
  /-- `RESET`. -/
  | reset
  /-- `ENCODE`, `DECODE`, `REDUCE`, `MULTIPLY`, `EVALUATE`. -/
  | command (i : Instr)
  /-- `WAIT`. -/
  | wait
  /-- `TEXT "c0c1..."`. -/
  | text (s : List Byte)
  /-- `EXPECT <reg>, <value>`. -/
  | expect (p : Place) (v : Word w)
  deriving DecidableEq, Repr

/-- `WR TXT[i], 'c0'; WR TXT[i+1], 'c1'; ...`. -/
def textWrites : (i : Nat) → List Byte → List (Event w)
  | _, [] => []
  | i, c :: s => .write (addrOf (.txt i)) (c.setWidth w) :: textWrites (i + 1) s

/-- The events of a script line (Tables E-7 and E-8). -/
def expandLine (l : ScriptLine w) : List (Event w) :=
  match l with
  | .wr p v => [.write (addrOf p) v]
  | .rd p => [.read (addrOf p)]
  | .reset => [.reset]
  | .command i => [.write (addrOf .cmd) (encodeWord w i)]
  | .wait => [.poll]
  | .text s => textWrites 0 s ++ [.write (addrOf .txtlen) (BitVec.ofNat w s.length)]
  | .expect p _ => [.read (addrOf p)]

/-- The events of a script, in order (20_memory.md R58). -/
def expandScript (ls : List (ScriptLine w)) : List (Event w) :=
  ls.flatMap expandLine

/-- A state whose host is about to run a script. -/
def withScript (ls : List (ScriptLine w)) (s : Block w) : Block w :=
  { s with agenda := expandScript ls }

end Sys2Proof.Machine
end

