-- ==== Sys2Proof/Safety.lean ====
section
/-! DEFINITION. What a claim calls safe: the consistency of `STATUS` with the sequencer (10_state.md R33), the invariant
of the whole machine, and the part of a state that is the block's. -/

namespace Sys2Proof.Safety

open Sys2Proof.Machine

variable {w : Nat}

/-- `STATUS`, `ERRINFO` and `PHASE` agree (10_state.md R33). -/
structure StatusConsistent (s : Block w) : Prop where
  /-- `BUSY = 1` if and only if `PHASE != IDLE`. -/
  busy_iff : s.status.busy = true ↔ s.phase ≠ .idle
  /-- `BUSY = 1` implies `DONE = 0`, `ERR = 0`, `ERRCODE = 0`, `ERRINFO = 0`. -/
  busy_clear : s.status.busy = true →
    s.status.done = false ∧ s.status.err = false ∧ s.status.errcode = 0 ∧ s.errinfo = 0
  /-- `ERR = 1` implies `DONE = 1` and `ERRCODE != 0`. -/
  err_done : s.status.err = true → s.status.done = true ∧ s.status.errcode ≠ 0
  /-- `ERR = 0` implies `ERRCODE = 0` and `ERRINFO = 0`. -/
  no_err : s.status.err = false → s.status.errcode = 0 ∧ s.errinfo = 0

/-- The latched word fits the phase: which commands enter which loop (10_state.md R34). -/
def commandFits (s : Block w) : Bool :=
  match s.phase with
  | .idle => true
  | .start => true
  | .reda => decide (s.cur = 3 ∨ s.cur = 5)
  | .redb => decide (s.cur = 5)
  | .mult => decide (s.cur = 4 ∨ s.cur = 5)

/-- In a loop the degree is in range, the modulus has that degree, the segment is the loop's, and the Multiplier's
variables are canonical (60_exceptions.md R151, R153; 10_state.md R32; 42_multiplier.md R125). -/
def loopOperandsFit (s : Block w) : Bool :=
  match s.phase with
  | .idle => true
  | .start => true
  | .reda => reduceDomain s.m s.n.toNat && decide (s.seg = 0)
  | .redb => reduceDomain s.m s.n.toNat && decide (s.seg = 1) && canonical s.resa s.n.toNat
  | .mult => reduceDomain s.m s.n.toNat && decide (s.seg = 2) && canonical s.wa s.n.toNat &&
      canonical s.acc s.n.toNat && canonical s.wb s.n.toNat

/-- How many more records the loop in progress can append (41_reducer.md R113, 42_multiplier.md R123). -/
def recordsLeft (s : Block w) : Nat :=
  match s.phase with
  | .idle => 0
  | .start => 0
  | .reda => bitLength s.wv - s.n.toNat
  | .redb => bitLength s.wv - s.n.toNat
  | .mult => bitLength s.wb

/-- How many records the trace can hold at the end of the segment in progress (43_evaluate.md R137). -/
def segmentBound (s : Block w) : Nat :=
  match s.phase with
  | .idle => Config.traceDepth w
  | .start => Config.traceDepth w
  | .reda => w - s.n.toNat
  | .redb => 2 * (w - s.n.toNat)
  | .mult => 2 * w - s.n.toNat

/-- The header of a record is one a rule writes: `KIND` is 1 or 2, `SEG` is not 3, bits `W-1:7` are 0
(30_encoding.md R80). -/
def headerLegal {w : Nat} (h : BitVec w) : Bool :=
  decide ((headerKind h = 1 ∨ headerKind h = 2) ∧ headerSeg h ≠ 3 ∧ h.toNat < 2 ^ 7)

/-- What holds of the block after reset and after every step. -/
structure Inv (s : Block w) : Prop where
  /-- The parameters are ones the spec admits (00_scope.md R6, R7). -/
  params : Config.legal w s.depth
  /-- R33. -/
  status : StatusConsistent s
  /-- `TXT` has its canonical form. -/
  text : Memory.wf s.depth s.txt
  /-- `TRC` has its canonical form. -/
  trace : Trace.wf s.trc
  /-- Every valid record has been written. -/
  listed : ∀ k < s.trccnt.toNat, k ∈ s.trc.map Prod.fst
  /-- Every record's header is legal. -/
  headers : ∀ r ∈ s.trc.map Prod.snd, headerLegal r.header = true
  /-- The latched word fits the phase. -/
  command : commandFits s = true
  /-- The loop's operands fit. -/
  operands : loopOperandsFit s = true
  /-- The trace has room for what is left (00_scope.md R8). -/
  room : s.trccnt.toNat + recordsLeft s ≤ segmentBound s

/-- The block's own part of a state: what is the model's record of the host is left out. -/
def blockOf (s : Block w) : Block w :=
  { s with agenda := [], replies := [], draws := 0 }

/-- `s` with nothing of the host pending: the engine moves alone. -/
def engineAlone (s : Block w) : Block w :=
  { s with agenda := [] }

/-- `k` steps of the machine. -/
def runs (k : Nat) (s : State) : MachineOutcome :=
  Host.Core.run Sys2Proof.core k s

/-- From the idle state `s` an accepted `CMD` write of `v` leads, the engine moving alone, to the idle state `t`. -/
def finishes (v : Word w) (s t : Block w) : Prop :=
  ∃ k : Nat, runs k (.of (placeCommand v s)) = .next (.of t) ∧ t.phase = .idle

/-- The edges of `PHASE` that an engine step of the command `cur` may take (10_state.md R34); `idle` to `idle` is the turn
of an engine that has no step. -/
def engineEdge (cur : Word w) (p q : Phase) : Bool :=
  match p, q with
  | .idle, .idle => true
  | .start, .idle => true
  | .start, .reda => decide (cur = 3 ∨ cur = 5)
  | .start, .mult => decide (cur = 4)
  | .reda, .reda => true
  | .reda, .idle => decide (cur = 3)
  | .reda, .redb => decide (cur = 5)
  | .redb, .redb => true
  | .redb, .mult => true
  | .mult, .mult => true
  | .mult, .idle => true
  | _, _ => false

/-- The exponents of a text's terms (40_codec.md R95 to R97). -/
def hasExponent (w : Nat) (t : List Byte) (p : Nat) : Prop :=
  ∃ u ∈ splitTerms (stripSpace t), classify w u = .exp p

/-- `BIT` of a `MUL` record's header (30_encoding.md R80). -/
def headerBit {w : Nat} (h : BitVec w) : Bool :=
  h.getLsbD 4

/-- A host access that is one event of its own, or a turn of the engine: every event but the reset event and `WAIT`. -/
def plainEvent (e : Event w) : Bool :=
  match e with
  | .read _ => true
  | .write _ _ => true
  | .engine => true
  | .reset => false
  | .poll => false

/-- A record of the Multiplier adds its `a_before` to the result when its `BIT` is 1 (42_multiplier.md R125). -/
def accumulated {w : Nat} (rs : List (Record w)) : BitVec w :=
  rs.foldl (fun x r => if headerBit r.header then x ^^^ r.word6 else x) 0

/-- How many turns of the engine a list of events holds. -/
def engineTurns (es : List (Event w)) : Nat :=
  es.count .engine

end Sys2Proof.Safety
end

