-- ==== Sys2Proof/Certificates/Slice0/Obligations.lean ====
section
/-! DEFINITION. The statements for the provers. Each one about the machine holds for every `W` and every `TEXT_DEPTH` the
spec admits (00_scope.md R6, R7; log 1): `w` and `s.depth`, with `Config.legal w s.depth`. Each one about a pure function
holds at the widths it names. -/

open Sys2Proof Sys2Proof.Machine Sys2Proof.Safety

/-! ## Encoding -/

/-- 30_encoding.md R71, R72: a word is a command exactly when it equals an opcode value; every other word is refused by the
name of what is wrong with it. -/
def Obligations.CommandWordIsItsOpcode : Prop :=
  (opcode .encode = 1 ∧ opcode .decode = 2 ∧ opcode .reduce = 3 ∧ opcode .multiply = 4 ∧ opcode .evaluate = 5) ∧
  ∀ (w : Nat) (v : Word w), 8 ≤ w →
    (∀ i : Instr, decodeWord v = .ok i ↔ v.toNat = (opcode i).toNat) ∧
    (v.toNat % 16 = 0 ∨ 6 ≤ v.toNat % 16 → decodeWord v = .error (.reservedOpcode (v.setWidth 4))) ∧
    (1 ≤ v.toNat % 16 ∧ v.toNat % 16 ≤ 5 → 16 ≤ v.toNat → decodeWord v = .error (.upperBitsSet (v.setWidth 4)))

/-- 30_encoding.md Table E-2: the words of the opcode table, which are those of `W = 64`, decode to their commands, their
neighbours to none; and at every width each command's encoding decodes to it. -/
def Obligations.OpcodeTableWordsDecode : Prop :=
  decodeTableWord 64 0x0000000000000001 = some .encode ∧
  decodeTableWord 64 0x0000000000000002 = some .decode ∧
  decodeTableWord 64 0x0000000000000003 = some .reduce ∧
  decodeTableWord 64 0x0000000000000004 = some .multiply ∧
  decodeTableWord 64 0x0000000000000005 = some .evaluate ∧
  decodeTableWord 64 0x0000000000000000 = none ∧
  decodeTableWord 64 0x0000000000000006 = none ∧
  decodeTableWord 64 0x0000000000000013 = none ∧
  decodeTableWord 64 0x8000000000000001 = none ∧
  (∀ (w : Nat) (i : Instr), 8 ≤ w →
    i.wf = true ∧ decodeWord (encodeWord w i) = .ok i ∧ commandWordWf (encodeWord w i) = true ∧
    (encodeWord w i).toNat = (opcode i).toNat)

/-! ## The address map -/

/-- 20_memory.md R51: the map always fits, and where the buffers lie in the reference configuration. -/
def Obligations.AddressMapFits : Prop :=
  (∀ w depth : Nat, Config.legal w depth → depth ≤ 0x1000 ∧ 8 * (2 * w) = 16 * w ∧ 16 * w ≤ 0x2000) ∧
  Config.legal 64 512 ∧ Config.traceDepth 64 = 128 ∧
  placeAt 64 512 0x1000 = .txt 0 ∧ placeAt 64 512 0x11FF = .txt 511 ∧ placeAt 64 512 0x1200 = .reserved 0x1200 ∧
  placeAt 64 512 0x2000 = .trc 0 0 ∧ placeAt 64 512 0x23FF = .trc 127 7 ∧ placeAt 64 512 0x2400 = .reserved 0x2400

/-- 20_memory.md Table M-1, for every `W` and `TEXT_DEPTH`: which register stands at which address, where `TXT[i]` and
`TRC[k][f]` stand, and which addresses are reserved; every address names one place, and every place has its own address. -/
def Obligations.AddressMapIsComplete : Prop :=
  ∀ w depth : Nat, Config.legal w depth →
    (placeAt w depth 0x0000 = .cmd ∧ placeAt w depth 0x0001 = .status ∧ placeAt w depth 0x0002 = .errinfo ∧
      placeAt w depth 0x0004 = .a ∧ placeAt w depth 0x0005 = .b ∧ placeAt w depth 0x0006 = .m ∧
      placeAt w depth 0x0007 = .n ∧ placeAt w depth 0x0008 = .res ∧ placeAt w depth 0x0009 = .resa ∧
      placeAt w depth 0x000A = .resb ∧ placeAt w depth 0x000C = .txtlen ∧ placeAt w depth 0x000D = .trccnt) ∧
    (∀ i < depth, (addrOf (.txt i)).toNat = 0x1000 + i ∧ placeAt w depth (addrOf (.txt i)) = .txt i) ∧
    (∀ k < 2 * w, ∀ f < 8,
      (addrOf (.trc k f)).toNat = 0x2000 + 8 * k + f ∧ placeAt w depth (addrOf (.trc k f)) = .trc k f) ∧
    (∀ addr : Addr, placeAt w depth addr = .reserved addr ↔
      addr.toNat = 0x0003 ∨ addr.toNat = 0x000B ∨ (0x000E ≤ addr.toNat ∧ addr.toNat ≤ 0x0FFF) ∨
      (0x1000 + depth ≤ addr.toNat ∧ addr.toNat ≤ 0x1FFF) ∨ 0x2000 + 16 * w ≤ addr.toNat) ∧
    (∀ addr : Addr, addrOf (placeAt w depth addr) = addr)

/-! ## The engine and the step -/

/-- A step runs the latched command: with nothing of the host pending, or on the engine's turn, `step` is `exec` of the
command that `CUR` decodes to (60_exceptions.md R147); the engine without a command changes nothing (00_scope.md R18);
`withFetchWord` leaves the word accepted as a `CMD` write does (20_memory.md R56, log 2), and the very next step runs it.
That the engine moves when the agenda is empty is the model's choice (log 3). -/
def Obligations.StepRunsLatchedCommand : Prop :=
  (∀ (w : Nat) (s : Block w) (i : Instr), Config.legal w s.depth → decodeWord s.cur = .ok i → s.phase ≠ .idle →
    (s.agenda = [] → step (.of s) = exec i (.of s)) ∧
    (∀ rest : List (Event w), s.agenda = .engine :: rest → step (.of s) = exec i (.of { s with agenda := rest }))) ∧
  (∀ (w : Nat) (s : Block w), Config.legal w s.depth → s.phase = .idle →
    (s.agenda = [] → step (.of s) = .next (.of s)) ∧
    (∀ rest : List (Event w), s.agenda = .engine :: rest → step (.of s) = .next (.of { s with agenda := rest }))) ∧
  (∀ (w : Nat) (s : Block w) (i : Instr), Config.legal w s.depth →
    (State.of s).withFetchWord 64 (opcode i).toNat = .of { s with
      agenda := []
      cur := encodeWord w i
      phase := .start
      status := { busy := true, done := false, err := false, errcode := 0 }
      errinfo := 0 } ∧
    step ((State.of s).withFetchWord 64 (opcode i).toNat) = exec i ((State.of s).withFetchWord 64 (opcode i).toNat))

/-- 10_state.md R34: `PHASE` advances along exactly the listed edges, by engine steps, by an accepted `CMD` write from IDLE,
and by reset. -/
def Obligations.PhaseAdvancesAlongListedEdges : Prop :=
  ∀ (w : Nat) (s t : Block w) (e : Event w), Config.legal w s.depth → StatusConsistent s → perform e s = .next (.of t) →
    (e = .engine → engineEdge s.cur s.phase t.phase = true) ∧
    (∀ addr v, e = .write addr v → t.phase = s.phase ∨ (addr = 0 ∧ s.phase = .idle ∧ t.phase = .start)) ∧
    (∀ addr, e = .read addr → t.phase = s.phase) ∧
    (e = .poll → t.phase = s.phase) ∧
    (e = .reset → t.phase = .idle)

/-- The first engine step of REDUCE, MULTIPLY and EVALUATE when every test passes (41_reducer.md R114, 42_multiplier.md R124,
43_evaluate.md R138, steps S): what it loads, and nothing else. -/
def Obligations.ArithmeticCommandsStart : Prop :=
  ∀ (w : Nat) (s : Block w), Config.legal w s.depth → s.phase = .start → s.n.toNat < w →
    (deg s.m = (s.n.toNat : Int) →
      exec .reduce (.of s) = .next (.of { s with trccnt := 0, wv := s.a, seg := 0, phase := .reda })) ∧
    (deg s.m = (s.n.toNat : Int) → deg s.a < (s.n.toNat : Int) → deg s.b < (s.n.toNat : Int) →
      exec .multiply (.of s) =
        .next (.of { s with trccnt := 0, wa := s.a, wb := s.b, acc := 0, seg := 2, phase := .mult })) ∧
    (∀ m : Word w, s.txtlen.toNat ≤ s.depth → decodeText w (textOperand s) = .ok m →
      deg m = (s.n.toNat : Int) →
      exec .evaluate (.of s) = .next (.of { s with trccnt := 0, m := m, wv := s.a, seg := 0, phase := .reda }))

/-! ## Faults -/

/-- 60_exceptions.md R150: the engine's step under a latched word that is not one of 1 to 5 ends with `IllegalCommand`,
`ERRINFO` 0, and changes nothing else. That the machine's step is this one when nothing of the host is pending is the
model's choice (log 3). -/
def Obligations.IllegalCommandFaults : Prop :=
  ∀ (w : Nat) (s : Block w), Config.legal w s.depth → s.phase = .start → (s.cur.toNat = 0 ∨ 6 ≤ s.cur.toNat) →
    engineTurn (.of s) = .next
      (.of { s with
        status := { busy := false, done := true, err := true, errcode := 1 }
        errinfo := 0
        phase := .idle }) ∧
    (s.agenda = [] → step (.of s) = engineTurn (.of s)) ∧
    (statusWord { busy := false, done := true, err := true, errcode := 1 } : Word w).toNat = 0x16

/-- 60_exceptions.md R151: REDUCE, MULTIPLY and EVALUATE raise `DegreeRange` when `N >= W`, before anything else; they change
`STATUS`, `ERRINFO`, `PHASE` and clear `TRCCNT`, and nothing else. Below `W` it is raised by no command, at `N = 0` either. -/
def Obligations.DegreeRangeFaults : Prop :=
  (∀ (w : Nat) (s : Block w) (i : Instr), Config.legal w s.depth → s.phase = .start → w ≤ s.n.toNat →
    (i = .reduce ∨ i = .multiply ∨ i = .evaluate) →
    exec i (.of s) = .next
      (.of { s with
        trccnt := 0
        status := { busy := false, done := true, err := true, errcode := 2 }
        errinfo := 0
        phase := .idle })) ∧
  (∀ (w : Nat) (s t : Block w) (i : Instr), Config.legal w s.depth → s.phase = .start → s.status.errcode = 0 →
    s.n.toNat < w →
    exec i (.of s) = .next (.of t) → t.status.errcode ≠ 2)

/-- 60_exceptions.md R152: DECODE and EVALUATE raise `TextLength` exactly when `TXTLEN > TEXT_DEPTH`; the empty text raises
`MalformedTerm` instead. -/
def Obligations.TextLengthFaults : Prop :=
  (∀ (w : Nat) (s : Block w), Config.legal w s.depth → s.phase = .start → s.depth < s.txtlen.toNat →
    exec .decode (.of s) = .next
      (.of { s with
        status := { busy := false, done := true, err := true, errcode := 3 }
        errinfo := 0
        phase := .idle }) ∧
    (s.n.toNat < w →
      exec .evaluate (.of s) = .next
        (.of { s with
          trccnt := 0
          status := { busy := false, done := true, err := true, errcode := 3 }
          errinfo := 0
          phase := .idle }))) ∧
  (∀ (w : Nat) (s t : Block w) (i : Instr), Config.legal w s.depth → s.phase = .start → s.status.errcode = 0 →
    s.txtlen.toNat ≤ s.depth →
    exec i (.of s) = .next (.of t) → t.status.errcode ≠ 3) ∧
  (∀ (w : Nat) (s : Block w), Config.legal w s.depth → s.phase = .start → s.txtlen = 0 →
    exec .decode (.of s) = .next
      (.of { s with
        status := { busy := false, done := true, err := true, errcode := 4 }
        errinfo := 0
        phase := .idle }))

/-- 60_exceptions.md R153: REDUCE and MULTIPLY raise `ModulusDegree` when `deg(M) != N`, EVALUATE when the decoded modulus
has another degree; `M = 0` always fails the test; `M` keeps its value. -/
def Obligations.ModulusDegreeFaults : Prop :=
  ∀ (w : Nat) (s : Block w), Config.legal w s.depth → s.phase = .start → s.n.toNat < w →
    (∀ i : Instr, (i = .reduce ∨ i = .multiply) → (deg s.m ≠ (s.n.toNat : Int) ∨ s.m = 0) →
      exec i (.of s) = .next
        (.of { s with
          trccnt := 0
          status := { busy := false, done := true, err := true, errcode := 7 }
          errinfo := 0
          phase := .idle })) ∧
    (∀ m : Word w, s.txtlen.toNat ≤ s.depth → decodeText w (textOperand s) = .ok m →
      deg m ≠ (s.n.toNat : Int) →
      exec .evaluate (.of s) = .next
        (.of { s with
          trccnt := 0
          status := { busy := false, done := true, err := true, errcode := 7 }
          errinfo := 0
          phase := .idle }))

/-- 60_exceptions.md R154: MULTIPLY raises `NonCanonical` with `ERRINFO` 0 when `A` is not canonical and 1 when only `B` is
not; 0 is always canonical; REDUCE and EVALUATE never raise it. -/
def Obligations.NonCanonicalFaults : Prop :=
  (∀ (w : Nat) (s : Block w), Config.legal w s.depth → s.phase = .start → s.n.toNat < w → deg s.m = (s.n.toNat : Int) →
    ((s.n.toNat : Int) ≤ deg s.a ∨ (s.n.toNat : Int) ≤ deg s.b) →
    exec .multiply (.of s) = .next
      (.of { s with
        trccnt := 0
        status := { busy := false, done := true, err := true, errcode := 8 }
        errinfo := if (s.n.toNat : Int) ≤ deg s.a then 0 else 1
        phase := .idle })) ∧
  (∀ w n : Nat, deg (0 : Word w) < (n : Int)) ∧
  (∀ (w : Nat) (s t : Block w) (i : Instr), Config.legal w s.depth → (i = .reduce ∨ i = .evaluate) →
    s.phase = .start → s.status.errcode = 0 →
    exec i (.of s) = .next (.of t) → t.status.errcode ≠ 8)

/-- 60_exceptions.md R155: DECODE and EVALUATE raise the text fault that `decode` of the text returns, with the index of its
term in `ERRINFO`; it is one of the three text faults, and the index is at most the number of `+` characters. A text fault
is raised by these two only, and only when `decode` returns it. -/
def Obligations.TextFaultsReportTheTerm : Prop :=
  (∀ (w : Nat) (s : Block w) (f : CommandFault) (j : Nat), Config.legal w s.depth → s.phase = .start →
    s.txtlen.toNat ≤ s.depth →
    decodeText w (textOperand s) = .err f j →
    exec .decode (.of s) = .next (.of { s with status := statusFaulted f, errinfo := BitVec.ofNat w j, phase := .idle }) ∧
    (s.n.toNat < w →
      exec .evaluate (.of s) = .next
        (.of { s with
          trccnt := 0
          status := statusFaulted f
          errinfo := BitVec.ofNat w j
          phase := .idle })) ∧
    (BitVec.ofNat w j).toNat = j ∧
    j ≤ (stripSpace (textOperand s)).count chPlus ∧
    (f = .malformedTerm ∨ f = .malformedExponent ∨ f = .exponentRange)) ∧
  (∀ (w : Nat) (s t : Block w) (i : Instr), Config.legal w s.depth → s.phase = .start → s.status.errcode = 0 →
    exec i (.of s) = .next (.of t) →
    (t.status.errcode = 4 ∨ t.status.errcode = 5 ∨ t.status.errcode = 6) →
    (i = .decode ∨ i = .evaluate) ∧
    ∃ (f : CommandFault) (j : Nat), decodeText w (textOperand s) = .err f j ∧
      t.status.errcode = faultCode f ∧ t.errinfo.toNat = j) ∧
  (faultCode .malformedTerm = 4 ∧ faultCode .malformedExponent = 5 ∧ faultCode .exponentRange = 6) ∧
  (∀ w : Nat, decodeText w [0x78, 0x5E, 0x61] = .err .malformedExponent 0 ∧ decodeText w [0x79] = .err .malformedTerm 0)

/-- 60_exceptions.md Table X-1: the codes of the eight faults, `STATUS` as it reads after each and after a success, and its
layout (10_state.md Table S-2). -/
def Obligations.StatusReadsAsTabled : Prop :=
  (∀ w : Nat, 8 ≤ w → ∀ fc ∈ [(CommandFault.illegalCommand, 0x16), (.degreeRange, 0x26), (.textLength, 0x36),
      (.malformedTerm, 0x46), (.malformedExponent, 0x56), (.exponentRange, 0x66), (.modulusDegree, 0x76),
      (.nonCanonical, 0x86)],
    (statusWord (statusFaulted fc.1) : Word w).toNat = fc.2) ∧
  (∀ w : Nat, 8 ≤ w →
    (statusWord statusAccepted : Word w).toNat = 0x1 ∧
      (statusWord (statusCompleted statusAccepted) : Word w).toNat = 0x2) ∧
  (∀ (w : Nat) (st : Status), 8 ≤ w →
    (statusWord st : Word w).getLsbD 0 = st.busy ∧ (statusWord st : Word w).getLsbD 1 = st.done ∧
    (statusWord st : Word w).getLsbD 2 = st.err ∧ (statusWord st : Word w).getLsbD 3 = false ∧
    (statusWord st : Word w).extractLsb' 4 4 = st.errcode ∧ (statusWord st : Word w).toNat < 2 ^ 8)

/-- 60_exceptions.md R145: whatever happens, a fault that is recorded afterwards was recorded before and is as it was, or it has
just been found by the engine in a command's first step; and then the command has had no effect but `STATUS`, `ERRINFO`,
`PHASE` and, for REDUCE, MULTIPLY and EVALUATE, `TRCCNT <- 0`. -/
def Obligations.FaultsArePrecise : Prop :=
  ∀ (w : Nat) (s t : Block w) (e : Event w), Config.legal w s.depth → StatusConsistent s →
    perform e s = .next (.of t) → t.status.err = true →
    (s.phase = .idle ∧ t.phase = .idle ∧ t.status = s.status ∧ t.errinfo = s.errinfo) ∨
    (e = .engine ∧ s.phase = .start ∧
      ∃ (f : CommandFault) (info : Word w), t =
        { s with
          status := statusFaulted f
          errinfo := info
          phase := .idle
          trccnt := if s.cur = 3 ∨ s.cur = 4 ∨ s.cur = 5 then 0 else s.trccnt })

/-! ## The Codec -/

/-- 40_codec.md R93: ENCODE completes for every `A`, writing the text to `TXT[0 .. L-1]` and its length to `TXTLEN`, and
nothing else; the text fits. -/
def Obligations.EncodeCompletes : Prop :=
  ∀ (w : Nat) (s : Block w), Config.legal w s.depth → s.phase = .start →
    exec .encode (.of s) = .next
      (.of { s with
        txt := Memory.writeText s.txt 0 (encodeText s.a)
        txtlen := BitVec.ofNat w (encodeText s.a).length
        status := { s.status with busy := false, done := true }
        phase := .idle }) ∧
    1 ≤ (encodeText s.a).length ∧ (encodeText s.a).length ≤ Config.encMax w ∧
    Config.encMax w ≤ s.depth ∧
    (BitVec.ofNat w (encodeText s.a).length).toNat = (encodeText s.a).length ∧
    (∀ i : Nat, i < (encodeText s.a).length →
      Memory.read (Memory.writeText s.txt 0 (encodeText s.a)) i = (encodeText s.a)[i]?) ∧
    (∀ i : Nat, (encodeText s.a).length ≤ i →
      Memory.read (Memory.writeText s.txt 0 (encodeText s.a)) i = Memory.read s.txt i)

/-- 30_encoding.md R78, at every width: the canonical text has no whitespace; it is the glyph `0` for 0, and else one term per
set bit, exponents strictly descending, joined by single `+` characters; a numeral has no leading zero. Its length is at
most `ENC_MAX`, reached by the value with every bit set (00_scope.md section 4). -/
def Obligations.EncodeTextIsCanonical : Prop :=
  ∀ (w : Nat) (v : BitVec w),
    stripSpace (encodeText v) = encodeText v ∧
    encodeText (0 : BitVec w) = [0x30] ∧
    (v ≠ 0 → ∃ es : List Nat, splitTerms (encodeText v) = es.map term ∧ es.Pairwise (· > ·) ∧
      ∀ p : Nat, p ∈ es ↔ v.getLsbD p = true) ∧
    (term 0 = [0x31] ∧ term 1 = [0x78] ∧ ∀ p : Nat, 2 ≤ p → term p = 0x78 :: 0x5E :: dec p) ∧
    (∀ p : Nat, digitsValue (dec p) = p ∧ (dec p).all isDigit = true ∧ (1 ≤ p → (dec p).head? ≠ some 0x30)) ∧
    (1 ≤ w → (encodeText v).length ≤ Config.encMax w ∧ (encodeText (BitVec.allOnes w)).length = Config.encMax w) ∧
    encodeText (11 : Word 64) = [0x78, 0x5E, 0x33, 0x2B, 0x78, 0x2B, 0x31]

/-- 40_codec.md R100: decoding the encoding of a non-zero value gives the value back, at every width; at 0 it gives
`Err(MalformedTerm, 0)`. -/
def Obligations.DecodeEncodeRoundTrip : Prop :=
  ∀ (w : Nat) (v : BitVec w),
    (v ≠ 0 → decodeText w (encodeText v) = .ok v) ∧
    decodeText w (encodeText (0 : BitVec w)) = .err .malformedTerm 0

/-- 40_codec.md R98: DECODE succeeds exactly on the texts of the grammar, never with the value 0; and R94 (30_encoding.md
R76): the whitespace it deletes first is the six characters of `WS`, wherever they stand, and nothing else. -/
def Obligations.DecodeSucceedsOnTheGrammar : Prop :=
  (∀ (w : Nat) (t : List Byte), 8 ≤ w →
    ((∃ v : BitVec w, decodeText w t = .ok v) ↔ textWf w t = true) ∧
    decodeText w t ≠ .ok 0 ∧
    decodeText w [0x30] = .err .malformedTerm 0) ∧
  (∀ (c : Byte) (t t' : List Byte),
    stripSpace [] = [] ∧
    stripSpace (c :: t) =
      (if c ∈ ([0x09, 0x0A, 0x0B, 0x0C, 0x0D, 0x20] : List Byte) then stripSpace t else c :: stripSpace t) ∧
    stripSpace (t ++ t') = stripSpace t ++ stripSpace t') ∧
  (∀ (w : Nat) (t t' : List Byte),
    decodeText w t = decodeText w (stripSpace t) ∧
    ∀ c ∈ ([0x09, 0x0A, 0x0B, 0x0C, 0x0D, 0x20] : List Byte), decodeText w (t ++ c :: t') = decodeText w (t ++ t'))

/-- 40_codec.md R95: the terms are the maximal pieces between the `+` characters. R96: what one term is, the first line that
applies: `1`, `x`, `x^` with no or some non-digit after it (this before the range), an exponent of at least `w`, an exponent
below it, anything else. R97: the value has exactly the bits of the terms' exponents; the error is that of the first bad
term, with its index. -/
def Obligations.DecodeCombinesTheTerms : Prop :=
  (∀ t : List Byte, [0x2B].intercalate (splitTerms t) = t ∧ (∀ u ∈ splitTerms t, (0x2B : Byte) ∉ u) ∧
    (splitTerms t).length = t.count 0x2B + 1) ∧
  (∀ w : Nat, 8 ≤ w →
    classify w [0x31] = .exp 0 ∧ classify w [0x78] = .exp 1 ∧
    (∀ d : List Byte, (d = [] ∨ ∃ c ∈ d, c.toNat < 0x30 ∨ 0x39 < c.toNat) →
      classify w (0x78 :: 0x5E :: d) = .bad .malformedExponent) ∧
    (∀ d : List Byte, d ≠ [] → (∀ c ∈ d, 0x30 ≤ c.toNat ∧ c.toNat ≤ 0x39) →
      (w ≤ digitsValue d → classify w (0x78 :: 0x5E :: d) = .bad .exponentRange) ∧
      (digitsValue d < w → classify w (0x78 :: 0x5E :: d) = .exp (digitsValue d))) ∧
    (∀ u : List Byte, u ≠ [0x31] → u ≠ [0x78] → (∀ d : List Byte, u ≠ 0x78 :: 0x5E :: d) →
      classify w u = .bad .malformedTerm)) ∧
  (digitsValue [] = 0 ∧ ∀ (d : List Byte) (c : Byte), digitsValue (d ++ [c]) = 10 * digitsValue d + (c.toNat - 0x30)) ∧
  (∀ (w : Nat) (t : List Byte),
    (∀ v : BitVec w, decodeText w t = .ok v →
      (∀ u ∈ splitTerms (stripSpace t), ∃ e : Nat, classify w u = .exp e) ∧
      ∀ p : Nat, p < w → (v.getLsbD p = true ↔ hasExponent w t p)) ∧
    (∀ (f : CommandFault) (j : Nat), decodeText w t = .err f j ↔
      (∃ u : List Byte, (splitTerms (stripSpace t))[j]? = some u ∧ classify w u = .bad f) ∧
      ∀ i : Nat, i < j →
        ∃ (u : List Byte) (e : Nat), (splitTerms (stripSpace t))[i]? = some u ∧ classify w u = .exp e))

/-- 40_codec.md R101, R102: two well-formed texts with the same set of exponents decode to the same value, and the canonical
text of that value has the same set again. -/
def Obligations.DecodeDependsOnTheTermSet : Prop :=
  ∀ (w : Nat) (t : List Byte), 8 ≤ w → textWf w t = true →
    (∀ t' : List Byte, textWf w t' = true → (∀ p : Nat, hasExponent w t p ↔ hasExponent w t' p) →
      decodeText w t = decodeText w t') ∧
    (∀ v : BitVec w, decodeText w t = .ok v →
      (∀ p : Nat, v.getLsbD p = true ↔ hasExponent w t p) ∧
      (∀ p : Nat, hasExponent w (encodeText v) p ↔ hasExponent w t p) ∧
      decodeText w (encodeText v) = .ok v)

/-- 40_codec.md section 4: DECODE of a text that decodes writes the value to `RES` and completes; nothing else changes. The
text is the first `TXTLEN` cells of `TXT`. -/
def Obligations.DecodeCompletes : Prop :=
  ∀ (w : Nat) (s : Block w), Config.legal w s.depth →
    (∀ v : Word w, s.phase = .start → s.txtlen.toNat ≤ s.depth → decodeText w (textOperand s) = .ok v →
      exec .decode (.of s) = .next
        (.of { s with res := v, status := { s.status with busy := false, done := true }, phase := .idle })) ∧
    (textOperand s).length = s.txtlen.toNat ∧
    (∀ (i : Nat) (c : Byte), i < s.txtlen.toNat → Memory.read s.txt i = some c → (textOperand s)[i]? = some c)

/-! ## The Reducer -/

/-- 41_reducer.md R111, at every width: the shifted modulus stands under the top bit of the value with no bit lost, and the xor
clears that bit, so the degree strictly falls. -/
def Obligations.RedStepLowersTheDegree : Prop :=
  redStep (13 : Word 64) 11 3 = { shift := 0, sm := 11, nv := 6 } ∧
  redStep (255 : Word 64) 11 3 = { shift := 4, sm := 176, nv := 79 } ∧
  ∀ (w : Nat) (v m : BitVec w) (n : Nat), deg m = (n : Int) → (n : Int) ≤ deg v →
    ((redStep v m n).shift : Int) = deg v - (n : Int) ∧
    (redStep v m n).shift ≤ w - 1 - n ∧
    (redStep v m n).sm.toNat = m.toNat * 2 ^ (redStep v m n).shift ∧
    deg (redStep v m n).sm = deg v ∧
    (redStep v m n).nv = v ^^^ (redStep v m n).sm ∧
    (redStep v m n).nv.getLsbD (n + (redStep v m n).shift) = false ∧
    deg (redStep v m n).nv < deg v

/-- 41_reducer.md R112: `reduce` is its loop, with the record of every iteration. -/
def Obligations.ReduceIsItsLoop : Prop :=
  ∀ (w : Nat) (v m : BitVec w) (n : Nat) (seg : BitVec 2), deg m = (n : Int) →
    (deg v < (n : Int) → reduce v m n seg = some (v, [])) ∧
    ((n : Int) ≤ deg v → ∃ (r : BitVec w) (tr : List (Record w)),
      reduce (redStep v m n).nv m n seg = some (r, tr) ∧
      reduce v m n seg = some (r,
        { header := redHeader seg, word1 := v, word2 := BitVec.ofNat w (redStep v m n).shift, word3 := (redStep v m n).sm,
          word4 := (redStep v m n).nv, word5 := 0, word6 := 0, word7 := 0 } :: tr)) ∧
    (8 ≤ w → (redHeader seg : BitVec w).toNat = 0x01 + 4 * seg.toNat)

/-- 41_reducer.md R113: the loop runs at most `deg(v) - n + 1` iterations, at most `w - n`, and that bound is attained; none exactly
when `deg(v) < n`; the degrees of `value_before` and the `shift` words strictly fall. -/
def Obligations.ReduceTerminates : Prop :=
  (∀ (w : Nat) (v m r : BitVec w) (n : Nat) (seg : BitVec 2) (tr : List (Record w)), reduce v m n seg = some (r, tr) →
    tr.length ≤ (deg v - (n : Int) + 1).toNat ∧ tr.length ≤ w - n ∧
    (tr.length = 0 ↔ deg v < (n : Int)) ∧
    (tr.map (fun x => deg x.word1)).Pairwise (· > ·) ∧
    (tr.map (fun x => x.word2.toNat)).Pairwise (· > ·)) ∧
  (∀ (w n : Nat) (seg : BitVec 2), n < w → ∃ (r : BitVec w) (tr : List (Record w)),
    reduce (BitVec.allOnes w) (BitVec.twoPow w n) n seg = some (r, tr) ∧ tr.length = w - n)

/-- 41_reducer.md sections 1 and 3: the value of `reduce` is canonical, and a canonical value is returned unchanged with an
empty trace. That `reduce` has a value exactly on its domain, a modulus of degree exactly `n`, is the model's reading
(log 16). -/
def Obligations.ReduceReturnsACanonicalValue : Prop :=
  ∀ (w : Nat) (v m : BitVec w) (n : Nat) (seg : BitVec 2),
    ((reduce v m n seg).isSome = true ↔ deg m = (n : Int)) ∧
    (∀ (r : BitVec w) (tr : List (Record w)), reduce v m n seg = some (r, tr) → deg r < (n : Int)) ∧
    (deg v < (n : Int) ↔ v.toNat < 2 ^ n) ∧
    (deg m = (n : Int) → deg v < (n : Int) → reduce v m n seg = some (v, []))

/-- 41_reducer.md R118: `reduce` is the remainder on division by the modulus over GF(2), the unique canonical value that differs
from `v` by a polynomial multiple of the modulus. -/
def Obligations.ReduceIsTheRemainder : Prop :=
  ∀ (w : Nat) (v m r : BitVec w) (n : Nat) (seg : BitVec 2) (tr : List (Record w)), reduce v m n seg = some (r, tr) →
    deg r < (n : Int) ∧
    (∃ q : BitVec w, (v ^^^ r).setWidth (2 * w) = clmul q m) ∧
    (∀ r' : BitVec w, deg r' < (n : Int) → (∃ q : BitVec w, (v ^^^ r').setWidth (2 * w) = clmul q m) → r' = r)

/-- 41_reducer.md R119: `reduce` is idempotent and linear; the modulus and its shifted copies reduce to 0, the modulus in one
iteration. -/
def Obligations.ReduceIsIdempotentAndLinear : Prop :=
  ∀ (w : Nat) (m : BitVec w) (n : Nat) (seg : BitVec 2), deg m = (n : Int) →
    (∀ (v r : BitVec w) (tr : List (Record w)), reduce v m n seg = some (r, tr) → reduce r m n seg = some (r, [])) ∧
    (∀ (u v ru rv : BitVec w) (tu tv : List (Record w)), reduce u m n seg = some (ru, tu) →
      reduce v m n seg = some (rv, tv) → ∃ tr : List (Record w), reduce (u ^^^ v) m n seg = some (ru ^^^ rv, tr)) ∧
    (∃ x : Record w, reduce m m n seg = some (0, [x])) ∧
    (∀ k : Nat, k ≤ w - 1 - n → ∃ tr : List (Record w), reduce (shl m k) m n seg = some (0, tr))

/-- 41_reducer.md R114, step I: one Reducer iteration, in REDUCE and in EVALUATE alike, appends its record at `TRCCNT` and changes
`WV`, `TRC`, `TRCCNT` and nothing else. -/
def Obligations.ReducerIterationAppendsItsRecord : Prop :=
  ∀ (w : Nat) (s : Block w) (i : Instr), Config.legal w s.depth → (i = .reduce ∨ i = .evaluate) →
    (s.phase = .reda ∨ s.phase = .redb) → (s.n.toNat : Int) ≤ deg s.wv → s.trccnt.toNat < Config.traceDepth w →
    ∃ t : Block w, exec i (.of s) = .next (.of t) ∧
      t = { s with wv := (redStep s.wv s.m s.n.toNat).nv, trc := t.trc, trccnt := s.trccnt + 1 } ∧
      t.trccnt.toNat = s.trccnt.toNat + 1 ∧
      Store.find t.trc s.trccnt.toNat = some (redRecord s.seg s.wv (redStep s.wv s.m s.n.toNat)) ∧
      (∀ k : Nat, k ≠ s.trccnt.toNat → Store.find t.trc k = Store.find s.trc k)

/-- 41_reducer.md R114, step X: at the exit of its loop REDUCE writes `RES` and completes; nothing else changes. -/
def Obligations.ReduceCompletes : Prop :=
  ∀ (w : Nat) (s : Block w), Config.legal w s.depth → s.phase = .reda → deg s.wv < (s.n.toNat : Int) →
    exec .reduce (.of s) = .next
      (.of { s with res := s.wv, status := { s.status with busy := false, done := true }, phase := .idle })

/-- 41_reducer.md section 2: from an accepted REDUCE with legal operands the engine alone reaches completion in 2 steps and one per
record (70_reset_and_hazards.md Table T-1), busy until then, with exactly the value and records of `reduce(A, M, N, 0)`;
every other register and every other record is unchanged (of the records from `TRCCNT` up the spec promises nothing: log 8). -/
def Obligations.ReduceRunsToItsFunction : Prop :=
  ∀ (w : Nat) (s : Block w), Config.legal w s.depth → s.agenda = [] → s.phase = .start → s.cur = 3 → s.n.toNat < w →
    deg s.m = (s.n.toNat : Int) →
    ∃ (r : Word w) (tr : List (Record w)) (t : Block w),
      reduce s.a s.m s.n.toNat 0 = some (r, tr) ∧
      runs (tr.length + 2) (.of s) = .next (.of t) ∧
      t = { s with
        res := r
        trccnt := BitVec.ofNat w tr.length
        trc := t.trc
        wv := r
        seg := 0
        status := { s.status with busy := false, done := true }
        phase := .idle } ∧
      t.trccnt.toNat = tr.length ∧
      (∀ k : Nat, k < tr.length → Store.find t.trc k = tr[k]?) ∧
      (∀ k : Nat, tr.length ≤ k → Store.find t.trc k = Store.find s.trc k) ∧
      (∀ k : Nat, k < tr.length + 2 → ∃ u : Block w, runs k (.of s) = .next (.of u) ∧ u.phase ≠ .idle)

/-! ## The Multiplier -/

/-- 42_multiplier.md R121, at every width the spec admits: the four steps of an iteration on canonical operands, with no bit lost by
the shift, `a` canonical again after them, and the record they write. -/
def Obligations.MulStepKeepsACanonical : Prop :=
  mulStep { acc := 0, a := 6, b := 1 } (11 : Word 64) 3 =
    ({ acc := 6, a := 7, b := 0 },
     { header := 0x7A, word1 := 0, word2 := 6, word3 := 0, word4 := 12, word5 := 7, word6 := 6, word7 := 1 }) ∧
  ∀ (w : Nat) (acc a b m : BitVec w) (n : Nat), 8 ≤ w → deg m = (n : Int) → deg a < (n : Int) →
    ∃ (acc' as a' b' : BitVec w) (bit chg ovf : Bool),
      bit = b.getLsbD 0 ∧
      acc' = (if bit then acc ^^^ a else acc) ∧
      (chg = true ↔ acc' ≠ acc) ∧
      b'.toNat = b.toNat / 2 ∧
      as.toNat = 2 * a.toNat ∧
      ovf = as.getLsbD n ∧
      a' = (if ovf then as ^^^ m else as) ∧
      deg a' < (n : Int) ∧
      (bit = true → (chg = false ↔ a = 0)) ∧
      (mulStep { acc := acc, a := a, b := b } m n).1 = { acc := acc', a := a', b := b' } ∧
      (mulStep { acc := acc, a := a, b := b } m n).2 =
        { header := BitVec.ofNat w (0x0A + 0x10 * bit.toNat + 0x20 * chg.toNat + 0x40 * ovf.toNat)
          word1 := acc, word2 := acc', word3 := b', word4 := as, word5 := a', word6 := a, word7 := b }

/-- 42_multiplier.md R122: `multiply` is its loop from `result = 0`: on every state of the loop variables the fuel of the model is
enough, and every iteration adds its record. -/
def Obligations.MultiplyIsItsLoop : Prop :=
  ∀ (w : Nat) (m : BitVec w) (n : Nat),
    (∀ x : MulVars w, x.b = 0 → multiplyLoop m n w x = (x.acc, [])) ∧
    (∀ x : MulVars w, x.b ≠ 0 → multiplyLoop m n w x =
      ((multiplyLoop m n w (mulStep x m n).1).1, (mulStep x m n).2 :: (multiplyLoop m n w (mulStep x m n).1).2)) ∧
    (∀ a b : BitVec w, deg m = (n : Int) → deg a < (n : Int) → deg b < (n : Int) →
      multiply a b m n = some (multiplyLoop m n w { acc := 0, a := a, b := b }))

/-- 42_multiplier.md R123: exactly `bit_length(b)` iterations, at most `n`, none exactly when `b = 0`; iteration `i` tests bit `i` of
`b`, and its `a_before` is `x^i * a` reduced modulo `m`. -/
def Obligations.MultiplyRunsOncePerBit : Prop :=
  ∀ (w : Nat) (a b m p : BitVec w) (n : Nat) (tr : List (Record w)), 8 ≤ w → multiply a b m n = some (p, tr) →
    tr.length = bitLength b ∧ tr.length ≤ n ∧ (tr.length = 0 ↔ b = 0) ∧
    ∀ (i : Nat) (x : Record w), tr[i]? = some x →
      headerBit x.header = b.getLsbD i ∧
      (reduce (shl (a.setWidth (2 * w)) i) (m.setWidth (2 * w)) n 0).map Prod.fst = some (x.word6.setWidth (2 * w))

/-- 42_multiplier.md R127, R129: the product is canonical; multiplying by 0 and by 1. -/
def Obligations.MultiplyIsCanonicalAndUnital : Prop :=
  ∀ (w : Nat) (a m : BitVec w) (n : Nat), deg m = (n : Int) → deg a < (n : Int) →
    (∀ (b p : BitVec w) (tr : List (Record w)), multiply a b m n = some (p, tr) → deg p < (n : Int)) ∧
    multiply a 0 m n = some (0, []) ∧
    (∃ tr : List (Record w), multiply 0 a m n = some (0, tr)) ∧
    (1 ≤ n → ∃ tr : List (Record w), multiply a 1 m n = some (a, tr)) ∧
    (1 ≤ n → ∃ tr : List (Record w), multiply 1 a m n = some (a, tr))

/-- 42_multiplier.md R128: the product does not depend on the order of the operands, for every modulus of degree exactly `n`; the
number of records is `bit_length` of the second operand. -/
def Obligations.MultiplyIsCommutative : Prop :=
  ∀ (w : Nat) (a b m p : BitVec w) (n : Nat) (tr : List (Record w)), multiply a b m n = some (p, tr) →
    tr.length = bitLength b ∧
    ∃ tr' : List (Record w), multiply b a m n = some (p, tr') ∧ tr'.length = bitLength a

/-- 42_multiplier.md R130: the product is the carry-less product reduced modulo `m`, the carry-less product held whole in `2w` bits
(log 17); bit `k` of a carry-less product is the sum over GF(2) of the products of the bits whose positions add to `k`. -/
def Obligations.MultiplyIsTheModularProduct : Prop :=
  (∀ (w : Nat) (a b m p : BitVec w) (n : Nat) (tr : List (Record w)), multiply a b m n = some (p, tr) →
    (reduce (clmul a b) (m.setWidth (2 * w)) n 0).map Prod.fst = some (p.setWidth (2 * w))) ∧
  (∀ (w : Nat) (a b : BitVec w) (k : Nat), (clmul a b).getLsbD k =
    ((List.range (k + 1)).map (fun i => a.getLsbD i && b.getLsbD (k - i))).foldl Bool.xor false)

/-- 42_multiplier.md R124, step I: one Multiplier iteration, in MULTIPLY and in EVALUATE alike, appends its record at `TRCCNT` and
changes `ACC`, `WA`, `WB`, `TRC`, `TRCCNT` and nothing else. -/
def Obligations.MultiplierIterationAppendsItsRecord : Prop :=
  ∀ (w : Nat) (s : Block w) (i : Instr), Config.legal w s.depth → (i = .multiply ∨ i = .evaluate) → s.phase = .mult →
    s.wb ≠ 0 →
    s.trccnt.toNat < Config.traceDepth w →
    ∃ (t : Block w) (x : MulVars w) (r : Record w), exec i (.of s) = .next (.of t) ∧
      mulStep { acc := s.acc, a := s.wa, b := s.wb } s.m s.n.toNat = (x, r) ∧
      t = { s with acc := x.acc, wa := x.a, wb := x.b, trc := t.trc, trccnt := s.trccnt + 1 } ∧
      t.trccnt.toNat = s.trccnt.toNat + 1 ∧
      Store.find t.trc s.trccnt.toNat = some r ∧
      (∀ k : Nat, k ≠ s.trccnt.toNat → Store.find t.trc k = Store.find s.trc k)

/-- 42_multiplier.md R124, step X: at the exit of the Multiplier loop MULTIPLY and EVALUATE write `RES` and complete; nothing else
changes. -/
def Obligations.MultiplyAndEvaluateComplete : Prop :=
  ∀ (w : Nat) (s : Block w) (i : Instr), Config.legal w s.depth → (i = .multiply ∨ i = .evaluate) → s.phase = .mult →
    s.wb = 0 →
    exec i (.of s) = .next
      (.of { s with res := s.acc, status := { s.status with busy := false, done := true }, phase := .idle })

/-- 42_multiplier.md R125: the loop's invariants, before every iteration of MULTIPLY and at its exit. With nothing of the
host pending every step of the run is the engine's (the model's choice, log 3). -/
def Obligations.MultiplierLoopInvariants : Prop :=
  ∀ (w : Nat) (s : Block w) (p : Word w) (tr : List (Record w)), Config.legal w s.depth → s.agenda = [] →
    s.phase = .start → s.cur = 4 →
    multiply s.a s.b s.m s.n.toNat = some (p, tr) →
    ∀ k : Nat, k ≤ tr.length → ∃ u : Block w, runs (1 + k) (.of s) = .next (.of u) ∧ u.phase = .mult ∧
      deg u.wa < (u.n.toNat : Int) ∧ deg u.acc < (u.n.toNat : Int) ∧
      u.wb = s.b >>> k ∧ u.acc = accumulated (tr.take k)

/-- 42_multiplier.md section 2: from an accepted MULTIPLY with legal operands the engine alone reaches completion in 2 steps and one
per record (70_reset_and_hazards.md Table T-1), busy until then, with exactly the product and records of
`multiply(A, B, M, N)`; every register but the working ones and every other record is unchanged (of the records from
`TRCCNT` up the spec promises nothing: log 8). -/
def Obligations.MultiplyRunsToItsFunction : Prop :=
  ∀ (w : Nat) (s : Block w) (p : Word w) (tr : List (Record w)), Config.legal w s.depth → s.agenda = [] →
    s.phase = .start → s.cur = 4 →
    multiply s.a s.b s.m s.n.toNat = some (p, tr) →
    ∃ t : Block w, runs (tr.length + 2) (.of s) = .next (.of t) ∧
      t = { s with
        res := p
        trccnt := BitVec.ofNat w tr.length
        trc := t.trc
        wa := t.wa
        wb := 0
        acc := p
        seg := 2
        status := { s.status with busy := false, done := true }
        phase := .idle } ∧
      t.trccnt.toNat = tr.length ∧
      (∀ k : Nat, k < tr.length → Store.find t.trc k = tr[k]?) ∧
      (∀ k : Nat, tr.length ≤ k → Store.find t.trc k = Store.find s.trc k) ∧
      (∀ k : Nat, k < tr.length + 2 → ∃ u : Block w, runs k (.of s) = .next (.of u) ∧ u.phase ≠ .idle)

/-! ## EVALUATE -/

/-- 43_evaluate.md R138, steps XA and XB: between the segments EVALUATE moves the reduced operand to its result register and loads the
next loop; nothing else changes. -/
def Obligations.EvaluatePassesBetweenSegments : Prop :=
  ∀ (w : Nat) (s : Block w), Config.legal w s.depth → deg s.wv < (s.n.toNat : Int) →
    (s.phase = .reda →
      exec .evaluate (.of s) = .next (.of { s with resa := s.wv, wv := s.b, seg := 1, phase := .redb })) ∧
    (s.phase = .redb →
      exec .evaluate (.of s) =
        .next (.of { s with resb := s.wv, wa := s.resa, wb := s.wv, acc := 0, seg := 2, phase := .mult }))

/-- 43_evaluate.md R135, R137: `evaluate` is `decode`, `reduce`, `reduce`, `multiply`, with its tests in their order, and its trace is
the three segments in order, at most `2w - n` records, told apart by their headers. -/
def Obligations.EvaluateIsItsComposition : Prop :=
  ∀ (w depth : Nat) (a b : BitVec w) (t : List Byte) (n : Nat),
    (w ≤ n → evaluate depth a b t n = .error (.degreeRange, 0)) ∧
    (n < w → depth < t.length → evaluate depth a b t n = .error (.textLength, 0)) ∧
    (n < w → t.length ≤ depth → ∀ (f : CommandFault) (j : Nat), decodeText w t = .err f j →
      evaluate depth a b t n = .error (f, j)) ∧
    (n < w → t.length ≤ depth → ∀ m : BitVec w, decodeText w t = .ok m → deg m ≠ (n : Int) →
      evaluate depth a b t n = .error (.modulusDegree, 0)) ∧
    (n < w → t.length ≤ depth → ∀ m : BitVec w, decodeText w t = .ok m → deg m = (n : Int) →
      ∃ (ra rb p : BitVec w) (ta tb tm : List (Record w)),
        reduce a m n 0 = some (ra, ta) ∧ reduce b m n 1 = some (rb, tb) ∧ multiply ra rb m n = some (p, tm) ∧
        evaluate depth a b t n =
          .ok { product := p, aReduced := ra, bReduced := rb, modulus := m, trace := ta ++ tb ++ tm } ∧
        (ta ++ tb ++ tm).length ≤ 2 * w - n ∧
        (8 ≤ w → (∀ x ∈ ta, x.header = 0x01) ∧ (∀ x ∈ tb, x.header = 0x05) ∧
          ∀ x ∈ tm, headerKind x.header = 2 ∧ headerSeg x.header = 2))

/-- 43_evaluate.md section 2: from an accepted EVALUATE the engine alone either takes the fault that `evaluate` returns in one step, or
reaches completion in 4 steps and one per record (70_reset_and_hazards.md Table T-1), busy until then, with exactly the
modulus, reduced operands, product and trace of `evaluate(A, B, t, N)`; everything but the working registers named and the
records of the trace is unchanged (of the records from `TRCCNT` up the spec promises nothing: log 8). -/
def Obligations.EvaluateRunsToItsFunction : Prop :=
  ∀ (w : Nat) (s : Block w), Config.legal w s.depth → s.agenda = [] → s.phase = .start → s.cur = 5 →
    (∀ (f : CommandFault) (j : Nat),
      evaluate s.depth s.a s.b (textOperand s) s.n.toNat = .error (f, j) →
      runs 1 (.of s) = .next
        (.of { s with trccnt := 0, status := statusFaulted f, errinfo := BitVec.ofNat w j, phase := .idle })) ∧
    (∀ e : Evaluation w, evaluate s.depth s.a s.b (textOperand s) s.n.toNat = .ok e →
      ∃ t : Block w, runs (e.trace.length + 4) (.of s) = .next (.of t) ∧
        t = { s with
          m := e.modulus
          resa := e.aReduced
          resb := e.bReduced
          res := e.product
          trccnt := BitVec.ofNat w e.trace.length
          trc := t.trc
          wv := e.bReduced
          wa := t.wa
          wb := 0
          acc := e.product
          seg := 2
          status := { s.status with busy := false, done := true }
          phase := .idle } ∧
        t.trccnt.toNat = e.trace.length ∧
        (∀ k : Nat, k < e.trace.length → Store.find t.trc k = e.trace[k]?) ∧
        (∀ k : Nat, e.trace.length ≤ k → Store.find t.trc k = Store.find s.trc k) ∧
        (∀ k : Nat, k < e.trace.length + 4 → ∃ u : Block w, runs k (.of s) = .next (.of u) ∧ u.phase ≠ .idle))

/-- 43_evaluate.md R141: when EVALUATE completes without fault, `RES` is the product of `A` and `B` modulo the polynomial the text
denotes, and `RES`, `RESA`, `RESB` are canonical. With nothing of the host pending every step of the run is the engine's (the
model's choice, log 3). -/
def Obligations.EvaluateIsTheModularProduct : Prop :=
  ∀ (w : Nat) (s t : Block w) (k : Nat), Config.legal w s.depth → s.agenda = [] → s.phase = .start → s.cur = 5 →
    s.status = statusAccepted →
    runs k (.of s) = .next (.of t) → t.phase = .idle → t.status.err = false →
    decodeText w (textOperand s) = .ok t.m ∧
    (reduce (clmul s.a s.b) (t.m.setWidth (2 * w)) s.n.toNat 0).map Prod.fst =
      some (t.res.setWidth (2 * w)) ∧
    deg t.res < (s.n.toNat : Int) ∧ deg t.resa < (s.n.toNat : Int) ∧ deg t.resb < (s.n.toNat : Int)

/-- 43_evaluate.md R140: EVALUATE gives the same registers, or the same fault, as the host script of DECODE, REDUCE, REDUCE and
MULTIPLY with the copies between them, stopped at its first faulting command; the traces differ only in being separate and
in the segment number of the second. With nothing of the host pending every step of a run is the engine's (the model's
choice, log 3). -/
def Obligations.EvaluateEqualsItsCommands : Prop :=
  ∀ (w : Nat) (s t : Block w), Config.legal w s.depth → s.phase = .idle → s.n.toNat < w → finishes 5 s t →
    ∃ t1 : Block w, finishes 2 s t1 ∧
      (t1.status.err = true → t.status = t1.status ∧ t.errinfo = t1.errinfo) ∧
      (t1.status.err = false →
        ∃ t2 : Block w, finishes 3 { t1 with m := t1.res } t2 ∧
          (t2.status.err = true → t.status = t2.status ∧ t.errinfo = t2.errinfo) ∧
          (t2.status.err = false →
            ∃ t3 t4 : Block w, finishes 3 { t2 with a := s.b } t3 ∧ t3.status.err = false ∧
              finishes 4 { t3 with a := t2.res, b := t3.res } t4 ∧ t4.status.err = false ∧
              t.status = t4.status ∧ t.m = t1.res ∧ t.resa = t2.res ∧ t.resb = t3.res ∧ t.res = t4.res ∧
              t.trccnt.toNat = t2.trccnt.toNat + t3.trccnt.toNat + t4.trccnt.toNat ∧
              (∀ k : Nat, k < t2.trccnt.toNat → Store.find t.trc k = Store.find t2.trc k) ∧
              (∀ k : Nat, k < t3.trccnt.toNat → Store.find t.trc (t2.trccnt.toNat + k) =
                (Store.find t3.trc k).map (fun r => { r with header := 0x05 })) ∧
              (∀ k : Nat, k < t4.trccnt.toNat →
                Store.find t.trc (t2.trccnt.toNat + t3.trccnt.toNat + k) = Store.find t4.trc k)))

/-! ## Independence -/

/-- 00_scope.md R19: what a command leaves when it ends depends on nothing but the registers and cells its rule names (10_state.md
Table S-3): not on the working registers, the result registers, the trace or the other cells an earlier command left. With
nothing of the host pending every step of a run is the engine's (the model's choice, log 3). -/
def Obligations.ResultsDependOnNamedInputsOnly : Prop :=
  ∀ (w : Nat) (s s' t : Block w) (k : Nat), Config.legal w s.depth → s.agenda = [] → s'.agenda = [] →
    s.phase = .start → s'.phase = .start →
    s.status = statusAccepted → s'.status = statusAccepted → s.errinfo = 0 → s'.errinfo = 0 →
    s'.depth = s.depth → s'.cur = s.cur →
    (s.cur ≠ 2 → s'.a = s.a) → (s.cur = 4 ∨ s.cur = 5 → s'.b = s.b) →
    (s.cur = 3 ∨ s.cur = 4 → s'.m = s.m) → (s.cur = 3 ∨ s.cur = 4 ∨ s.cur = 5 → s'.n = s.n) →
    (s.cur = 2 ∨ s.cur = 5 → s'.txtlen = s.txtlen ∧
      (s.txtlen.toNat ≤ s.depth → textOperand s' = textOperand s)) →
    runs k (.of s) = .next (.of t) → t.phase = .idle →
    ∃ t' : Block w, runs k (.of s') = .next (.of t') ∧ t'.phase = .idle ∧ t'.status = t.status ∧
      t'.errinfo = t.errinfo ∧
      (t.status.err = false →
        (s.cur = 1 → t'.txtlen = t.txtlen ∧
          ∀ i : Nat, i < t.txtlen.toNat → Memory.read t'.txt i = Memory.read t.txt i) ∧
        (s.cur ≠ 1 → t'.res = t.res) ∧
        (s.cur = 5 → t'.m = t.m ∧ t'.resa = t.resa ∧ t'.resb = t.resb) ∧
        (s.cur = 3 ∨ s.cur = 4 ∨ s.cur = 5 → t'.trccnt = t.trccnt ∧
          ∀ r : Nat, r < t.trccnt.toNat → Store.find t'.trc r = Store.find t.trc r))

/-! ## The bus -/

/-- 20_memory.md R52: what the host reads while no command runs. Where the spec leaves the value unspecified (an unwritten cell, an
invalid record) the statement says nothing of it. No read changes the block. -/
def Obligations.IdleReadsReturnTheRegister : Prop :=
  ∀ (w : Nat) (s : Block w) (addr : Addr) (rest : List (Event w)), Config.legal w s.depth → s.status.busy = false →
    s.agenda = .read addr :: rest →
    ∃ (v : Word w) (t : Block w), step (.of s) = .next (.of t) ∧ t.replies = v :: s.replies ∧ t.agenda = rest ∧
      blockOf t = blockOf s ∧
      match placeAt w s.depth addr with
      | .cmd => v = 0
      | .status => v = statusWord s.status
      | .errinfo => v = s.errinfo
      | .a => v = s.a
      | .b => v = s.b
      | .m => v = s.m
      | .n => v = s.n
      | .res => v = s.res
      | .resa => v = s.resa
      | .resb => v = s.resb
      | .txtlen => v = s.txtlen
      | .trccnt => v = s.trccnt
      | .txt i => ∀ c : Byte, Memory.read s.txt i = some c → v.toNat = c.toNat
      | .trc k f => k < s.trccnt.toNat → ∀ r, Store.find s.trc k = some r →
        [r.header, r.word1, r.word2, r.word3, r.word4, r.word5, r.word6, r.word7][f]? = some v
      | .reserved _ => v = 0

/-- 20_memory.md R53: what the host reads while a command runs; of the engine-written state the statement says nothing. No read
changes the block. -/
def Obligations.BusyReadsAreDefinedForOperands : Prop :=
  ∀ (w : Nat) (s : Block w) (addr : Addr) (rest : List (Event w)), Config.legal w s.depth → StatusConsistent s →
    s.status.busy = true →
    s.agenda = .read addr :: rest →
    ∃ (v : Word w) (t : Block w), step (.of s) = .next (.of t) ∧ t.replies = v :: s.replies ∧ t.agenda = rest ∧
      blockOf t = blockOf s ∧
      match placeAt w s.depth addr with
      | .cmd => v = 0
      | .status => v = 1
      | .errinfo => v = 0
      | .a => v = s.a
      | .b => v = s.b
      | .n => v = s.n
      | .reserved _ => v = 0
      | .m => True
      | .res => True
      | .resa => True
      | .resb => True
      | .txtlen => True
      | .trccnt => True
      | .txt _ => True
      | .trc _ _ => True

/-- 20_memory.md R54: what a host write to storage does while no command runs; nothing else changes. -/
def Obligations.IdleWritesStore : Prop :=
  ∀ (w : Nat) (s : Block w) (v : Word w) (rest : List (Event w)), Config.legal w s.depth → s.status.busy = false →
    (∀ p : Place, s.agenda = .write (addrOf p) v :: rest →
      (p = .a → step (.of s) = .next (.of { s with agenda := rest, a := v })) ∧
      (p = .b → step (.of s) = .next (.of { s with agenda := rest, b := v })) ∧
      (p = .m → step (.of s) = .next (.of { s with agenda := rest, m := v })) ∧
      (p = .n → step (.of s) = .next (.of { s with agenda := rest, n := v })) ∧
      (p = .txtlen → step (.of s) = .next (.of { s with agenda := rest, txtlen := v }))) ∧
    (∀ i : Nat, i < s.depth → s.agenda = .write (addrOf (.txt i)) v :: rest →
      ∃ t : Block w, step (.of s) = .next (.of t) ∧ t = { s with agenda := rest, txt := t.txt } ∧
        Memory.read t.txt i = some (v.setWidth 8) ∧
        ∀ j : Nat, j ≠ i → Memory.read t.txt j = Memory.read s.txt j)

/-- 20_memory.md R55, R57: a host write to a read-only or reserved address is ignored at all times, and every write is dropped while a
command runs. -/
def Obligations.OtherWritesAreIgnored : Prop :=
  ∀ (w : Nat) (s : Block w) (addr : Addr) (v : Word w) (rest : List (Event w)), Config.legal w s.depth →
    s.agenda = .write addr v :: rest →
    (s.status.busy = true → step (.of s) = .next (.of { s with agenda := rest })) ∧
    ((placeAt w s.depth addr = .status ∨ placeAt w s.depth addr = .errinfo ∨ placeAt w s.depth addr = .res ∨
      placeAt w s.depth addr = .resa ∨ placeAt w s.depth addr = .resb ∨ placeAt w s.depth addr = .trccnt ∨
      (∃ k f, placeAt w s.depth addr = .trc k f) ∨ placeAt w s.depth addr = .reserved addr) →
      step (.of s) = .next (.of { s with agenda := rest }))

/-- 20_memory.md R56: a write of any word to `CMD` while no command runs latches it and starts the engine; nothing else changes. -/
def Obligations.CommandWriteIsAccepted : Prop :=
  ∀ (w : Nat) (s : Block w) (v : Word w) (rest : List (Event w)), Config.legal w s.depth → s.status.busy = false →
    s.agenda = .write 0x0000 v :: rest →
    step (.of s) = .next
      (.of { s with
        agenda := rest
        cur := v
        phase := .start
        status := { busy := true, done := false, err := false, errcode := 0 }
        errinfo := 0 })

/-- 20_memory.md R62, R63, 70_reset_and_hazards.md R187: however host reads and writes fall between the engine's steps while a command
runs, the block goes through the same states as when the engine moves alone. -/
def Obligations.InterleavingDoesNotMatter : Prop :=
  ∀ (w : Nat) (s : Block w) (es : List (Event w)), Inv s → (∀ e ∈ es, plainEvent e = true) →
    s.agenda = es ++ [.engine] →
    (∀ k : Nat, k ≤ engineTurns es → ∃ u : Block w, runs k (.of (engineAlone s)) = .next (.of u) ∧ u.phase ≠ .idle) →
    ∃ t u : Block w, runs (es.length + 1) (.of s) = .next (.of t) ∧
      runs (engineTurns es + 1) (.of (engineAlone s)) = .next (.of u) ∧
      t.agenda = [] ∧ blockOf t = blockOf u

/-! ## Reset and invariants -/

/-- 10_state.md section 7, 70_reset_and_hazards.md section 1: what the reset event leaves, at any moment, a command running or not: the
twelve registers read 0, `PHASE` is IDLE, and no cell and no record holds anything written. What the model keeps of the host
is not the block's (log 20). -/
def Obligations.ResetClearsTheBlock : Prop :=
  ∀ (w : Nat) (s : Block w) (rest : List (Event w)), Config.legal w s.depth → s.agenda = .reset :: rest →
    ∃ t : Block w, step (.of s) = .next (.of t) ∧ t.agenda = rest ∧
      t.status = { busy := false, done := false, err := false, errcode := 0 } ∧
      t.errinfo = 0 ∧ t.a = 0 ∧ t.b = 0 ∧ t.m = 0 ∧ t.n = 0 ∧ t.res = 0 ∧ t.resa = 0 ∧ t.resb = 0 ∧ t.txtlen = 0 ∧
      t.trccnt = 0 ∧ t.phase = .idle ∧ (∀ i, Memory.read t.txt i = none) ∧ (∀ k, Store.find t.trc k = none) ∧
      blockOf t = { blockOf (Block.reset w s.depth) with epoch := s.epoch + 1 }

/-- The state after reset satisfies the invariant, with every `W` and `TEXT_DEPTH` the spec admits. -/
def Obligations.ResetSatisfiesTheInvariant : Prop :=
  (∀ w depth : Nat, Config.legal w depth → Inv (Block.reset w depth) ∧
    State.resetWith w depth = .of (Block.reset w depth)) ∧
  State.reset = State.resetWith 64 512

/-- 10_state.md R33: `STATUS`, `ERRINFO` and `PHASE` agree at every moment: they do after reset, and every step keeps it. -/
def Obligations.StatusAgreesWithPhaseAlways : Prop :=
  (∀ w depth : Nat, StatusConsistent (Block.reset w depth)) ∧
  ∀ s t : State, StatusConsistent s.block → step s = .next t → StatusConsistent t.block

/-- Every step keeps the invariant of the whole machine: the parameters stay as they are (00_scope.md R6, R7), `STATUS` agrees
with `PHASE` (10_state.md R33), the buffers keep their canonical form, every valid record has been written and has a legal
header (30_encoding.md R80), the loops' operands fit (42_multiplier.md R125), and the trace has room for what is left
(00_scope.md R8). No step changes the parameters, whatever the state. -/
def Obligations.StepKeepsTheInvariant : Prop :=
  (∀ s t : State, Inv s.block → step s = .next t → Inv t.block) ∧
  ∀ s t : State, step s = .next t → t.w = s.w ∧ t.block.depth = s.block.depth

/-- 60_exceptions.md section 2, 00_scope.md section 4: in a state of the invariant the machine never stops: some step is always enabled and the
trace never overflows. -/
def Obligations.InvariantStatesNeverStop : Prop :=
  ∀ (w : Nat) (s : Block w), Inv s → ∃ t : Block w, step (.of s) = .next (.of t)

/-- 70_reset_and_hazards.md section 4: every command completes, in at most `2W + 4` engine steps from wherever it stands. -/
def Obligations.EveryCommandCompletes : Prop :=
  ∀ (w : Nat) (s : Block w), Inv s → s.agenda = [] →
    ∃ (k : Nat) (t : Block w), k ≤ 2 * w + 4 ∧ runs k (.of s) = .next (.of t) ∧ t.phase = .idle

/-- 70_reset_and_hazards.md R185, the host's `WAIT`: it always ends, with a read of `STATUS` that shows `BUSY = 0`. That one engine step
falls between two polls is the model's choice (log 14). -/
def Obligations.WaitAlwaysEnds : Prop :=
  ∀ (w : Nat) (s : Block w), Inv s → s.agenda = [.poll] →
    ∃ (k : Nat) (t : Block w), k ≤ 4 * w + 9 ∧ runs k (.of s) = .next (.of t) ∧ t.agenda = [] ∧ t.phase = .idle ∧
      ∃ rest : List (Word w), t.replies = statusWord t.status :: rest
end

