-- ==== Sys2Proof/Laws/Bits.lean ====
section
/-! SUPPORT. `bit_length`, `deg`, `canonical` and the tests on them as bounds on the value (00_scope.md R11, R12). -/

namespace Sys2Proof.Machine

variable {w : Nat}

/-- `bit_length(v) <= k` says that `v` fits in `k` bits. -/
theorem bitLength_le_iff (v : BitVec w) (k : Nat) : bitLength v ≤ k ↔ v.toNat < 2 ^ k := by
  unfold bitLength
  split
  · next h => simp [h]
  · next h => rw [← Nat.log2_lt h]; omega

/-- `k < bit_length(v)` says that `v` does not fit in `k` bits. -/
theorem lt_bitLength_iff (v : BitVec w) (k : Nat) : k < bitLength v ↔ 2 ^ k ≤ v.toNat := by
  rw [← Nat.not_le, bitLength_le_iff, Nat.not_lt]

theorem bitLength_le_width (v : BitVec w) : bitLength v ≤ w :=
  (bitLength_le_iff v w).2 v.isLt

@[simp] theorem bitLength_zero : bitLength (0#w) = 0 := by
  unfold bitLength; simp

theorem bitLength_eq_zero_iff (v : BitVec w) : bitLength v = 0 ↔ v = 0 := by
  rw [← Nat.le_zero, bitLength_le_iff]
  simp [← BitVec.toNat_inj]

/-- `v` is canonical for `n` when its value is below `2^n`. -/
theorem canonical_iff (v : BitVec w) (n : Nat) : canonical v n = true ↔ v.toNat < 2 ^ n := by
  rw [← bitLength_le_iff, canonical, decide_eq_true_iff, deg]
  omega

theorem canonical_iff_bitLength (v : BitVec w) (n : Nat) : canonical v n = true ↔ bitLength v ≤ n := by
  rw [canonical_iff, bitLength_le_iff]

theorem deg_lt_iff (v : BitVec w) (n : Nat) : deg v < (n : Int) ↔ v.toNat < 2 ^ n := by
  rw [← canonical_iff, canonical, decide_eq_true_iff]

theorem le_deg_iff (v : BitVec w) (n : Nat) : (n : Int) ≤ deg v ↔ 2 ^ n ≤ v.toNat := by
  rw [← not_lt, deg_lt_iff, Nat.not_lt]

/-- `deg(v) = n` says that bit `n` is the highest set bit of `v`. -/
theorem deg_eq_iff (v : BitVec w) (n : Nat) : deg v = (n : Int) ↔ 2 ^ n ≤ v.toNat ∧ v.toNat < 2 ^ (n + 1) := by
  rw [← le_deg_iff, ← deg_lt_iff]
  push_cast
  omega

@[simp] theorem deg_zero : deg (0#w) = -1 := by
  simp [deg]

theorem deg_lt_width (v : BitVec w) : deg v < (w : Int) :=
  (deg_lt_iff v w).2 v.isLt

theorem canonical_zero (n : Nat) : canonical (0 : BitVec w) n = true := by
  simp [canonical_iff]

/-- Canonical values are closed under xor. -/
theorem canonical_xor {v u : BitVec w} {n : Nat} (hv : canonical v n = true) (hu : canonical u n = true) :
    canonical (v ^^^ u) n = true := by
  rw [canonical_iff] at *
  rw [BitVec.toNat_xor]
  exact Nat.xor_lt_two_pow hv hu

theorem degreeInRange_iff (n : BitVec w) : degreeInRange n = true ↔ n.toNat < w := by
  simp [degreeInRange]

theorem modulusOk_iff (m : BitVec w) (n : Nat) : modulusOk m n = true ↔ deg m = (n : Int) := by
  simp [modulusOk]

/-- The domain of `reduce`: the modulus has degree exactly `n`, which then is below the width. -/
theorem reduceDomain_iff (m : BitVec w) (n : Nat) : reduceDomain m n = true ↔ deg m = (n : Int) := by
  simp only [reduceDomain, Bool.and_eq_true, decide_eq_true_eq, modulusOk_iff, and_iff_right_iff_imp]
  intro h
  have := deg_lt_width m
  omega

/-- The domain of `multiply`. -/
theorem multiplyDomain_iff (a b m : BitVec w) (n : Nat) :
    multiplyDomain a b m n = true ↔ deg m = (n : Int) ∧ deg a < (n : Int) ∧ deg b < (n : Int) := by
  simp only [multiplyDomain, Bool.and_eq_true, reduceDomain_iff, canonical, decide_eq_true_eq, and_assoc]

end Sys2Proof.Machine
end

