-- ==== Sys2Proof/Laws/State.lean ====
section
/-! SUPPORT. One lemma per field per named update of a `Block`, true by `rfl`, so that no proof unfolds a record update. -/

namespace Sys2Proof.Machine

variable {w : Nat}

/-! ## `raise` -/

@[simp] theorem raise_depth (f : CommandFault) (info : Word w) (s : Block w) : (raise f info s).depth = s.depth := rfl
@[simp] theorem raise_status (f : CommandFault) (info : Word w) (s : Block w) : (raise f info s).status = statusFaulted f := rfl
@[simp] theorem raise_errinfo (f : CommandFault) (info : Word w) (s : Block w) : (raise f info s).errinfo = info := rfl
@[simp] theorem raise_a (f : CommandFault) (info : Word w) (s : Block w) : (raise f info s).a = s.a := rfl
@[simp] theorem raise_b (f : CommandFault) (info : Word w) (s : Block w) : (raise f info s).b = s.b := rfl
@[simp] theorem raise_m (f : CommandFault) (info : Word w) (s : Block w) : (raise f info s).m = s.m := rfl
@[simp] theorem raise_n (f : CommandFault) (info : Word w) (s : Block w) : (raise f info s).n = s.n := rfl
@[simp] theorem raise_res (f : CommandFault) (info : Word w) (s : Block w) : (raise f info s).res = s.res := rfl
@[simp] theorem raise_resa (f : CommandFault) (info : Word w) (s : Block w) : (raise f info s).resa = s.resa := rfl
@[simp] theorem raise_resb (f : CommandFault) (info : Word w) (s : Block w) : (raise f info s).resb = s.resb := rfl
@[simp] theorem raise_txtlen (f : CommandFault) (info : Word w) (s : Block w) : (raise f info s).txtlen = s.txtlen := rfl
@[simp] theorem raise_trccnt (f : CommandFault) (info : Word w) (s : Block w) : (raise f info s).trccnt = s.trccnt := rfl
@[simp] theorem raise_txt (f : CommandFault) (info : Word w) (s : Block w) : (raise f info s).txt = s.txt := rfl
@[simp] theorem raise_trc (f : CommandFault) (info : Word w) (s : Block w) : (raise f info s).trc = s.trc := rfl
@[simp] theorem raise_cur (f : CommandFault) (info : Word w) (s : Block w) : (raise f info s).cur = s.cur := rfl
@[simp] theorem raise_phase (f : CommandFault) (info : Word w) (s : Block w) : (raise f info s).phase = .idle := rfl
@[simp] theorem raise_wv (f : CommandFault) (info : Word w) (s : Block w) : (raise f info s).wv = s.wv := rfl
@[simp] theorem raise_wa (f : CommandFault) (info : Word w) (s : Block w) : (raise f info s).wa = s.wa := rfl
@[simp] theorem raise_wb (f : CommandFault) (info : Word w) (s : Block w) : (raise f info s).wb = s.wb := rfl
@[simp] theorem raise_acc (f : CommandFault) (info : Word w) (s : Block w) : (raise f info s).acc = s.acc := rfl
@[simp] theorem raise_seg (f : CommandFault) (info : Word w) (s : Block w) : (raise f info s).seg = s.seg := rfl
@[simp] theorem raise_agenda (f : CommandFault) (info : Word w) (s : Block w) : (raise f info s).agenda = s.agenda := rfl
@[simp] theorem raise_replies (f : CommandFault) (info : Word w) (s : Block w) : (raise f info s).replies = s.replies := rfl
@[simp] theorem raise_draws (f : CommandFault) (info : Word w) (s : Block w) : (raise f info s).draws = s.draws := rfl
@[simp] theorem raise_epoch (f : CommandFault) (info : Word w) (s : Block w) : (raise f info s).epoch = s.epoch := rfl

/-! ## `complete` -/

@[simp] theorem complete_depth (s : Block w) : (complete s).depth = s.depth := rfl
@[simp] theorem complete_status (s : Block w) : (complete s).status = statusCompleted s.status := rfl
@[simp] theorem complete_errinfo (s : Block w) : (complete s).errinfo = s.errinfo := rfl
@[simp] theorem complete_a (s : Block w) : (complete s).a = s.a := rfl
@[simp] theorem complete_b (s : Block w) : (complete s).b = s.b := rfl
@[simp] theorem complete_m (s : Block w) : (complete s).m = s.m := rfl
@[simp] theorem complete_n (s : Block w) : (complete s).n = s.n := rfl
@[simp] theorem complete_res (s : Block w) : (complete s).res = s.res := rfl
@[simp] theorem complete_resa (s : Block w) : (complete s).resa = s.resa := rfl
@[simp] theorem complete_resb (s : Block w) : (complete s).resb = s.resb := rfl
@[simp] theorem complete_txtlen (s : Block w) : (complete s).txtlen = s.txtlen := rfl
@[simp] theorem complete_trccnt (s : Block w) : (complete s).trccnt = s.trccnt := rfl
@[simp] theorem complete_txt (s : Block w) : (complete s).txt = s.txt := rfl
@[simp] theorem complete_trc (s : Block w) : (complete s).trc = s.trc := rfl
@[simp] theorem complete_cur (s : Block w) : (complete s).cur = s.cur := rfl
@[simp] theorem complete_phase (s : Block w) : (complete s).phase = .idle := rfl
@[simp] theorem complete_wv (s : Block w) : (complete s).wv = s.wv := rfl
@[simp] theorem complete_wa (s : Block w) : (complete s).wa = s.wa := rfl
@[simp] theorem complete_wb (s : Block w) : (complete s).wb = s.wb := rfl
@[simp] theorem complete_acc (s : Block w) : (complete s).acc = s.acc := rfl
@[simp] theorem complete_seg (s : Block w) : (complete s).seg = s.seg := rfl
@[simp] theorem complete_agenda (s : Block w) : (complete s).agenda = s.agenda := rfl
@[simp] theorem complete_replies (s : Block w) : (complete s).replies = s.replies := rfl
@[simp] theorem complete_draws (s : Block w) : (complete s).draws = s.draws := rfl
@[simp] theorem complete_epoch (s : Block w) : (complete s).epoch = s.epoch := rfl

/-! ## `acceptCommand` -/

@[simp] theorem acceptCommand_depth (v : Word w) (s : Block w) : (acceptCommand v s).depth = s.depth := rfl
@[simp] theorem acceptCommand_status (v : Word w) (s : Block w) : (acceptCommand v s).status = statusAccepted := rfl
@[simp] theorem acceptCommand_errinfo (v : Word w) (s : Block w) : (acceptCommand v s).errinfo = 0 := rfl
@[simp] theorem acceptCommand_a (v : Word w) (s : Block w) : (acceptCommand v s).a = s.a := rfl
@[simp] theorem acceptCommand_b (v : Word w) (s : Block w) : (acceptCommand v s).b = s.b := rfl
@[simp] theorem acceptCommand_m (v : Word w) (s : Block w) : (acceptCommand v s).m = s.m := rfl
@[simp] theorem acceptCommand_n (v : Word w) (s : Block w) : (acceptCommand v s).n = s.n := rfl
@[simp] theorem acceptCommand_res (v : Word w) (s : Block w) : (acceptCommand v s).res = s.res := rfl
@[simp] theorem acceptCommand_resa (v : Word w) (s : Block w) : (acceptCommand v s).resa = s.resa := rfl
@[simp] theorem acceptCommand_resb (v : Word w) (s : Block w) : (acceptCommand v s).resb = s.resb := rfl
@[simp] theorem acceptCommand_txtlen (v : Word w) (s : Block w) : (acceptCommand v s).txtlen = s.txtlen := rfl
@[simp] theorem acceptCommand_trccnt (v : Word w) (s : Block w) : (acceptCommand v s).trccnt = s.trccnt := rfl
@[simp] theorem acceptCommand_txt (v : Word w) (s : Block w) : (acceptCommand v s).txt = s.txt := rfl
@[simp] theorem acceptCommand_trc (v : Word w) (s : Block w) : (acceptCommand v s).trc = s.trc := rfl
@[simp] theorem acceptCommand_cur (v : Word w) (s : Block w) : (acceptCommand v s).cur = v := rfl
@[simp] theorem acceptCommand_phase (v : Word w) (s : Block w) : (acceptCommand v s).phase = .start := rfl
@[simp] theorem acceptCommand_wv (v : Word w) (s : Block w) : (acceptCommand v s).wv = s.wv := rfl
@[simp] theorem acceptCommand_wa (v : Word w) (s : Block w) : (acceptCommand v s).wa = s.wa := rfl
@[simp] theorem acceptCommand_wb (v : Word w) (s : Block w) : (acceptCommand v s).wb = s.wb := rfl
@[simp] theorem acceptCommand_acc (v : Word w) (s : Block w) : (acceptCommand v s).acc = s.acc := rfl
@[simp] theorem acceptCommand_seg (v : Word w) (s : Block w) : (acceptCommand v s).seg = s.seg := rfl
@[simp] theorem acceptCommand_agenda (v : Word w) (s : Block w) : (acceptCommand v s).agenda = s.agenda := rfl
@[simp] theorem acceptCommand_replies (v : Word w) (s : Block w) : (acceptCommand v s).replies = s.replies := rfl
@[simp] theorem acceptCommand_draws (v : Word w) (s : Block w) : (acceptCommand v s).draws = s.draws := rfl
@[simp] theorem acceptCommand_epoch (v : Word w) (s : Block w) : (acceptCommand v s).epoch = s.epoch := rfl

/-! ## `clearTrace` -/

@[simp] theorem clearTrace_depth (s : Block w) : (clearTrace s).depth = s.depth := rfl
@[simp] theorem clearTrace_status (s : Block w) : (clearTrace s).status = s.status := rfl
@[simp] theorem clearTrace_errinfo (s : Block w) : (clearTrace s).errinfo = s.errinfo := rfl
@[simp] theorem clearTrace_a (s : Block w) : (clearTrace s).a = s.a := rfl
@[simp] theorem clearTrace_b (s : Block w) : (clearTrace s).b = s.b := rfl
@[simp] theorem clearTrace_m (s : Block w) : (clearTrace s).m = s.m := rfl
@[simp] theorem clearTrace_n (s : Block w) : (clearTrace s).n = s.n := rfl
@[simp] theorem clearTrace_res (s : Block w) : (clearTrace s).res = s.res := rfl
@[simp] theorem clearTrace_resa (s : Block w) : (clearTrace s).resa = s.resa := rfl
@[simp] theorem clearTrace_resb (s : Block w) : (clearTrace s).resb = s.resb := rfl
@[simp] theorem clearTrace_txtlen (s : Block w) : (clearTrace s).txtlen = s.txtlen := rfl
@[simp] theorem clearTrace_trccnt (s : Block w) : (clearTrace s).trccnt = 0 := rfl
@[simp] theorem clearTrace_txt (s : Block w) : (clearTrace s).txt = s.txt := rfl
@[simp] theorem clearTrace_trc (s : Block w) : (clearTrace s).trc = s.trc := rfl
@[simp] theorem clearTrace_cur (s : Block w) : (clearTrace s).cur = s.cur := rfl
@[simp] theorem clearTrace_phase (s : Block w) : (clearTrace s).phase = s.phase := rfl
@[simp] theorem clearTrace_wv (s : Block w) : (clearTrace s).wv = s.wv := rfl
@[simp] theorem clearTrace_wa (s : Block w) : (clearTrace s).wa = s.wa := rfl
@[simp] theorem clearTrace_wb (s : Block w) : (clearTrace s).wb = s.wb := rfl
@[simp] theorem clearTrace_acc (s : Block w) : (clearTrace s).acc = s.acc := rfl
@[simp] theorem clearTrace_seg (s : Block w) : (clearTrace s).seg = s.seg := rfl
@[simp] theorem clearTrace_agenda (s : Block w) : (clearTrace s).agenda = s.agenda := rfl
@[simp] theorem clearTrace_replies (s : Block w) : (clearTrace s).replies = s.replies := rfl
@[simp] theorem clearTrace_draws (s : Block w) : (clearTrace s).draws = s.draws := rfl
@[simp] theorem clearTrace_epoch (s : Block w) : (clearTrace s).epoch = s.epoch := rfl

/-! ## `resetBlock` -/

@[simp] theorem resetBlock_depth (s : Block w) : (resetBlock s).depth = s.depth := rfl
@[simp] theorem resetBlock_status (s : Block w) : (resetBlock s).status = { busy := false, done := false, err := false, errcode := 0 } := rfl
@[simp] theorem resetBlock_errinfo (s : Block w) : (resetBlock s).errinfo = 0 := rfl
@[simp] theorem resetBlock_a (s : Block w) : (resetBlock s).a = 0 := rfl
@[simp] theorem resetBlock_b (s : Block w) : (resetBlock s).b = 0 := rfl
@[simp] theorem resetBlock_m (s : Block w) : (resetBlock s).m = 0 := rfl
@[simp] theorem resetBlock_n (s : Block w) : (resetBlock s).n = 0 := rfl
@[simp] theorem resetBlock_res (s : Block w) : (resetBlock s).res = 0 := rfl
@[simp] theorem resetBlock_resa (s : Block w) : (resetBlock s).resa = 0 := rfl
@[simp] theorem resetBlock_resb (s : Block w) : (resetBlock s).resb = 0 := rfl
@[simp] theorem resetBlock_txtlen (s : Block w) : (resetBlock s).txtlen = 0 := rfl
@[simp] theorem resetBlock_trccnt (s : Block w) : (resetBlock s).trccnt = 0 := rfl
@[simp] theorem resetBlock_txt (s : Block w) : (resetBlock s).txt = [] := rfl
@[simp] theorem resetBlock_trc (s : Block w) : (resetBlock s).trc = [] := rfl
@[simp] theorem resetBlock_cur (s : Block w) : (resetBlock s).cur = 0 := rfl
@[simp] theorem resetBlock_phase (s : Block w) : (resetBlock s).phase = .idle := rfl
@[simp] theorem resetBlock_wv (s : Block w) : (resetBlock s).wv = 0 := rfl
@[simp] theorem resetBlock_wa (s : Block w) : (resetBlock s).wa = 0 := rfl
@[simp] theorem resetBlock_wb (s : Block w) : (resetBlock s).wb = 0 := rfl
@[simp] theorem resetBlock_acc (s : Block w) : (resetBlock s).acc = 0 := rfl
@[simp] theorem resetBlock_seg (s : Block w) : (resetBlock s).seg = 0 := rfl
@[simp] theorem resetBlock_agenda (s : Block w) : (resetBlock s).agenda = s.agenda := rfl
@[simp] theorem resetBlock_replies (s : Block w) : (resetBlock s).replies = s.replies := rfl
@[simp] theorem resetBlock_draws (s : Block w) : (resetBlock s).draws = s.draws := rfl
@[simp] theorem resetBlock_epoch (s : Block w) : (resetBlock s).epoch = s.epoch + 1 := rfl

/-! ## `placeCommand` -/

@[simp] theorem placeCommand_depth (v : Word w) (s : Block w) : (placeCommand v s).depth = s.depth := rfl
@[simp] theorem placeCommand_status (v : Word w) (s : Block w) : (placeCommand v s).status = statusAccepted := rfl
@[simp] theorem placeCommand_errinfo (v : Word w) (s : Block w) : (placeCommand v s).errinfo = 0 := rfl
@[simp] theorem placeCommand_a (v : Word w) (s : Block w) : (placeCommand v s).a = s.a := rfl
@[simp] theorem placeCommand_b (v : Word w) (s : Block w) : (placeCommand v s).b = s.b := rfl
@[simp] theorem placeCommand_m (v : Word w) (s : Block w) : (placeCommand v s).m = s.m := rfl
@[simp] theorem placeCommand_n (v : Word w) (s : Block w) : (placeCommand v s).n = s.n := rfl
@[simp] theorem placeCommand_res (v : Word w) (s : Block w) : (placeCommand v s).res = s.res := rfl
@[simp] theorem placeCommand_resa (v : Word w) (s : Block w) : (placeCommand v s).resa = s.resa := rfl
@[simp] theorem placeCommand_resb (v : Word w) (s : Block w) : (placeCommand v s).resb = s.resb := rfl
@[simp] theorem placeCommand_txtlen (v : Word w) (s : Block w) : (placeCommand v s).txtlen = s.txtlen := rfl
@[simp] theorem placeCommand_trccnt (v : Word w) (s : Block w) : (placeCommand v s).trccnt = s.trccnt := rfl
@[simp] theorem placeCommand_txt (v : Word w) (s : Block w) : (placeCommand v s).txt = s.txt := rfl
@[simp] theorem placeCommand_trc (v : Word w) (s : Block w) : (placeCommand v s).trc = s.trc := rfl
@[simp] theorem placeCommand_cur (v : Word w) (s : Block w) : (placeCommand v s).cur = v := rfl
@[simp] theorem placeCommand_phase (v : Word w) (s : Block w) : (placeCommand v s).phase = .start := rfl
@[simp] theorem placeCommand_wv (v : Word w) (s : Block w) : (placeCommand v s).wv = s.wv := rfl
@[simp] theorem placeCommand_wa (v : Word w) (s : Block w) : (placeCommand v s).wa = s.wa := rfl
@[simp] theorem placeCommand_wb (v : Word w) (s : Block w) : (placeCommand v s).wb = s.wb := rfl
@[simp] theorem placeCommand_acc (v : Word w) (s : Block w) : (placeCommand v s).acc = s.acc := rfl
@[simp] theorem placeCommand_seg (v : Word w) (s : Block w) : (placeCommand v s).seg = s.seg := rfl
@[simp] theorem placeCommand_agenda (v : Word w) (s : Block w) : (placeCommand v s).agenda = [] := rfl
@[simp] theorem placeCommand_replies (v : Word w) (s : Block w) : (placeCommand v s).replies = s.replies := rfl
@[simp] theorem placeCommand_draws (v : Word w) (s : Block w) : (placeCommand v s).draws = s.draws := rfl
@[simp] theorem placeCommand_epoch (v : Word w) (s : Block w) : (placeCommand v s).epoch = s.epoch := rfl

/-! ## A block as a state of the machine -/

@[simp] theorem State.of_inj {s t : Block w} : State.of s = State.of t ↔ s = t := by
  simp

@[simp] theorem State.of_block (s : State) : State.of s.block = s := rfl

@[simp] theorem State.lift_next (s : Block w) : State.lift (.next s) = .next (.of s) := rfl

/-- A step of the machine that goes on is an engine step of the block that goes on, with the same width. -/
theorem State.lift_eq_next {o : StepOutcome w} {t : State} :
    State.lift o = .next t ↔ ∃ b : Block w, o = .next b ∧ t = .of b := by
  cases o <;> simp [State.lift, eq_comm]

/-- The same for a next state that is given as a block of the width. -/
@[simp] theorem State.lift_eq_next_of {o : StepOutcome w} {b : Block w} :
    State.lift o = .next (.of b) ↔ o = .next b := by
  cases o <;> simp [State.lift]

/-! ## The parts of `STATUS` -/

@[simp] theorem statusFaulted_busy (f : CommandFault) : (statusFaulted f).busy = false := rfl
@[simp] theorem statusFaulted_done (f : CommandFault) : (statusFaulted f).done = true := rfl
@[simp] theorem statusFaulted_err (f : CommandFault) : (statusFaulted f).err = true := rfl
@[simp] theorem statusFaulted_errcode (f : CommandFault) : (statusFaulted f).errcode = faultCode f := rfl
@[simp] theorem statusCompleted_busy (st : Status) : (statusCompleted st).busy = false := rfl
@[simp] theorem statusCompleted_done (st : Status) : (statusCompleted st).done = true := rfl
@[simp] theorem statusCompleted_err (st : Status) : (statusCompleted st).err = st.err := rfl
@[simp] theorem statusCompleted_errcode (st : Status) : (statusCompleted st).errcode = st.errcode := rfl
@[simp] theorem statusAccepted_busy : (statusAccepted).busy = true := rfl
@[simp] theorem statusAccepted_done : (statusAccepted).done = false := rfl
@[simp] theorem statusAccepted_err : (statusAccepted).err = false := rfl
@[simp] theorem statusAccepted_errcode : (statusAccepted).errcode = 0 := rfl

end Sys2Proof.Machine

namespace Sys2Proof.Safety

open Sys2Proof.Machine

variable {w : Nat}

/-! ## `blockOf` -/

@[simp] theorem blockOf_depth (s : Block w) : (blockOf s).depth = s.depth := rfl
@[simp] theorem blockOf_status (s : Block w) : (blockOf s).status = s.status := rfl
@[simp] theorem blockOf_errinfo (s : Block w) : (blockOf s).errinfo = s.errinfo := rfl
@[simp] theorem blockOf_a (s : Block w) : (blockOf s).a = s.a := rfl
@[simp] theorem blockOf_b (s : Block w) : (blockOf s).b = s.b := rfl
@[simp] theorem blockOf_m (s : Block w) : (blockOf s).m = s.m := rfl
@[simp] theorem blockOf_n (s : Block w) : (blockOf s).n = s.n := rfl
@[simp] theorem blockOf_res (s : Block w) : (blockOf s).res = s.res := rfl
@[simp] theorem blockOf_resa (s : Block w) : (blockOf s).resa = s.resa := rfl
@[simp] theorem blockOf_resb (s : Block w) : (blockOf s).resb = s.resb := rfl
@[simp] theorem blockOf_txtlen (s : Block w) : (blockOf s).txtlen = s.txtlen := rfl
@[simp] theorem blockOf_trccnt (s : Block w) : (blockOf s).trccnt = s.trccnt := rfl
@[simp] theorem blockOf_txt (s : Block w) : (blockOf s).txt = s.txt := rfl
@[simp] theorem blockOf_trc (s : Block w) : (blockOf s).trc = s.trc := rfl
@[simp] theorem blockOf_cur (s : Block w) : (blockOf s).cur = s.cur := rfl
@[simp] theorem blockOf_phase (s : Block w) : (blockOf s).phase = s.phase := rfl
@[simp] theorem blockOf_wv (s : Block w) : (blockOf s).wv = s.wv := rfl
@[simp] theorem blockOf_wa (s : Block w) : (blockOf s).wa = s.wa := rfl
@[simp] theorem blockOf_wb (s : Block w) : (blockOf s).wb = s.wb := rfl
@[simp] theorem blockOf_acc (s : Block w) : (blockOf s).acc = s.acc := rfl
@[simp] theorem blockOf_seg (s : Block w) : (blockOf s).seg = s.seg := rfl
@[simp] theorem blockOf_agenda (s : Block w) : (blockOf s).agenda = [] := rfl
@[simp] theorem blockOf_replies (s : Block w) : (blockOf s).replies = [] := rfl
@[simp] theorem blockOf_draws (s : Block w) : (blockOf s).draws = 0 := rfl
@[simp] theorem blockOf_epoch (s : Block w) : (blockOf s).epoch = s.epoch := rfl

/-! ## `engineAlone` -/

@[simp] theorem engineAlone_depth (s : Block w) : (engineAlone s).depth = s.depth := rfl
@[simp] theorem engineAlone_status (s : Block w) : (engineAlone s).status = s.status := rfl
@[simp] theorem engineAlone_errinfo (s : Block w) : (engineAlone s).errinfo = s.errinfo := rfl
@[simp] theorem engineAlone_a (s : Block w) : (engineAlone s).a = s.a := rfl
@[simp] theorem engineAlone_b (s : Block w) : (engineAlone s).b = s.b := rfl
@[simp] theorem engineAlone_m (s : Block w) : (engineAlone s).m = s.m := rfl
@[simp] theorem engineAlone_n (s : Block w) : (engineAlone s).n = s.n := rfl
@[simp] theorem engineAlone_res (s : Block w) : (engineAlone s).res = s.res := rfl
@[simp] theorem engineAlone_resa (s : Block w) : (engineAlone s).resa = s.resa := rfl
@[simp] theorem engineAlone_resb (s : Block w) : (engineAlone s).resb = s.resb := rfl
@[simp] theorem engineAlone_txtlen (s : Block w) : (engineAlone s).txtlen = s.txtlen := rfl
@[simp] theorem engineAlone_trccnt (s : Block w) : (engineAlone s).trccnt = s.trccnt := rfl
@[simp] theorem engineAlone_txt (s : Block w) : (engineAlone s).txt = s.txt := rfl
@[simp] theorem engineAlone_trc (s : Block w) : (engineAlone s).trc = s.trc := rfl
@[simp] theorem engineAlone_cur (s : Block w) : (engineAlone s).cur = s.cur := rfl
@[simp] theorem engineAlone_phase (s : Block w) : (engineAlone s).phase = s.phase := rfl
@[simp] theorem engineAlone_wv (s : Block w) : (engineAlone s).wv = s.wv := rfl
@[simp] theorem engineAlone_wa (s : Block w) : (engineAlone s).wa = s.wa := rfl
@[simp] theorem engineAlone_wb (s : Block w) : (engineAlone s).wb = s.wb := rfl
@[simp] theorem engineAlone_acc (s : Block w) : (engineAlone s).acc = s.acc := rfl
@[simp] theorem engineAlone_seg (s : Block w) : (engineAlone s).seg = s.seg := rfl
@[simp] theorem engineAlone_agenda (s : Block w) : (engineAlone s).agenda = [] := rfl
@[simp] theorem engineAlone_replies (s : Block w) : (engineAlone s).replies = s.replies := rfl
@[simp] theorem engineAlone_draws (s : Block w) : (engineAlone s).draws = s.draws := rfl
@[simp] theorem engineAlone_epoch (s : Block w) : (engineAlone s).epoch = s.epoch := rfl

end Sys2Proof.Safety
end

