-- ==== Sys2Proof/Laws/Store.lean ====
section
/-! SUPPORT. The canonical lists behind `TXT` and `TRC`: reading after writing, and the canonical form kept by every
operation. -/

namespace Sys2Proof.Machine

variable {α : Type} {w depth : Nat}

/-- Reading after a write: the written index gives the written value, every other index what it gave before. -/
theorem Store.find_insert (l : List (Nat × α)) (i j : Nat) (x : α) :
    Store.find (Store.insert l i x) j = if i = j then some x else Store.find l j := by
  induction l with
  | nil => simp [Store.insert, Store.find]
  | cons e rest ih =>
    obtain ⟨k, y⟩ := e
    unfold Store.insert
    split
    · simp [Store.find]
    · split
      · next h => subst h; simp only [Store.find]; split <;> simp_all
      · simp only [Store.find, ih]
        split <;> split <;> simp_all

@[simp] theorem Store.find_insert_self (l : List (Nat × α)) (i : Nat) (x : α) :
    Store.find (Store.insert l i x) i = some x := by
  simp [Store.find_insert]

theorem Store.find_insert_of_ne (l : List (Nat × α)) {i j : Nat} (h : i ≠ j) (x : α) :
    Store.find (Store.insert l i x) j = Store.find l j := by
  simp [Store.find_insert, h]

/-- The indexes after a write. -/
theorem Store.mem_keys_insert (l : List (Nat × α)) (i j : Nat) (x : α) :
    j ∈ (Store.insert l i x).map Prod.fst ↔ j = i ∨ j ∈ l.map Prod.fst := by
  induction l with
  | nil => simp [Store.insert]
  | cons e rest ih =>
    obtain ⟨k, y⟩ := e
    unfold Store.insert
    split
    · simp
    · split
      · next h => subst h; simp
      · rw [List.map_cons, List.mem_cons, ih, List.map_cons, List.mem_cons]; tauto

/-- The values after a write. -/
theorem Store.mem_values_insert (l : List (Nat × α)) (i : Nat) (x y : α)
    (h : y ∈ (Store.insert l i x).map Prod.snd) : y = x ∨ y ∈ l.map Prod.snd := by
  induction l with
  | nil => simpa [Store.insert] using h
  | cons e rest ih =>
    obtain ⟨k, z⟩ := e
    unfold Store.insert at h
    split at h
    · simpa using h
    · split at h
      · rw [List.map_cons, List.mem_cons] at h ⊢; tauto
      · rw [List.map_cons, List.mem_cons] at h ⊢
        rcases h with h | h
        · exact .inr (.inl h)
        · rcases ih h with h | h
          · exact .inl h
          · exact .inr (.inr h)

/-- An index is listed exactly when reading it gives a value. -/
theorem Store.mem_keys_iff (l : List (Nat × α)) (i : Nat) :
    i ∈ l.map Prod.fst ↔ ∃ x, Store.find l i = some x := by
  induction l with
  | nil => simp [Store.find]
  | cons e rest ih =>
    obtain ⟨k, y⟩ := e
    rw [List.map_cons, List.mem_cons, ih, Store.find]
    split
    · simp_all
    · next h => constructor
                · rintro (rfl | h')
                  · exact absurd rfl h
                  · exact h'
                · exact .inr

/-- What reading gives is one of the values. -/
theorem Store.find_mem (l : List (Nat × α)) {i : Nat} {x : α} (h : Store.find l i = some x) :
    x ∈ l.map Prod.snd := by
  induction l with
  | nil => simp [Store.find] at h
  | cons e rest ih =>
    obtain ⟨k, y⟩ := e
    rw [Store.find] at h
    split at h
    · simp_all
    · rw [List.map_cons, List.mem_cons]; exact .inr (ih h)

/-- A write inside the buffer keeps the canonical form. -/
theorem Store.wf_insert {size : Nat} {l : List (Nat × α)} (hl : Store.wf size l) {i : Nat} (hi : i < size) (x : α) :
    Store.wf size (Store.insert l i x) := by
  refine ⟨?_, fun k hk => ?_⟩
  · have h := hl.1
    clear hl hi
    induction l with
    | nil => simp [Store.insert]
    | cons e rest ih =>
      obtain ⟨k, y⟩ := e
      rw [List.map_cons, List.pairwise_cons] at h
      unfold Store.insert
      split
      · next hik =>
        simp only [List.map_cons, List.pairwise_cons, List.mem_cons]
        refine ⟨?_, h⟩
        rintro j (rfl | hj)
        · exact hik
        · exact Nat.lt_trans hik (h.1 j hj)
      · split
        · next hik => subst hik; simpa using h
        · rw [List.map_cons, List.pairwise_cons]
          refine ⟨fun j hj => ?_, ih h.2⟩
          rcases (Store.mem_keys_insert rest i j x).1 hj with rfl | hj
          · show k < j; omega
          · exact h.1 j hj
  · rcases (Store.mem_keys_insert l i k x).1 hk with rfl | hk
    · exact hi
    · exact hl.2 k hk

/-- The form is canonical: two lists of it that read the same at every index are equal. -/
theorem Store.ext {size : Nat} : {l l' : List (Nat × α)} → Store.wf size l → Store.wf size l' →
    (∀ i, Store.find l i = Store.find l' i) → l = l'
  | [], [], _, _, _ => rfl
  | [], (k, x) :: l', _, _, h => by simpa [Store.find] using h k
  | (k, x) :: l, [], _, _, h => by simpa [Store.find] using h k
  | (k, x) :: l, (k', x') :: l', hl, hl', h => by
    have p := List.pairwise_cons.1 hl.1
    have p' := List.pairwise_cons.1 hl'.1
    have notIn : ∀ {i : Nat} {r : List (Nat × α)}, i ∉ r.map Prod.fst → Store.find r i = none := by
      intro i r hi
      cases hf : Store.find r i with
      | none => rfl
      | some y => exact absurd ((Store.mem_keys_iff r i).2 ⟨y, hf⟩) hi
    have hk : k = k' := by
      rcases Nat.lt_trichotomy k k' with hlt | heq | hgt
      · have := h k
        rw [Store.find, if_pos rfl, Store.find, if_neg (by omega),
          notIn (fun hm => by have := p'.1 k hm; simp only at this; omega)] at this
        exact absurd this (by simp)
      · exact heq
      · have := h k'
        rw [Store.find, if_neg (by omega), Store.find, if_pos rfl,
          notIn (fun hm => by have := p.1 k' hm; simp only at this; omega)] at this
        exact absurd this (by simp)
    subst hk
    have hx : x = x' := by simpa [Store.find] using h k
    subst hx
    have tails : l = l' := by
      refine Store.ext (size := size) ⟨p.2, fun j hj => hl.2 j (by simp [hj])⟩
        ⟨p'.2, fun j hj => hl'.2 j (by simp [hj])⟩ (fun i => ?_)
      by_cases hik : k = i
      · subst hik
        rw [notIn (fun hm => absurd (p.1 k hm) (by simp)), notIn (fun hm => absurd (p'.1 k hm) (by simp))]
      · simpa [Store.find, hik] using h i
    rw [tails]

/-! ## `TXT` -/

theorem Memory.read_write (txt : List Host.Cell) (i j : Nat) (c : Byte) :
    Memory.read (Memory.write txt i c) j = if i = j then some c else Memory.read txt j :=
  Store.find_insert txt i j c

/-- A write to a cell of the buffer keeps the canonical form. -/
theorem Memory.wf_write {txt : List Host.Cell} (h : Memory.wf depth txt) {i : Nat} (hi : i < depth) (c : Byte) :
    Memory.wf depth (Memory.write txt i c) :=
  Store.wf_insert h hi c

/-- Everything `writeText` does: it writes the text at its place and no other cell. -/
theorem Memory.read_writeText (s : List Byte) : ∀ (txt : List Host.Cell) (i j : Nat),
    Memory.read (Memory.writeText txt i s) j =
      if i ≤ j ∧ j < i + s.length then s[j - i]? else Memory.read txt j := by
  induction s with
  | nil => intro txt i j; rw [Memory.writeText, if_neg (by simp only [List.length_nil]; omega)]
  | cons c s ih =>
    intro txt i j
    rw [Memory.writeText, ih, Memory.read_write]
    simp only [List.length_cons]
    by_cases h1 : i + 1 ≤ j ∧ j < i + 1 + s.length
    · rw [if_pos h1, if_pos (by omega), show j - i = (j - (i + 1)) + 1 by omega, List.getElem?_cons_succ]
    · rw [if_neg h1]
      by_cases h2 : i = j
      · subst h2; simp
      · rw [if_neg h2, if_neg (by omega)]

/-- Writing a text that fits keeps the canonical form. -/
theorem Memory.wf_writeText (s : List Byte) : ∀ {txt : List Host.Cell} {i : Nat}, Memory.wf depth txt →
    i + s.length ≤ depth → Memory.wf depth (Memory.writeText txt i s) := by
  induction s with
  | nil => intro txt i h _; exact h
  | cons c s ih =>
    intro txt i h hi
    simp only [List.length_cons] at hi
    exact ih (Memory.wf_write h (by omega) c) (by omega)

theorem Memory.wf_reset : Memory.wf depth (Block.reset w depth).txt :=
  ⟨.nil, nofun⟩

/-! ## `TRC` -/

/-- A write of a record of the buffer keeps the canonical form. -/
theorem Trace.wf_insert {trc : List (Nat × Record w)} (h : Trace.wf trc) {k : Nat} (hk : k < Config.traceDepth w)
    (r : Record w) : Trace.wf (Store.insert trc k r) :=
  Store.wf_insert h hk r

/-- Everything `writeRecords` does: it writes the records at their place and no other. -/
theorem Trace.find_writeRecords (rs : List (Record w)) : ∀ (trc : List (Nat × Record w)) (k j : Nat),
    Store.find (Trace.writeRecords trc k rs) j =
      if k ≤ j ∧ j < k + rs.length then rs[j - k]? else Store.find trc j := by
  induction rs with
  | nil => intro trc k j; rw [Trace.writeRecords, if_neg (by simp only [List.length_nil]; omega)]
  | cons r rs ih =>
    intro trc k j
    rw [Trace.writeRecords, ih, Store.find_insert]
    simp only [List.length_cons]
    by_cases h1 : k + 1 ≤ j ∧ j < k + 1 + rs.length
    · rw [if_pos h1, if_pos (by omega), show j - k = (j - (k + 1)) + 1 by omega, List.getElem?_cons_succ]
    · rw [if_neg h1]
      by_cases h2 : k = j
      · subst h2; simp
      · rw [if_neg h2, if_neg (by omega)]

/-- Writing records that fit keeps the canonical form. -/
theorem Trace.wf_writeRecords (rs : List (Record w)) : ∀ {trc : List (Nat × Record w)} {k : Nat},
    Trace.wf trc → k + rs.length ≤ Config.traceDepth w → Trace.wf (Trace.writeRecords trc k rs) := by
  induction rs with
  | nil => intro trc k h _; exact h
  | cons r rs ih =>
    intro trc k h hk
    simp only [List.length_cons] at hk
    exact ih (Trace.wf_insert h (by omega) r) (by omega)

theorem Trace.wf_reset : Trace.wf (Block.reset w depth).trc :=
  ⟨.nil, nofun⟩

end Sys2Proof.Machine
end

