-- ==== Sys2Proof/Laws/Engine.lean ====
section
/-! SUPPORT. Inversion: for each shared operation, everything it can do, said once. Later proofs cite these and never unfold
the operation. -/

namespace Sys2Proof.Machine

variable {w : Nat}

/-! ## `append` and the two iterations -/

/-- `append` writes the record at `TRCCNT` and counts it, or stops where there is no record to write. -/
theorem append_eq (r : Record w) {s : Block w} (h : s.trccnt.toNat < Config.traceDepth w) :
    append r s = .next { s with trc := Store.insert s.trc s.trccnt.toNat r, trccnt := s.trccnt + 1 } :=
  if_pos h

theorem append_cases {r : Record w} {s t : Block w} (h : append r s = .next t) :
    s.trccnt.toNat < Config.traceDepth w ∧
      t = { s with trc := Store.insert s.trc s.trccnt.toNat r, trccnt := s.trccnt + 1 } := by
  unfold append at h
  split at h
  · next hlt => exact ⟨hlt, by injection h with h; exact h.symm⟩
  · cases h

/-- The count of records fits in a word at every width the spec admits. -/
theorem traceDepth_lt_two_pow (hw : 8 ≤ w) : Config.traceDepth w < 2 ^ w := by
  induction w, hw using Nat.le_induction with
  | base => decide
  | succ n hn ih => rw [Nat.pow_succ]; simp only [Config.traceDepth] at *; omega

/-- The count does not wrap while there is a record to write. -/
theorem trccnt_succ (hw : 8 ≤ w) {c : Word w} (h : c.toNat < Config.traceDepth w) : (c + 1).toNat = c.toNat + 1 := by
  have h' : c.toNat + 1 < 2 ^ w := Nat.lt_of_le_of_lt h (traceDepth_lt_two_pow hw)
  have h1 : (1 : Word w).toNat = 1 := by
    show (1#w).toNat = 1
    rw [BitVec.toNat_ofNat, Nat.mod_eq_of_lt (Nat.one_lt_two_pow (by omega))]
  rw [BitVec.toNat_add, h1, Nat.mod_eq_of_lt h']

theorem redIteration_eq {s : Block w} (h : s.trccnt.toNat < Config.traceDepth w) :
    redIteration s = .next
      { s with
        wv := (redStep s.wv s.m s.n.toNat).nv
        trc := Store.insert s.trc s.trccnt.toNat (redRecord s.seg s.wv (redStep s.wv s.m s.n.toNat))
        trccnt := s.trccnt + 1 } :=
  append_eq _ h

theorem redIteration_cases {s t : Block w} (h : redIteration s = .next t) :
    s.trccnt.toNat < Config.traceDepth w ∧
      t = { s with
        wv := (redStep s.wv s.m s.n.toNat).nv
        trc := Store.insert s.trc s.trccnt.toNat (redRecord s.seg s.wv (redStep s.wv s.m s.n.toNat))
        trccnt := s.trccnt + 1 } :=
  append_cases h

/-- The Multiplier's loop variables in a state. -/
abbrev mulVars (s : Block w) : MulVars w :=
  { acc := s.acc, a := s.wa, b := s.wb }

theorem mulIteration_eq {s : Block w} (h : s.trccnt.toNat < Config.traceDepth w) :
    mulIteration s = .next
      { s with
        acc := (mulStep (mulVars s) s.m s.n.toNat).1.acc
        wa := (mulStep (mulVars s) s.m s.n.toNat).1.a
        wb := (mulStep (mulVars s) s.m s.n.toNat).1.b
        trc := Store.insert s.trc s.trccnt.toNat (mulStep (mulVars s) s.m s.n.toNat).2
        trccnt := s.trccnt + 1 } :=
  append_eq _ h

theorem mulIteration_cases {s t : Block w} (h : mulIteration s = .next t) :
    s.trccnt.toNat < Config.traceDepth w ∧
      t = { s with
        acc := (mulStep (mulVars s) s.m s.n.toNat).1.acc
        wa := (mulStep (mulVars s) s.m s.n.toNat).1.a
        wb := (mulStep (mulVars s) s.m s.n.toNat).1.b
        trc := Store.insert s.trc s.trccnt.toNat (mulStep (mulVars s) s.m s.n.toNat).2
        trccnt := s.trccnt + 1 } :=
  append_cases h

theorem reducing_iff (s : Block w) : reducing s = true ↔ (s.n.toNat : Int) ≤ deg s.wv := by
  simp only [reducing, canonical, Bool.not_eq_true', decide_eq_false_iff_not, not_lt]

/-! ## The sequencer -/

section
variable {first exitA : Block w → StepOutcome w} {s t : Block w}

theorem enginePhase_start (h : s.phase = .start) : enginePhase first exitA s = first s := by
  simp only [enginePhase, h]

theorem enginePhase_reda_iter (h : s.phase = .reda) (hr : reducing s = true) :
    enginePhase first exitA s = redIteration s := by
  simp only [enginePhase, h, hr, if_true]

theorem enginePhase_reda_exit (h : s.phase = .reda) (hr : reducing s = false) :
    enginePhase first exitA s = exitA s := by
  simp only [enginePhase, h, hr, Bool.false_eq_true, if_false]

theorem enginePhase_redb_iter (h : s.phase = .redb) (hr : reducing s = true) :
    enginePhase first exitA s = redIteration s := by
  simp only [enginePhase, h, hr, if_true]

theorem enginePhase_redb_exit (h : s.phase = .redb) (hr : reducing s = false) :
    enginePhase first exitA s = evaluateExitB s := by
  simp only [enginePhase, h, hr, Bool.false_eq_true, if_false]

theorem enginePhase_mult_iter (h : s.phase = .mult) (hb : s.wb ≠ 0) :
    enginePhase first exitA s = mulIteration s := by
  simp only [enginePhase, h, hb, if_false]

theorem enginePhase_mult_exit (h : s.phase = .mult) (hb : s.wb = 0) :
    enginePhase first exitA s = mulExit s := by
  simp only [enginePhase, h, hb, if_true]

/-- Everything an engine step can do (60_exceptions.md R147). -/
theorem enginePhase_cases (h : enginePhase first exitA s = .next t) :
    (s.phase = .start ∧ first s = .next t) ∨
    ((s.phase = .reda ∨ s.phase = .redb) ∧ reducing s = true ∧ redIteration s = .next t) ∨
    (s.phase = .reda ∧ reducing s = false ∧ exitA s = .next t) ∨
    (s.phase = .redb ∧ reducing s = false ∧ evaluateExitB s = .next t) ∨
    (s.phase = .mult ∧ s.wb ≠ 0 ∧ mulIteration s = .next t) ∨
    (s.phase = .mult ∧ s.wb = 0 ∧ mulExit s = .next t) := by
  unfold enginePhase at h
  split at h
  · cases h
  · next hp => exact .inl ⟨hp, h⟩
  · next hp =>
    split at h
    · next hr => exact .inr (.inl ⟨.inl hp, hr, h⟩)
    · next hr => exact .inr (.inr (.inl ⟨hp, by simpa using hr, h⟩))
  · next hp =>
    split at h
    · next hr => exact .inr (.inl ⟨.inr hp, hr, h⟩)
    · next hr => exact .inr (.inr (.inr (.inl ⟨hp, by simpa using hr, h⟩)))
  · next hp =>
    split at h
    · next hb => exact .inr (.inr (.inr (.inr (.inr ⟨hp, hb, h⟩))))
    · next hb => exact .inr (.inr (.inr (.inr (.inl ⟨hp, hb, h⟩))))

end

/-! ## The first steps -/

/-- Everything the first step of REDUCE can do (41_reducer.md R114, step S). -/
theorem reduceFirst_cases (s : Block w) :
    (w ≤ s.n.toNat ∧ reduceFirst s = .next (raise .degreeRange 0 (clearTrace s))) ∨
    (s.n.toNat < w ∧ deg s.m ≠ (s.n.toNat : Int) ∧
      reduceFirst s = .next (raise .modulusDegree 0 (clearTrace s))) ∨
    (s.n.toNat < w ∧ deg s.m = (s.n.toNat : Int) ∧
      reduceFirst s = .next { clearTrace s with wv := s.a, seg := 0, phase := .reda }) := by
  by_cases hn : s.n.toNat < w
  · have hn' := (degreeInRange_iff s.n).2 hn
    by_cases hm : deg s.m = (s.n.toNat : Int)
    · exact .inr (.inr ⟨hn, hm, by simp [reduceFirst, hn', (modulusOk_iff _ _).2 hm]⟩)
    · refine .inr (.inl ⟨hn, hm, ?_⟩)
      have hm' : modulusOk s.m s.n.toNat = false := by rw [← Bool.not_eq_true, modulusOk_iff]; exact hm
      simp [reduceFirst, hn', hm']
  · have hn' : degreeInRange s.n = false := by rw [← Bool.not_eq_true, degreeInRange_iff]; exact hn
    exact .inl ⟨Nat.le_of_not_lt hn, by simp [reduceFirst, hn']⟩

/-- Everything the first step of MULTIPLY can do (42_multiplier.md R124, step S). -/
theorem multiplyFirst_cases (s : Block w) :
    (w ≤ s.n.toNat ∧ multiplyFirst s = .next (raise .degreeRange 0 (clearTrace s))) ∨
    (s.n.toNat < w ∧ deg s.m ≠ (s.n.toNat : Int) ∧
      multiplyFirst s = .next (raise .modulusDegree 0 (clearTrace s))) ∨
    (s.n.toNat < w ∧ deg s.m = (s.n.toNat : Int) ∧ (s.n.toNat : Int) ≤ deg s.a ∧
      multiplyFirst s = .next (raise .nonCanonical 0 (clearTrace s))) ∨
    (s.n.toNat < w ∧ deg s.m = (s.n.toNat : Int) ∧ deg s.a < (s.n.toNat : Int) ∧ (s.n.toNat : Int) ≤ deg s.b ∧
      multiplyFirst s = .next (raise .nonCanonical 1 (clearTrace s))) ∨
    (s.n.toNat < w ∧ deg s.m = (s.n.toNat : Int) ∧ deg s.a < (s.n.toNat : Int) ∧ deg s.b < (s.n.toNat : Int) ∧
      multiplyFirst s =
        .next { clearTrace s with wa := s.a, wb := s.b, acc := 0, seg := 2, phase := .mult }) := by
  by_cases hn : s.n.toNat < w
  · have hn' := (degreeInRange_iff s.n).2 hn
    by_cases hm : deg s.m = (s.n.toNat : Int)
    · have hm' := (modulusOk_iff s.m s.n.toNat).2 hm
      by_cases ha : deg s.a < (s.n.toNat : Int)
      · have ha' : canonical s.a s.n.toNat = true := decide_eq_true ha
        by_cases hb : deg s.b < (s.n.toNat : Int)
        · have hb' : canonical s.b s.n.toNat = true := decide_eq_true hb
          exact .inr (.inr (.inr (.inr ⟨hn, hm, ha, hb, by simp [multiplyFirst, hn', hm', ha', hb']⟩)))
        · have hb' : canonical s.b s.n.toNat = false := decide_eq_false hb
          exact .inr (.inr (.inr (.inl ⟨hn, hm, ha, by omega, by simp [multiplyFirst, hn', hm', ha', hb']⟩)))
      · have ha' : canonical s.a s.n.toNat = false := decide_eq_false ha
        exact .inr (.inr (.inl ⟨hn, hm, by omega, by simp [multiplyFirst, hn', hm', ha']⟩))
    · refine .inr (.inl ⟨hn, hm, ?_⟩)
      have hm' : modulusOk s.m s.n.toNat = false := by rw [← Bool.not_eq_true, modulusOk_iff]; exact hm
      simp [multiplyFirst, hn', hm']
  · have hn' : degreeInRange s.n = false := by rw [← Bool.not_eq_true, degreeInRange_iff]; exact hn
    exact .inl ⟨Nat.le_of_not_lt hn, by simp [multiplyFirst, hn']⟩

/-- Everything the step of DECODE can do (40_codec.md R99). -/
theorem decodeFirst_cases (s : Block w) :
    (s.depth < s.txtlen.toNat ∧ decodeFirst s = .next (raise .textLength 0 s)) ∨
    (s.txtlen.toNat ≤ s.depth ∧ ∃ f j, decodeText w (textOperand s) = .err f j ∧
      decodeFirst s = .next (raise f (BitVec.ofNat w j) s)) ∨
    (s.txtlen.toNat ≤ s.depth ∧ ∃ v, decodeText w (textOperand s) = .ok v ∧
      decodeFirst s = .next (complete { s with res := v })) := by
  by_cases hl : s.depth < s.txtlen.toNat
  · exact .inl ⟨hl, if_pos hl⟩
  · rcases hd : decodeText w (textOperand s) with v | ⟨f, j⟩
    · exact .inr (.inr ⟨Nat.le_of_not_lt hl, v, rfl, by rw [decodeFirst, if_neg hl, hd]⟩)
    · exact .inr (.inl ⟨Nat.le_of_not_lt hl, f, j, rfl, by rw [decodeFirst, if_neg hl, hd]⟩)

/-- Clearing the count does not touch the text operand. -/
@[simp] theorem textOperand_clearTrace (s : Block w) : textOperand (clearTrace s) = textOperand s := rfl

/-- Everything the first step of EVALUATE can do (43_evaluate.md R138, step S). -/
theorem evaluateFirst_cases (s : Block w) :
    (w ≤ s.n.toNat ∧ evaluateFirst s = .next (raise .degreeRange 0 (clearTrace s))) ∨
    (s.n.toNat < w ∧ s.depth < s.txtlen.toNat ∧
      evaluateFirst s = .next (raise .textLength 0 (clearTrace s))) ∨
    (s.n.toNat < w ∧ s.txtlen.toNat ≤ s.depth ∧
      ∃ f j, decodeText w (textOperand s) = .err f j ∧
        evaluateFirst s = .next (raise f (BitVec.ofNat w j) (clearTrace s))) ∨
    (s.n.toNat < w ∧ s.txtlen.toNat ≤ s.depth ∧
      ∃ m, decodeText w (textOperand s) = .ok m ∧ deg m ≠ (s.n.toNat : Int) ∧
        evaluateFirst s = .next (raise .modulusDegree 0 (clearTrace s))) ∨
    (s.n.toNat < w ∧ s.txtlen.toNat ≤ s.depth ∧
      ∃ m, decodeText w (textOperand s) = .ok m ∧ deg m = (s.n.toNat : Int) ∧
        evaluateFirst s = .next { clearTrace s with m := m, wv := s.a, seg := 0, phase := .reda }) := by
  by_cases hn : s.n.toNat < w
  · have hn' := (degreeInRange_iff s.n).2 hn
    by_cases hl : s.depth < s.txtlen.toNat
    · exact .inr (.inl ⟨hn, hl, by simp [evaluateFirst, hn', hl]⟩)
    · have hl' := Nat.le_of_not_lt hl
      rcases hd : decodeText w (textOperand s) with m | ⟨f, j⟩
      · by_cases hm : deg m = (s.n.toNat : Int)
        · have hm' := (modulusOk_iff m s.n.toNat).2 hm
          exact .inr (.inr (.inr (.inr ⟨hn, hl', m, rfl, hm, by simp [evaluateFirst, hn', hl, hd, hm']⟩)))
        · have hm' : modulusOk m s.n.toNat = false := by rw [← Bool.not_eq_true, modulusOk_iff]; exact hm
          exact .inr (.inr (.inr (.inl ⟨hn, hl', m, rfl, hm, by simp [evaluateFirst, hn', hl, hd, hm']⟩)))
      · exact .inr (.inr (.inl ⟨hn, hl', f, j, rfl, by simp [evaluateFirst, hn', hl, hd]⟩))
  · have hn' : degreeInRange s.n = false := by rw [← Bool.not_eq_true, degreeInRange_iff]; exact hn
    exact .inl ⟨Nat.le_of_not_lt hn, by simp [evaluateFirst, hn']⟩

/-! ## The engine's turn and the step -/

theorem engineTurn_idle {s : State} (h : s.block.phase = .idle) : engineTurn s = .next s :=
  if_pos h

theorem engineTurn_command {s : State} {i : Instr} (h : s.block.phase ≠ .idle) (hd : decodeWord s.block.cur = .ok i) :
    engineTurn s = exec i s := by
  rw [engineTurn, if_neg h, hd]

theorem engineTurn_illegal {s : State} {e : IllegalWord} (h : s.block.phase ≠ .idle)
    (hd : decodeWord s.block.cur = .error e) : engineTurn s = execIllegal s := by
  rw [engineTurn, if_neg h, hd]

/-- Everything the engine's turn can do: nothing in IDLE, else one phase step under the latched word's own first step and
exit. -/
theorem engineTurn_cases (s : Block w) :
    (s.phase = .idle ∧ engineTurn (.of s) = .next (.of s)) ∨
    (s.phase ≠ .idle ∧ decodeWord s.cur = .ok .encode ∧
      engineTurn (.of s) = State.lift (enginePhase encodeFirst noExit s)) ∨
    (s.phase ≠ .idle ∧ decodeWord s.cur = .ok .decode ∧
      engineTurn (.of s) = State.lift (enginePhase decodeFirst noExit s)) ∨
    (s.phase ≠ .idle ∧ decodeWord s.cur = .ok .reduce ∧
      engineTurn (.of s) = State.lift (enginePhase reduceFirst reduceExit s)) ∨
    (s.phase ≠ .idle ∧ decodeWord s.cur = .ok .multiply ∧
      engineTurn (.of s) = State.lift (enginePhase multiplyFirst noExit s)) ∨
    (s.phase ≠ .idle ∧ decodeWord s.cur = .ok .evaluate ∧
      engineTurn (.of s) = State.lift (enginePhase evaluateFirst evaluateExitA s)) ∨
    (s.phase ≠ .idle ∧ (∃ e, decodeWord s.cur = .error e) ∧
      engineTurn (.of s) = State.lift (enginePhase illegalFirst noExit s)) := by
  by_cases h : s.phase = .idle
  · exact .inl ⟨h, engineTurn_idle h⟩
  · rcases hd : decodeWord s.cur with e | i
    · exact .inr (.inr (.inr (.inr (.inr (.inr ⟨h, ⟨e, rfl⟩, engineTurn_illegal (s := .of s) h hd⟩)))))
    · cases i
      · exact .inr (.inl ⟨h, rfl, engineTurn_command (s := .of s) h hd⟩)
      · exact .inr (.inr (.inl ⟨h, rfl, engineTurn_command (s := .of s) h hd⟩))
      · exact .inr (.inr (.inr (.inl ⟨h, rfl, engineTurn_command (s := .of s) h hd⟩)))
      · exact .inr (.inr (.inr (.inr (.inl ⟨h, rfl, engineTurn_command (s := .of s) h hd⟩))))
      · exact .inr (.inr (.inr (.inr (.inr (.inl ⟨h, rfl, engineTurn_command (s := .of s) h hd⟩)))))

theorem step_nil {s : Block w} (h : s.agenda = []) : step (.of s) = engineTurn (.of s) := by
  rw [step, nextEvent, h]

theorem step_cons {s : Block w} {e : Event w} {es : List (Event w)} (h : s.agenda = e :: es) :
    step (.of s) = perform e { s with agenda := es } := by
  rw [step, nextEvent, h]

/-! ## The host's accesses -/

/-- Everything a host read does: one more reply, and one more draw where the value is unspecified. -/
theorem hostRead_cases (addr : Addr) (s : Block w) :
    (∃ v, readValue s (placeAt w s.depth addr) = some v ∧ hostRead addr s = { s with replies := v :: s.replies }) ∨
    (readValue s (placeAt w s.depth addr) = none ∧
      hostRead addr s = { s with replies := Config.freeWord w s.draws :: s.replies, draws := s.draws + 1 }) := by
  cases h : readValue s (placeAt w s.depth addr) with
  | some v => exact .inl ⟨v, rfl, by rw [hostRead, h]⟩
  | none => exact .inr ⟨rfl, by rw [hostRead, h]⟩

theorem hostWrite_busy {s : Block w} (h : s.status.busy = true) (addr : Addr) (v : Word w) : hostWrite addr v s = s :=
  if_pos h

theorem hostWrite_idle {s : Block w} (h : s.status.busy = false) (addr : Addr) (v : Word w) :
    hostWrite addr v s = writeIdle (placeAt w s.depth addr) v s := by
  rw [hostWrite, if_neg (by rw [h]; exact Bool.false_ne_true)]

/-- Everything a host write can do while no command runs. -/
theorem writeIdle_cases (p : Place) (v : Word w) (s : Block w) :
    (p = .cmd ∧ writeIdle p v s = acceptCommand v s) ∨
    (p = .a ∧ writeIdle p v s = { s with a := v }) ∨
    (p = .b ∧ writeIdle p v s = { s with b := v }) ∨
    (p = .m ∧ writeIdle p v s = { s with m := v }) ∨
    (p = .n ∧ writeIdle p v s = { s with n := v }) ∨
    (p = .txtlen ∧ writeIdle p v s = { s with txtlen := v }) ∨
    (∃ i, p = .txt i ∧ writeIdle p v s = { s with txt := Memory.write s.txt i (v.setWidth 8) }) ∨
    writeIdle p v s = s := by
  cases p <;> simp [writeIdle]

/-- Everything the address map can name (20_memory.md Table M-1). -/
theorem placeAt_cases (depth : Nat) (addr : Addr) :
    Store.find registerMap addr.toNat = some (placeAt w depth addr) ∨
    (0x1000 ≤ addr.toNat ∧ addr.toNat < 0x1000 + depth ∧ placeAt w depth addr = .txt (addr.toNat - 0x1000)) ∨
    (0x2000 ≤ addr.toNat ∧ addr.toNat < 0x2000 + 8 * Config.traceDepth w ∧
      placeAt w depth addr = .trc ((addr.toNat - 0x2000) / 8) ((addr.toNat - 0x2000) % 8)) ∨
    placeAt w depth addr = .reserved addr := by
  unfold placeAt
  cases Store.find registerMap addr.toNat with
  | some p => exact .inl rfl
  | none =>
    by_cases h1 : 0x1000 ≤ addr.toNat ∧ addr.toNat < 0x1000 + depth
    · exact .inr (.inl ⟨h1.1, h1.2, if_pos h1⟩)
    · by_cases h2 : 0x2000 ≤ addr.toNat ∧ addr.toNat < 0x2000 + 8 * Config.traceDepth w
      · exact .inr (.inr (.inl ⟨h2.1, h2.2, (if_neg h1).trans (if_pos h2)⟩))
      · exact .inr (.inr (.inr ((if_neg h1).trans (if_neg h2))))

/-- No register of the map is a buffer. -/
theorem registerMap_no_buffer : ∀ p ∈ registerMap.map Prod.snd, ∀ i k f, p ≠ .txt i ∧ p ≠ .trc k f := by
  intro p hp i k f
  simp only [registerMap, List.map_cons, List.map_nil, List.mem_cons, List.not_mem_nil, or_false] at hp
  rcases hp with rfl | rfl | rfl | rfl | rfl | rfl | rfl | rfl | rfl | rfl | rfl | rfl <;> exact ⟨nofun, nofun⟩

/-- A cell of the text that an address names lies in the buffer. -/
theorem placeAt_txt {depth : Nat} {addr : Addr} {i : Nat} (h : placeAt w depth addr = .txt i) : i < depth := by
  rcases placeAt_cases (w := w) depth addr with hp | ⟨_, _, hp⟩ | ⟨_, _, hp⟩ | hp
  · exact absurd h (registerMap_no_buffer _ (Store.find_mem _ hp) i 0 0).1
  · rw [hp] at h; injection h with h; omega
  · rw [hp] at h; cases h
  · rw [hp] at h; cases h

/-- A record that an address names lies in the trace buffer. -/
theorem placeAt_trc {depth : Nat} {addr : Addr} {k f : Nat} (h : placeAt w depth addr = .trc k f) : k < Config.traceDepth w ∧ f < 8 := by
  rcases placeAt_cases (w := w) depth addr with hp | ⟨_, _, hp⟩ | ⟨_, _, hp⟩ | hp
  · exact absurd h (registerMap_no_buffer _ (Store.find_mem _ hp) 0 k f).2
  · rw [hp] at h; cases h
  · rw [hp] at h; injection h with h1 h2; omega
  · rw [hp] at h; cases h

end Sys2Proof.Machine

namespace Sys2Proof.Safety

open Sys2Proof.Machine

variable {w : Nat}

/-- A host read leaves the block's own state as it was. -/
@[simp] theorem blockOf_hostRead (addr : Addr) (s : Block w) : blockOf (hostRead addr s) = blockOf s := by
  rcases hostRead_cases addr s with ⟨v, -, h⟩ | ⟨-, h⟩ <;> rw [h] <;> rfl

end Sys2Proof.Safety
end

