-- ==== Sys2Proof/Laws/PerInstr.lean ====
section
/-! SUPPORT. What holds of every command, one lemma per constructor of `Instr`. -/

/-- The fields of a command's word are its opcode under a `ZERO` field of zeros (30_encoding.md R70, Table E-1). -/
def Sys2Proof.Laws.WordFields.Statement (i : Sys2Proof.Instr) : Prop :=
  (∀ w : Nat, 8 ≤ w → Sys2Proof.opcField (Sys2Proof.encodeWord w i) = Sys2Proof.opcode i ∧
    Sys2Proof.zeroField (Sys2Proof.encodeWord w i) = 0) ∧
    Sys2Proof.opcodeMap (Sys2Proof.opcode i) = some i

/-- Widening an opcode to a word keeps it in `OPC` and leaves `ZERO` clear. -/
theorem Sys2Proof.Laws.WordFields.encodeWord_fields (i : Sys2Proof.Instr) (w : Nat) (hw : 8 ≤ w) :
    Sys2Proof.opcField (Sys2Proof.encodeWord w i) = Sys2Proof.opcode i ∧
      Sys2Proof.zeroField (Sys2Proof.encodeWord w i) = 0 := by
  constructor
  · ext k hk
    simp only [Sys2Proof.opcField, Sys2Proof.encodeWord, BitVec.getElem_extractLsb', BitVec.getLsbD_setWidth]
    rw [Nat.zero_add, decide_eq_true (show k < w by omega), Bool.true_and, BitVec.getLsbD_eq_getElem]
  · ext k hk
    simp only [Sys2Proof.zeroField, Sys2Proof.encodeWord, BitVec.getElem_extractLsb', BitVec.getLsbD_setWidth]
    rw [BitVec.getLsbD_of_ge _ _ (by omega)]
    simp

theorem Sys2Proof.Laws.WordFields.encode : Sys2Proof.Laws.WordFields.Statement .encode :=
  ⟨Sys2Proof.Laws.WordFields.encodeWord_fields _, rfl⟩

theorem Sys2Proof.Laws.WordFields.decode : Sys2Proof.Laws.WordFields.Statement .decode :=
  ⟨Sys2Proof.Laws.WordFields.encodeWord_fields _, rfl⟩

theorem Sys2Proof.Laws.WordFields.reduce : Sys2Proof.Laws.WordFields.Statement .reduce :=
  ⟨Sys2Proof.Laws.WordFields.encodeWord_fields _, rfl⟩

theorem Sys2Proof.Laws.WordFields.multiply : Sys2Proof.Laws.WordFields.Statement .multiply :=
  ⟨Sys2Proof.Laws.WordFields.encodeWord_fields _, rfl⟩

theorem Sys2Proof.Laws.WordFields.evaluate : Sys2Proof.Laws.WordFields.Statement .evaluate :=
  ⟨Sys2Proof.Laws.WordFields.encodeWord_fields _, rfl⟩
end

