-- ==== Sys2Proof/Tests/Slice0.lean ====
section
/-! SUPPORT. The model's own tests: words and parameters that are refused, the command words written out bit by bit, and
for each command the spec's vectors (95_test_vectors.md) on its function and on one engine step. -/

namespace Sys2Proof.Tests

open Sys2Proof Sys2Proof.Machine Sys2Proof.Safety

/-- A block of the reference configuration just after reset. -/
def start : Block 64 := Block.reset 64 512

/-- `s` just after the command word of `i` has been accepted. -/
def latched {w : Nat} (i : Instr) (s : Block w) : Block w :=
  placeCommand (encodeWord w i) s

/-- `s` with the text `t` in `TXT` and its length in `TXTLEN`. -/
def withText {w : Nat} (t : List Byte) (s : Block w) : Block w :=
  { s with txt := Memory.writeText s.txt 0 t, txtlen := BitVec.ofNat w t.length }

/-- The outcome is a next state with the parameter `W = w`, of whose block `p` holds. -/
def nextHas (w : Nat) (o : MachineOutcome) (p : Block w → Bool) : Bool :=
  match o with
  | .next t => if h : t.w = w then p (h ▸ t.block) else false
  | .fault _ => false
  | .refused _ => false

/-- The reset state with operands. -/
def operands (a b m n : Word 64) : Block 64 :=
  { start with a := a, b := b, m := m, n := n }

/-- `x^3+x+1` (30_encoding.md R78). -/
def textEleven : List Byte := [0x78, 0x5E, 0x33, 0x2B, 0x78, 0x2B, 0x31]

/-- `x^a` (95_test_vectors.md SRC-5). -/
def textBadExponent : List Byte := [0x78, 0x5E, 0x61]

/-! ## Well-formedness -/

/-- 30_encoding.md R72: 0 is no command word. -/
theorem test_wf_refuses_zero : commandWordWf (0 : Word 64) = false := by decide

/-- 30_encoding.md R72: a reserved opcode is no command word. -/
theorem test_wf_refuses_reserved_opcode : commandWordWf (6 : Word 64) = false ∧
    commandWordWf (0xF : Word 64) = false := by decide

/-- 30_encoding.md R70: a word with a bit of `ZERO` set is no command word. -/
theorem test_wf_refuses_upper_bits : commandWordWf (0x13 : Word 64) = false ∧
    commandWordWf (0x8000000000000001 : Word 64) = false := by decide

/-- 30_encoding.md R71: the five words are. -/
theorem test_wf_accepts_commands : ([1, 2, 3, 4, 5] : List (Word 64)).all commandWordWf = true := by decide

/-- 00_scope.md R6: `W` below 8 or above 512 is refused. -/
theorem test_legal_refuses_width : ¬ Config.legal 7 100 ∧ ¬ Config.legal 513 4096 :=
  ⟨fun h => absurd h.1 (by decide), fun h => absurd h.2.1 (by decide)⟩

/-- 00_scope.md R7: a text buffer that is too small or too large is refused. -/
theorem test_legal_refuses_depth : ¬ Config.legal 8 26 ∧ ¬ Config.legal 8 256 ∧ Config.legal 8 27 := by decide

/-- 00_scope.md R7: the values of `ENC_MAX` the rule lists. -/
theorem test_encMax_values :
    Config.encMax 8 = 27 ∧ Config.encMax 16 = 65 ∧ Config.encMax 32 = 145 ∧ Config.encMax 64 = 305 := by
  decide

/-! ## Decoding the command word (30_encoding.md Tables E-1, E-2) -/

/-- `ZERO` above `OPC = 0001`. -/
theorem test_decode_word_encode :
    decodeWord (0b0000000000000000000000000000000000000000000000000000000000000001 : Word 64) = .ok .encode := rfl

/-- `ZERO` above `OPC = 0010`. -/
theorem test_decode_word_decode :
    decodeWord (0b0000000000000000000000000000000000000000000000000000000000000010 : Word 64) = .ok .decode := rfl

/-- `ZERO` above `OPC = 0011`. -/
theorem test_decode_word_reduce :
    decodeWord (0b0000000000000000000000000000000000000000000000000000000000000011 : Word 64) = .ok .reduce := rfl

/-- `ZERO` above `OPC = 0100`. -/
theorem test_decode_word_multiply :
    decodeWord (0b0000000000000000000000000000000000000000000000000000000000000100 : Word 64) = .ok .multiply := rfl

/-- `ZERO` above `OPC = 0101`. -/
theorem test_decode_word_evaluate :
    decodeWord (0b0000000000000000000000000000000000000000000000000000000000000101 : Word 64) = .ok .evaluate := rfl

/-- 30_encoding.md R72: refused by the name of what is wrong. -/
theorem test_decode_word_illegal :
    decodeWord (0 : Word 64) = .error (.reservedOpcode 0) ∧ decodeWord (0x16 : Word 64) = .error (.reservedOpcode 6) ∧
    decodeWord (0x13 : Word 64) = .error (.upperBitsSet 3) ∧
      decodeWord (0x8000000000000001 : Word 64) = .error (.upperBitsSet 1) :=
  ⟨rfl, rfl, rfl, rfl⟩

/-! ## ENCODE -/

/-- V-C1, V-C5, V-C7, V-C8, V-C10. -/
theorem test_encode_vectors :
    encodeText (0 : Word 64) = [0x30] ∧ encodeText (4 : Word 64) = [0x78, 0x5E, 0x32] ∧
      encodeText (11 : Word 64) = textEleven ∧
    encodeText (1024 : Word 64) = [0x78, 0x5E, 0x31, 0x30] ∧
    encodeText (0x8000000000000000 : Word 64) = [0x78, 0x5E, 0x36, 0x33] := by decide

/-- 40_codec.md R93, the worked example. -/
theorem test_encode_step :
    nextHas 64 (step (.of (latched .encode (operands 11 0 0 0)))) (fun t =>
      decide (t.txtlen = 7 ∧ Memory.read t.txt 0 = some 0x78 ∧ Memory.read t.txt 6 = some 0x31 ∧
        Memory.read t.txt 7 = none ∧ statusWord t.status = (0x2 : Word 64))) = true := by decide

/-! ## DECODE -/

/-- Table K-1 and V-C21, V-C25, V-C40. -/
theorem test_decode_vectors :
    decodeText 64 textEleven = .ok 11 ∧ decodeText 64 [0x78, 0x2B, 0x78] = .ok 2 ∧
    decodeText 64 [0x78, 0x5E, 0x31, 0x20, 0x30] = .ok 1024 ∧ decodeText 64 [0x30] = .err .malformedTerm 0 ∧
    decodeText 64 (textEleven ++ [0x2B]) = .err .malformedTerm 3 ∧
    decodeText 64 [0x31, 0x2B, 0x78, 0x5E, 0x2B, 0x79] = .err .malformedExponent 1 ∧
    decodeText 64 [0x78, 0x5E, 0x31, 0x38, 0x34, 0x34, 0x36, 0x37, 0x34, 0x34, 0x30, 0x37, 0x33, 0x37, 0x30, 0x39, 0x35,
      0x35, 0x31, 0x36, 0x31, 0x36] = .err .exponentRange 0 ∧
    decodeText 8 [0x78, 0x5E, 0x38] = .err .exponentRange 0 := by decide

/-- 40_codec.md R94, R96: whitespace goes wherever it stands, a vertical tab too; the digits are tested before the range. -/
theorem test_decode_whitespace_and_digits :
    decodeText 8 [0x20, 0x78, 0x09, 0x5E, 0x0B, 0x33, 0x0C, 0x2B, 0x0A, 0x31, 0x0D] = .ok 9 ∧
    decodeText 8 [0x78, 0x0E] = .err .malformedTerm 0 ∧
    decodeText 8 [0x78, 0x5E, 0x39, 0x39, 0x61] = .err .malformedExponent 0 ∧
    decodeText 8 [0x78, 0x5E, 0x39, 0x39] = .err .exponentRange 0 := by decide

/-- 40_codec.md R99, the worked example of a fault: `RES` is unchanged. -/
theorem test_decode_step_fault :
    nextHas 64 (step (.of (latched .decode (withText textBadExponent start)))) (fun t =>
      decide (statusWord t.status = (0x56 : Word 64) ∧ t.errinfo = 0 ∧ t.res = 0 ∧ t.phase = .idle)) = true := by decide

/-! ## REDUCE -/

/-- V-R6 and V-R9. -/
theorem test_reduce_vectors :
    (reduce (0xFF : Word 64) 11 3 0).map (fun r => (r.1, r.2.map (fun x => (x.word1, x.word2, x.word3, x.word4)))) =
      some (1, [(0xFF, 4, 0xB0, 0x4F), (0x4F, 3, 0x58, 0x17), (0x17, 1, 0x16, 1)]) ∧
    (reduce (0xB : Word 64) 1 0 0).map (fun r => (r.1, r.2.length)) = some (0, 3) ∧
    reduce (13 : Word 64) 3 3 0 = none := by decide

/-- V-R6, the second row of its engine walk: one iteration. -/
theorem test_reduce_step :
    nextHas 64 (step (.of { latched .reduce (operands 0xFF 0 11 3) with phase := .reda, wv := 0xFF, seg := 0 })) (fun t =>
      decide (t.phase = .reda ∧ t.wv = 0x4F ∧ t.trccnt = 1 ∧
        (Store.find t.trc 0).map (recordWord · 0) = some 1)) = true := by
  decide

/-! ## MULTIPLY -/

/-- SRC-3, V-M16 and a non-canonical operand. -/
theorem test_multiply_vectors :
    (multiply (5 : Word 64) 6 11 3).map (fun r => (r.1, r.2.map (fun x => (x.header, x.word4, x.word5)))) =
      some (3, [(0x4A, 10, 1), (0x3A, 2, 2), (0x3A, 4, 4)]) ∧
    multiply (0 : Word 64) 0 1 0 = some (0, []) ∧ multiply (8 : Word 64) 1 11 3 = none := by decide

/-- SRC-2: the second iteration of 3 times 2, record and loop variables. -/
theorem test_multiply_step :
    nextHas 64
      (step (.of { latched .multiply (operands 3 2 11 3) with phase := .mult, wa := 6, wb := 1, acc := 0, trccnt := 1 }))
      (fun t => decide (t.wa = 7 ∧ t.wb = 0 ∧ t.acc = 6 ∧ t.trccnt = 2 ∧
        Store.find t.trc 1 = some { header := 0x7A, word1 := 0, word2 := 6, word3 := 0, word4 := 12, word5 := 7,
                                    word6 := 6, word7 := 1 })) = true := by decide

/-! ## EVALUATE -/

/-- Program P-5, at `W = 8`: V-E12. -/
theorem test_evaluate_vector :
    (match evaluate 27 (0xFF : BitVec 8) 0xFF [0x78, 0x5E, 0x34, 0x2B, 0x78, 0x2B, 0x31] 4 with
      | .ok e => decide (e.product = 0xE ∧ e.aReduced = 0xD ∧ e.bReduced = 0xD ∧ e.modulus = 0x13 ∧
          e.trace.map Record.header = [1, 1, 1, 5, 5, 5, 0x7A, 0x4A, 0x3A, 0x3A])
      | .error _ => false) = true := by decide

/-- 43_evaluate.md R139 (c): the text `x^3+x+1` with `N = 4` is `ModulusDegree`, `M` unchanged. -/
theorem test_evaluate_step_fault :
    nextHas 64 (step (.of (latched .evaluate (withText textEleven (operands 1 1 9 4))))) (fun t =>
      decide (statusWord t.status = (0x76 : Word 64) ∧ t.m = 9 ∧ t.trccnt = 0)) = true := by decide

/-- Program P-5, at `W = 8` and `TEXT_DEPTH = 27`, before its first step (43_evaluate.md R138). -/
def evalSmall : Block 8 :=
  latched .evaluate (withText [0x78, 0x5E, 0x34, 0x2B, 0x78, 0x2B, 0x31]
    { Block.reset 8 27 with a := 0xFF, b := 0xFF, n := 4 })

/-- Program P-5, at `W = 8` and `TEXT_DEPTH = 27`: the whole run on the machine, V-E12. -/
theorem test_evaluate_small_run :
    nextHas 8 (runs 14 (.of evalSmall)) (fun t =>
      decide (t.res = 0xE ∧ t.resa = 0xD ∧ t.resb = 0xD ∧ t.m = 0x13 ∧ t.trccnt = 10 ∧
        statusWord t.status = (0x2 : Word 8) ∧ t.phase = .idle)) = true := by decide

/-! ## The host -/

/-- Program P-4, rows 22 to 25: a reserved address ignores writes; `TXT[0]` takes the low 8 bits. -/
theorem test_host_writes :
    hostWrite 0x0003 0x55 start = start ∧
    Memory.read (hostWrite 0x1000 0x1234 start).txt 0 = some 0x34 := by decide

/-- Program P-4, row 8: a `CMD` write while busy is dropped. -/
theorem test_host_write_busy_dropped :
    hostWrite 0x0000 3 (latched .multiply (operands 5 6 11 3)) = latched .multiply (operands 5 6 11 3) := by decide

/-- 30_encoding.md R85: `MULTIPLY` is a write of 4 to `CMD`. -/
theorem test_script_command : expandLine (.command .multiply) = [(.write 0x0000 4 : Event 64)] := by decide

/-! ## Witnesses: concrete states and operands that meet all the hypotheses of a statement together -/

/-- `nextHas` gives the next state. -/
theorem nextHas_elim {w : Nat} {o : MachineOutcome} {p : Block w → Bool} (h : nextHas w o p = true) :
    ∃ t : Block w, o = .next (.of t) ∧ p t = true := by
  match o, h with
  | .next ⟨w', t⟩, h =>
    simp only [nextHas] at h
    split at h
    · next e => subst e; exact ⟨t, rfl, h⟩
    · exact absurd h (by decide)

/-- The reference configuration is one the spec admits (00_scope.md R6, R7). -/
theorem legal_reference : Config.legal 64 512 := by decide

/-- The reset state with an agenda. -/
def hostAgenda (es : List (Event 64)) : Block 64 :=
  { start with agenda := es }

/-- MULTIPLY of 5 by 6 modulo `x^3+x+1` (SRC-3), just accepted. -/
def mulFive : Block 64 := latched .multiply (operands 5 6 11 3)

/-- REDUCE of 255 modulo `x^3+x+1` (V-R6), just accepted. -/
def redFF : Block 64 := latched .reduce (operands 0xFF 0 11 3)

/-- EVALUATE of 13 and 9 modulo the text `x^3+x+1`, just accepted. -/
def evalEleven : Block 64 := latched .evaluate (withText textEleven (operands 13 9 0 3))

/-- MULTIPLY in its loop, before the second iteration of 3 times 2. -/
def mulLoop : Block 64 := { latched .multiply (operands 3 2 11 3) with phase := .mult, wa := 6, wb := 1, seg := 2, trccnt := 1 }

/-- REDUCE in its loop, before the first iteration of V-R6. -/
def redLoop : Block 64 := { redFF with phase := .reda, wv := 0xFF }

/-- EVALUATE in its second loop, at its exit. -/
def evalLoopB : Block 64 := { evalEleven with phase := .redb, wv := 2, m := 11, seg := 1 }

theorem witness_CommandWordIsItsOpcode : 8 ≤ 8 ∧ 8 ≤ 64 ∧
    ([(0x70 : Word 8), 0xFF].all (fun v => decide (v.toNat % 16 = 0 ∨ 6 ≤ v.toNat % 16)) = true) ∧
    [(0 : Word 64), 6, 15, 16, 22].all (fun v => decide (v.toNat % 16 = 0 ∨ 6 ≤ v.toNat % 16)) = true ∧
    [(17 : Word 64), 0x8000000000000005].all (fun v => decide ((1 ≤ v.toNat % 16 ∧ v.toNat % 16 ≤ 5) ∧
      16 ≤ v.toNat)) = true := by decide

theorem witness_AddressMapFits : Config.legal 8 27 ∧ Config.legal 64 512 := by decide

/-- At the smallest and at the reference configuration; the reserved addresses at the ends of their ranges. -/
theorem witness_AddressMapIsComplete :
    (Config.legal 8 27 ∧ 26 < 27 ∧ 15 < 2 * 8 ∧ 7 < 8 ∧
      (0x1000 + 27 ≤ (0x101B : Addr).toNat ∧ (0x1FFF : Addr).toNat ≤ 0x1FFF) ∧ 0x2000 + 16 * 8 ≤ (0x2080 : Addr).toNat) ∧
    (Config.legal 64 512 ∧ (0x0003 : Addr).toNat = 3 ∧ (0x000B : Addr).toNat = 0x000B ∧
      (0x000E ≤ (0x000E : Addr).toNat ∧ (0x0FFF : Addr).toNat ≤ 0x0FFF) ∧
      (0x1000 + 512 ≤ (0x1200 : Addr).toNat ∧ (0x1FFF : Addr).toNat ≤ 0x1FFF) ∧ 511 < 512 ∧ 127 < 2 * 64 ∧
      0x2000 + 16 * 64 ≤ (0x2400 : Addr).toNat) := by decide

theorem witness_StepRunsLatchedCommand :
    (Config.legal 64 mulFive.depth ∧ decodeWord mulFive.cur = .ok .multiply ∧ mulFive.phase ≠ .idle ∧
      mulFive.agenda = []) ∧
    (∃ s : Block 8, Config.legal 8 s.depth ∧ decodeWord s.cur = .ok .multiply ∧ s.phase ≠ .idle ∧ s.agenda = [.engine]) ∧
    (Config.legal 64 start.depth ∧ start.phase = .idle ∧ start.agenda = []) ∧
    (Config.legal 64 (hostAgenda [.engine]).depth ∧ (hostAgenda [.engine]).phase = .idle ∧
      (hostAgenda [.engine]).agenda = [.engine]) :=
  ⟨⟨legal_reference, rfl, by decide, rfl⟩,
   ⟨{ latched .multiply (Block.reset 8 27) with agenda := [.engine] }, by decide, rfl, by decide, rfl⟩,
   ⟨legal_reference, by decide⟩, ⟨legal_reference, by decide⟩⟩

theorem consistent_mulFive : StatusConsistent mulFive := ⟨by decide, by decide, by decide, by decide⟩

theorem consistent_reset : StatusConsistent start := ⟨by decide, by decide, by decide, by decide⟩

theorem witness_PhaseAdvancesAlongListedEdges :
    Config.legal 64 mulFive.depth ∧ StatusConsistent mulFive ∧ Config.legal 64 start.depth ∧ StatusConsistent start ∧
    (∃ t : Block 64, perform .engine mulFive = .next (.of t)) ∧
    (∃ t : Block 64, perform (.write 0 4) start = .next (.of t)) ∧
    (∃ t : Block 64, perform (.read 1) start = .next (.of t)) ∧ (∃ t : Block 64, perform .poll mulFive = .next (.of t)) ∧
    ∃ t : Block 64, perform .reset mulFive = .next (.of t) :=
  ⟨legal_reference, consistent_mulFive, legal_reference, consistent_reset,
   (nextHas_elim (p := fun _ => true) (by decide)).imp fun _ h => h.1, ⟨_, rfl⟩, ⟨_, rfl⟩, ⟨_, rfl⟩, ⟨_, rfl⟩⟩

/-- At `N = 0` and at `N = W - 1` too. -/
theorem witness_ArithmeticCommandsStart :
    (Config.legal 64 mulFive.depth ∧ mulFive.phase = .start ∧ mulFive.n.toNat < 64 ∧
      deg mulFive.m = (mulFive.n.toNat : Int) ∧
      deg mulFive.a < (mulFive.n.toNat : Int) ∧ deg mulFive.b < (mulFive.n.toNat : Int)) ∧
    [((1 : Word 64), (0 : Word 64)), (0x8000000000000001, 63)].all (fun mn => decide (mn.2.toNat < 64 ∧
      deg mn.1 = (mn.2.toNat : Int) ∧ deg (0 : Word 64) < (mn.2.toNat : Int))) = true ∧
    (Config.legal 64 evalEleven.depth ∧ evalEleven.phase = .start ∧ evalEleven.n.toNat < 64 ∧
      evalEleven.txtlen.toNat ≤ evalEleven.depth ∧
      decodeText 64 (textOperand evalEleven) = .ok 11 ∧ deg (11 : Word 64) = (evalEleven.n.toNat : Int)) := by
  decide

theorem witness_IllegalCommandFaults :
    [(0 : Word 64), 6, 0x13, 0xFFFFFFFFFFFFFFFF].all (fun v => decide (Config.legal 64 (placeCommand v start).depth ∧
      (placeCommand v start).agenda = [] ∧
      (placeCommand v start).phase = .start ∧
      ((placeCommand v start).cur.toNat = 0 ∨ 6 ≤ (placeCommand v start).cur.toNat))) = true := by decide

theorem witness_DegreeRangeFaults :
    (∃ t : Block 64, Config.legal 64 redFF.depth ∧ redFF.phase = .start ∧ redFF.status.errcode = 0 ∧ redFF.n.toNat < 64 ∧
      exec .reduce (.of redFF) = .next (.of t)) ∧
    [Instr.reduce, .multiply, .evaluate].all (fun i => [(64 : Word 64), 0xFFFFFFFFFFFFFFFF].all (fun n => decide
      (Config.legal 64 (latched i (operands 1 1 1 n)).depth ∧ (latched i (operands 1 1 1 n)).phase = .start ∧
        64 ≤ (latched i (operands 1 1 1 n)).n.toNat ∧
        (i = .reduce ∨ i = .multiply ∨ i = .evaluate)))) = true :=
  ⟨(nextHas_elim (p := fun _ => true) (by decide)).imp fun _ h => ⟨legal_reference, rfl, rfl, by decide, h.1⟩, by decide⟩

theorem witness_TextLengthFaults :
    (∃ s : Block 64, Config.legal 64 s.depth ∧ s.phase = .start ∧ s.txtlen.toNat = 512 + 1 ∧ s.depth < s.txtlen.toNat ∧
      s.n.toNat < 64) ∧
    (∃ s : Block 64, Config.legal 64 s.depth ∧ s.phase = .start ∧ s.txtlen = BitVec.allOnes 64 ∧
      s.depth < s.txtlen.toNat) ∧
    (∃ s t : Block 64, Config.legal 64 s.depth ∧ s.phase = .start ∧ s.status.errcode = 0 ∧ s.txtlen.toNat = 512 ∧
      exec .encode (.of s) = .next (.of t)) ∧
    (∃ s : Block 64, Config.legal 64 s.depth ∧ s.phase = .start ∧ s.txtlen = 0) :=
  ⟨⟨{ latched .decode start with txtlen := 513 }, by decide⟩,
   ⟨{ latched .decode start with txtlen := 0xFFFFFFFFFFFFFFFF }, by decide⟩,
   ⟨{ latched .encode start with txtlen := 512 }, _, legal_reference, rfl, rfl, by decide, rfl⟩,
   ⟨latched .decode start, legal_reference, rfl, rfl⟩⟩

theorem witness_ModulusDegreeFaults :
    [((0 : Word 64), (0 : Word 64)), (11, 2), (11, 4), (1, 63)].all (fun mn => decide
      (Config.legal 64 (latched .reduce (operands 1 1 mn.1 mn.2)).depth ∧
        (latched .reduce (operands 1 1 mn.1 mn.2)).phase = .start ∧ mn.2.toNat < 64 ∧
        (deg mn.1 ≠ (mn.2.toNat : Int) ∨ mn.1 = 0))) = true ∧
    (∃ s : Block 64, Config.legal 64 s.depth ∧ s.phase = .start ∧ s.n.toNat < 64 ∧ s.txtlen.toNat ≤ s.depth ∧
      decodeText 64 (textOperand s) = .ok 11 ∧ deg (11 : Word 64) ≠ (s.n.toNat : Int)) :=
  ⟨by decide, latched .evaluate (withText textEleven (operands 1 1 9 4)), by decide⟩

theorem witness_NonCanonicalFaults :
    [((8 : Word 64), (7 : Word 64)), (7, 8), (8, 8)].all (fun ab =>
      let s := latched .multiply (operands ab.1 ab.2 11 3)
      decide (Config.legal 64 s.depth ∧ s.phase = .start ∧ s.n.toNat < 64 ∧ deg s.m = (s.n.toNat : Int) ∧
        ((s.n.toNat : Int) ≤ deg s.a ∨ (s.n.toNat : Int) ≤ deg s.b))) = true ∧
    (∃ t : Block 64, Config.legal 64 redFF.depth ∧ redFF.phase = .start ∧ redFF.status.errcode = 0 ∧
      exec .reduce (.of redFF) = .next (.of t)) ∧
    (∃ t : Block 64, Config.legal 64 evalEleven.depth ∧ evalEleven.phase = .start ∧ evalEleven.status.errcode = 0 ∧
      exec .evaluate (.of evalEleven) = .next (.of t)) := by
  refine ⟨by decide, ?_, ?_⟩
  · exact (nextHas_elim (p := fun _ => true) (by decide)).imp fun _ h => ⟨legal_reference, rfl, rfl, h.1⟩
  · exact (nextHas_elim (p := fun _ => true) (by decide)).imp fun _ h => ⟨legal_reference, rfl, rfl, h.1⟩

theorem witness_TextFaultsReportTheTerm :
    (∃ s : Block 64, Config.legal 64 s.depth ∧ s.phase = .start ∧ s.txtlen.toNat ≤ s.depth ∧
      decodeText 64 (textOperand s) = .err .malformedExponent 0 ∧ s.n.toNat < 64) ∧
    (∃ s : Block 64, Config.legal 64 s.depth ∧ s.phase = .start ∧ s.txtlen.toNat ≤ s.depth ∧
      decodeText 64 (textOperand s) = .err .malformedTerm 3) ∧
    (∃ s t : Block 64, Config.legal 64 s.depth ∧ s.phase = .start ∧ s.status.errcode = 0 ∧
      exec .decode (.of s) = .next (.of t) ∧ t.status.errcode = 5) := by
  refine ⟨⟨latched .decode (withText textBadExponent start), by decide⟩,
   ⟨latched .decode (withText (textEleven ++ [0x2B]) start), by decide⟩, ?_⟩
  obtain ⟨t, ht, hp⟩ := nextHas_elim (w := 64) (o := exec .decode (.of (latched .decode (withText textBadExponent start))))
    (p := fun t => decide (t.status.errcode = 5)) (by decide)
  exact ⟨_, t, legal_reference, rfl, rfl, ht, of_decide_eq_true hp⟩

/-- A fault just found, and an earlier one that a read leaves as it was. -/
theorem witness_FaultsArePrecise :
    (∃ s t : Block 64, Config.legal 64 s.depth ∧ StatusConsistent s ∧ perform .engine s = .next (.of t) ∧
      t.status.err = true) ∧
    (∃ s t : Block 64, Config.legal 64 s.depth ∧ StatusConsistent s ∧ perform (.read 1) s = .next (.of t) ∧
      t.status.err = true) := by
  obtain ⟨t, ht, he⟩ :=
    nextHas_elim (w := 64) (o := perform .engine (latched .reduce start)) (p := fun t => t.status.err) (by decide)
  exact ⟨⟨_, t, legal_reference, ⟨by decide, by decide, by decide, by decide⟩, ht, he⟩,
    ⟨raise .illegalCommand 0 start, _, legal_reference, ⟨by decide, by decide, by decide, by decide⟩, rfl, rfl⟩⟩

theorem witness_EncodeCompletes :
    (Config.legal 64 (latched .encode (operands 11 0 0 0)).depth ∧ (latched .encode (operands 11 0 0 0)).phase = .start) ∧
    (Config.legal 8 (latched .encode (Block.reset 8 27)).depth ∧
      (latched .encode (Block.reset 8 27)).phase = .start) := by
  decide

theorem witness_EncodeTextIsCanonical : (1 : BitVec 8) ≠ 0 ∧ (BitVec.allOnes 64) ≠ 0 ∧ 2 ≤ 2 ∧ 1 ≤ 1 := by decide

theorem witness_DecodeEncodeRoundTrip : (1 : BitVec 8) ≠ 0 ∧ (0x80 : BitVec 8) ≠ 0 := by decide

theorem witness_DecodeSucceedsOnTheGrammar : 8 ≤ 8 ∧ textWf 8 textEleven = true ∧ textWf 8 [chZero] = false ∧
    (0x0B : Byte) ∈ ([0x09, 0x0A, 0x0B, 0x0C, 0x0D, 0x20] : List Byte) ∧
    (0x0E : Byte) ∉ ([0x09, 0x0A, 0x0B, 0x0C, 0x0D, 0x20] : List Byte) := by decide

/-- The exponents 7 and 8 at `W = 8`; 99 followed by a letter, and the two bytes next to the digits; the clauses of the last
part. -/
theorem witness_DecodeCombinesTheTerms : 8 ≤ 8 ∧ digitsValue [0x37] < 8 ∧ 8 ≤ digitsValue [0x38] ∧
    ([[0x39, 0x39, 0x61], [0x2F], [0x3A]] : List (List Byte)).all
      (fun d => d.any fun c => decide (c.toNat < 0x30 ∨ 0x39 < c.toNat)) = true ∧
    ([0x30, 0x39] : List Byte).all (fun c => decide (0x30 ≤ c.toNat ∧ c.toNat ≤ 0x39)) = true ∧
    (([0x30] : List Byte) ≠ [0x31] ∧ ([0x30] : List Byte) ≠ [0x78] ∧ ∀ d : List Byte, [0x30] ≠ 0x78 :: 0x5E :: d) ∧
    decodeText 8 [0x78, 0x5E, 0x37] = .ok 128 ∧ decodeText 8 textBadExponent = .err .malformedExponent 0 ∧
    decodeText 8 (textEleven ++ [0x2B]) = .err .malformedTerm 3 :=
  ⟨by decide, by decide, by decide, by decide, by decide, ⟨by decide, by decide, fun d h => by simp at h⟩, by decide⟩

/-- The texts `x+x` and `x` (95_test_vectors.md SRC-6). -/
theorem witness_DecodeDependsOnTheTermSet :
    8 ≤ 8 ∧ textWf 8 [0x78, 0x2B, 0x78] = true ∧ textWf 8 [0x78] = true ∧
    (∀ p : Nat, hasExponent 8 [0x78, 0x2B, 0x78] p ↔ hasExponent 8 [0x78] p) ∧
    decodeText 8 [0x78, 0x2B, 0x78] = .ok 2 := by
  have h : splitTerms (stripSpace [0x78, 0x2B, 0x78]) = [[0x78], [0x78]] := by decide
  have h' : splitTerms (stripSpace [0x78]) = [[0x78]] := by decide
  refine ⟨by decide, by decide, by decide, fun p => ?_, by decide⟩
  rw [hasExponent, hasExponent, h, h']
  simp

theorem witness_DecodeCompletes : ∃ s : Block 64, Config.legal 64 s.depth ∧ s.phase = .start ∧ s.txtlen.toNat ≤ s.depth ∧
    decodeText 64 (textOperand s) = .ok 11 :=
  ⟨latched .decode (withText textEleven start), by decide⟩

theorem witness_RedStepLowersTheDegree : deg (11 : Word 64) = ((3 : Nat) : Int) ∧ ((3 : Nat) : Int) ≤ deg (13 : Word 64) ∧
    deg (1 : BitVec 8) = ((0 : Nat) : Int) ∧ ((0 : Nat) : Int) ≤ deg (0xFF : BitVec 8) := by decide

theorem witness_ReduceIsItsLoop : deg (11 : BitVec 8) = ((3 : Nat) : Int) ∧ deg (6 : BitVec 8) < ((3 : Nat) : Int) ∧
    ((3 : Nat) : Int) ≤ deg (8 : BitVec 8) ∧ 8 ≤ 8 := by decide

theorem witness_ReduceTerminates :
    (∃ r tr, reduce (0xFF : BitVec 8) 11 3 0 = some (r, tr)) ∧ (∃ r tr, reduce (0 : BitVec 8) 1 0 1 = some (r, tr)) ∧
    7 < 8 :=
  ⟨⟨_, _, rfl⟩, ⟨_, _, rfl⟩, by decide⟩

theorem witness_ReduceReturnsACanonicalValue :
    (∃ r tr, reduce (0xFF : BitVec 8) 11 3 0 = some (r, tr)) ∧ deg (11 : BitVec 8) = ((3 : Nat) : Int) ∧
    deg (7 : BitVec 8) < ((3 : Nat) : Int) :=
  ⟨⟨_, _, rfl⟩, by decide, by decide⟩

theorem witness_ReduceIsTheRemainder : ∃ r tr, reduce (0xFF : BitVec 8) 11 3 0 = some (r, tr) ∧
    deg r < ((3 : Nat) : Int) ∧ ∃ q : BitVec 8, (0xFF ^^^ r).setWidth (2 * 8) = clmul q 11 :=
  ⟨_, _, rfl, by decide, 0x1A, by decide⟩

theorem witness_ReduceIsIdempotentAndLinear : deg (11 : BitVec 8) = ((3 : Nat) : Int) ∧
    (∃ r tr, reduce (0xFF : BitVec 8) 11 3 0 = some (r, tr)) ∧ (∃ r tr, reduce (0x58 : BitVec 8) 11 3 0 = some (r, tr)) ∧
    4 ≤ 8 - 1 - 3 :=
  ⟨by decide, ⟨_, _, rfl⟩, ⟨_, _, rfl⟩, by decide⟩

theorem witness_ReducerIterationAppendsItsRecord :
    Config.legal 64 redLoop.depth ∧ redLoop.phase = .reda ∧ (redLoop.n.toNat : Int) ≤ deg redLoop.wv ∧
      redLoop.trccnt.toNat < Config.traceDepth 64 ∧
    (∃ s : Block 64, Config.legal 64 s.depth ∧ s.phase = .redb ∧ (s.n.toNat : Int) ≤ deg s.wv ∧
      s.trccnt.toNat + 1 = Config.traceDepth 64) :=
  ⟨legal_reference, by decide, by decide, by decide, { evalLoopB with wv := 8, trccnt := 127 }, by decide⟩

theorem witness_ReduceCompletes : ∃ s : Block 64, Config.legal 64 s.depth ∧ s.phase = .reda ∧
    deg s.wv < (s.n.toNat : Int) :=
  ⟨{ redLoop with wv := 7 }, by decide⟩

theorem witness_ReduceRunsToItsFunction :
    (Config.legal 64 redFF.depth ∧ redFF.agenda = [] ∧ redFF.phase = .start ∧ redFF.cur = 3 ∧ redFF.n.toNat < 64 ∧
      deg redFF.m = (redFF.n.toNat : Int)) ∧
    (∃ s : Block 64, Config.legal 64 s.depth ∧ s.agenda = [] ∧ s.phase = .start ∧ s.cur = 3 ∧ s.n = 63 ∧ s.n.toNat < 64 ∧
      deg s.m = (s.n.toNat : Int)) :=
  ⟨by decide, latched .reduce (operands 1 0 0x8000000000000000 63), by decide⟩

theorem witness_MulStepKeepsACanonical : 8 ≤ 8 ∧ deg (11 : BitVec 8) = ((3 : Nat) : Int) ∧
    deg (6 : BitVec 8) < ((3 : Nat) : Int) ∧ deg (0x80 : BitVec 8) = ((7 : Nat) : Int) ∧
    deg (0x7F : BitVec 8) < ((7 : Nat) : Int) := by decide

theorem witness_MultiplyIsItsLoop : (0 : BitVec 8) = 0 ∧ (6 : BitVec 8) ≠ 0 ∧ deg (11 : BitVec 8) = ((3 : Nat) : Int) ∧
    deg (5 : BitVec 8) < ((3 : Nat) : Int) ∧ deg (6 : BitVec 8) < ((3 : Nat) : Int) := by decide

theorem witness_MultiplyRunsOncePerBit : 8 ≤ 8 ∧ (∃ p tr, multiply (5 : BitVec 8) 6 11 3 = some (p, tr) ∧
    ∃ x, tr[2]? = some x) ∧ (∃ p, multiply (5 : BitVec 8) 0 11 3 = some (p, [])) :=
  ⟨by decide, ⟨_, _, rfl, _, rfl⟩, _, rfl⟩

theorem witness_MultiplyIsCanonicalAndUnital : deg (11 : BitVec 8) = ((3 : Nat) : Int) ∧
    deg (5 : BitVec 8) < ((3 : Nat) : Int) ∧ (∃ p tr, multiply (5 : BitVec 8) 6 11 3 = some (p, tr)) ∧ 1 ≤ 3 ∧
    deg (2 : BitVec 8) = ((1 : Nat) : Int) ∧ deg (1 : BitVec 8) < ((1 : Nat) : Int) :=
  ⟨by decide, by decide, ⟨_, _, rfl⟩, by decide, by decide, by decide⟩

theorem witness_MultiplyIsCommutative : ∃ p tr, multiply (5 : BitVec 8) 6 11 3 = some (p, tr) := ⟨_, _, rfl⟩

theorem witness_MultiplyIsTheModularProduct : ∃ p tr, multiply (0x7F : BitVec 8) 2 0x81 7 = some (p, tr) := ⟨_, _, rfl⟩

theorem witness_MultiplierIterationAppendsItsRecord :
    (Config.legal 64 mulLoop.depth ∧ mulLoop.phase = .mult ∧ mulLoop.wb ≠ 0 ∧
      mulLoop.trccnt.toNat < Config.traceDepth 64) ∧
    (∃ s : Block 64, Config.legal 64 s.depth ∧ s.phase = .mult ∧ s.wb ≠ 0 ∧ s.trccnt.toNat + 1 = Config.traceDepth 64) :=
  ⟨by decide, { mulLoop with trccnt := 127 }, by decide⟩

theorem witness_MultiplyAndEvaluateComplete : ∃ s : Block 64, Config.legal 64 s.depth ∧ s.phase = .mult ∧ s.wb = 0 :=
  ⟨{ mulLoop with wb := 0 }, by decide⟩

theorem witness_MultiplierLoopInvariants : ∃ p tr, Config.legal 64 mulFive.depth ∧ mulFive.agenda = [] ∧
    mulFive.phase = .start ∧ mulFive.cur = 4 ∧
    multiply mulFive.a mulFive.b mulFive.m mulFive.n.toNat = some (p, tr) ∧ 3 ≤ tr.length :=
  ⟨_, _, legal_reference, rfl, rfl, rfl, rfl, by decide⟩

theorem witness_MultiplyRunsToItsFunction :
    (∃ p tr, Config.legal 64 mulFive.depth ∧ mulFive.agenda = [] ∧ mulFive.phase = .start ∧ mulFive.cur = 4 ∧
      multiply mulFive.a mulFive.b mulFive.m mulFive.n.toNat = some (p, tr)) ∧
    (∃ (s : Block 64) (p : Word 64), Config.legal 64 s.depth ∧ s.agenda = [] ∧ s.phase = .start ∧ s.cur = 4 ∧ s.b = 0 ∧
      multiply s.a s.b s.m s.n.toNat = some (p, [])) :=
  ⟨⟨_, _, legal_reference, rfl, rfl, rfl, rfl⟩,
   latched .multiply (operands 0 0 1 0), _, legal_reference, rfl, rfl, rfl, rfl, rfl⟩

theorem witness_EvaluatePassesBetweenSegments :
    (∃ s : Block 64, Config.legal 64 s.depth ∧ deg s.wv < (s.n.toNat : Int) ∧ s.phase = .reda) ∧
    (Config.legal 64 evalLoopB.depth ∧ deg evalLoopB.wv < (evalLoopB.n.toNat : Int) ∧ evalLoopB.phase = .redb) :=
  ⟨⟨{ evalLoopB with phase := .reda, seg := 0 }, by decide⟩, by decide⟩

theorem witness_EvaluateIsItsComposition :
    8 ≤ 8 ∧ (7 < 8 ∧ 27 < (List.replicate 28 chX).length) ∧
    (0 < 8 ∧ textBadExponent.length ≤ 27 ∧ decodeText 8 textBadExponent = .err .malformedExponent 0) ∧
    (4 < 8 ∧ textEleven.length ≤ 27 ∧ decodeText 8 textEleven = .ok 11 ∧ deg (11 : BitVec 8) ≠ ((4 : Nat) : Int)) ∧
    deg (11 : BitVec 8) = ((3 : Nat) : Int) := by decide

theorem witness_EvaluateRunsToItsFunction :
    (Config.legal 64 evalEleven.depth ∧ evalEleven.agenda = [] ∧ evalEleven.phase = .start ∧ evalEleven.cur = 5) ∧
    (∃ e, evaluate evalEleven.depth evalEleven.a evalEleven.b (textOperand evalEleven) evalEleven.n.toNat = .ok e) ∧
    (∃ s : Block 64, Config.legal 64 s.depth ∧ s.agenda = [] ∧ s.phase = .start ∧ s.cur = 5 ∧
      evaluate s.depth s.a s.b (textOperand s) s.n.toNat = .error (.modulusDegree, 0)) :=
  ⟨by decide, ⟨_, rfl⟩, latched .evaluate (withText textEleven (operands 1 1 9 4)), legal_reference, rfl, rfl, rfl, rfl⟩

theorem witness_EvaluateIsTheModularProduct : ∃ t : Block 64, Config.legal 64 evalEleven.depth ∧ evalEleven.agenda = [] ∧
    evalEleven.phase = .start ∧ evalEleven.cur = 5 ∧ evalEleven.status = statusAccepted ∧
    runs 9 (.of evalEleven) = .next (.of t) ∧ t.phase = .idle ∧ t.status.err = false := by
  obtain ⟨t, ht, hp⟩ := nextHas_elim (w := 64) (o := runs 9 (.of evalEleven))
    (p := fun t => decide (t.phase = .idle ∧ t.status.err = false)) (by decide)
  have := of_decide_eq_true hp
  exact ⟨t, legal_reference, rfl, rfl, rfl, rfl, ht, this.1, this.2⟩

/-- A state with operands for every command and the text `x^3+x+1`. -/
def ready : Block 64 := withText textEleven (operands 13 9 0 3)

/-- EVALUATE finishes, and so do DECODE (without fault) and the REDUCE of the script that follows it. -/
theorem witness_EvaluateEqualsItsCommands : Config.legal 64 ready.depth ∧
    ready.phase = .idle ∧ ready.n.toNat < 64 ∧
    (∃ t, finishes 5 ready t ∧ t.status.err = false) ∧ (∃ t, finishes 2 ready t ∧ t.status.err = false) ∧
    (∃ t, finishes 3 { ready with m := 11 } t ∧ t.status.err = false) := by
  refine ⟨legal_reference, rfl, by decide, ?_, ?_, ?_⟩
  · obtain ⟨t, h, hp⟩ := nextHas_elim (w := 64) (o := runs 9 (.of (placeCommand 5 ready)))
      (p := fun t => decide (t.phase = .idle ∧ t.status.err = false)) (by decide)
    exact ⟨t, ⟨9, h, (of_decide_eq_true hp).1⟩, (of_decide_eq_true hp).2⟩
  · obtain ⟨t, h, hp⟩ := nextHas_elim (w := 64) (o := runs 1 (.of (placeCommand 2 ready)))
      (p := fun t => decide (t.phase = .idle ∧ t.status.err = false)) (by decide)
    exact ⟨t, ⟨1, h, (of_decide_eq_true hp).1⟩, (of_decide_eq_true hp).2⟩
  · obtain ⟨t, h, hp⟩ := nextHas_elim (w := 64) (o := runs 3 (.of (placeCommand 3 { ready with m := 11 })))
      (p := fun t => decide (t.phase = .idle ∧ t.status.err = false)) (by decide)
    exact ⟨t, ⟨3, h, (of_decide_eq_true hp).1⟩, (of_decide_eq_true hp).2⟩

/-- Two states that agree on MULTIPLY's inputs and on nothing else of note. -/
theorem witness_ResultsDependOnNamedInputsOnly : ∃ s s' t : Block 64, s ≠ s' ∧ Config.legal 64 s.depth ∧
    s'.depth = s.depth ∧ s.agenda = [] ∧ s'.agenda = [] ∧
    s.phase = .start ∧ s'.phase = .start ∧ s.status = statusAccepted ∧ s'.status = statusAccepted ∧ s.errinfo = 0 ∧
    s'.errinfo = 0 ∧ s.cur = 4 ∧ s'.cur = s.cur ∧ s'.a = s.a ∧ s'.b = s.b ∧ s'.m = s.m ∧ s'.n = s.n ∧
    runs 5 (.of s) = .next (.of t) ∧ t.phase = .idle ∧ t.status.err = false := by
  obtain ⟨t, h, hp⟩ := nextHas_elim (w := 64) (o := runs 5 (.of mulFive))
    (p := fun t => decide (t.phase = .idle ∧ t.status.err = false)) (by decide)
  exact ⟨mulFive,
    { mulFive with acc := 7, res := 9, txtlen := 3 }, t, by decide, legal_reference, rfl, rfl, rfl, rfl, rfl,
    rfl, rfl, rfl, rfl, rfl, rfl, rfl, rfl, rfl, rfl, h, (of_decide_eq_true hp).1, (of_decide_eq_true hp).2⟩

/-- Every address is read by an idle state; so is a written cell and a valid record. -/
theorem witness_IdleReadsReturnTheRegister :
    (∀ addr : Addr, ∃ s : Block 64, Config.legal 64 s.depth ∧ s.status.busy = false ∧ s.agenda = [.read addr]) ∧
    (∃ (s : Block 64) (c : Byte), Config.legal 64 s.depth ∧ s.status.busy = false ∧ s.agenda = [.read 0x11FF] ∧
      placeAt 64 s.depth 0x11FF = .txt 511 ∧ Memory.read s.txt 511 = some c) ∧
    (∃ (s : Block 64) (r : Record 64), Config.legal 64 s.depth ∧ s.status.busy = false ∧ s.agenda = [.read 0x2007] ∧
      placeAt 64 s.depth 0x2007 = .trc 0 7 ∧ 0 < s.trccnt.toNat ∧ Store.find s.trc 0 = some r) :=
  ⟨fun addr => ⟨hostAgenda [.read addr], legal_reference, rfl, rfl⟩,
   ⟨{ hostAgenda [.read 0x11FF] with txt := [(511, 0x78)] }, 0x78, legal_reference, rfl, rfl, by decide, rfl⟩,
   ⟨{ hostAgenda [.read 0x2007] with trc := [(0, redRecord 0 8 (redStep 8 11 3))], trccnt := 1 }, _, legal_reference, rfl,
     rfl, by decide, by decide, rfl⟩⟩

theorem witness_BusyReadsAreDefinedForOperands : ∀ addr : Addr, ∃ s : Block 64, Config.legal 64 s.depth ∧
    StatusConsistent s ∧ s.status.busy = true ∧ s.agenda = [.read addr] :=
  fun addr => ⟨{ mulFive with agenda := [.read addr] }, legal_reference,
    ⟨consistent_mulFive.1, consistent_mulFive.2, consistent_mulFive.3, consistent_mulFive.4⟩, rfl, rfl⟩

theorem witness_IdleWritesStore :
    (∀ p ∈ [Place.a, .b, .m, .n, .txtlen], ∃ s : Block 64, Config.legal 64 s.depth ∧ s.status.busy = false ∧
      s.agenda = [.write (addrOf p) 7]) ∧
    (∀ i ∈ [0, 511], ∃ s : Block 64, i < s.depth ∧ Config.legal 64 s.depth ∧ s.status.busy = false ∧
      s.agenda = [.write (addrOf (.txt i)) 0x1234]) :=
  ⟨fun p _ => ⟨hostAgenda [.write (addrOf p) 7], legal_reference, rfl, rfl⟩,
   fun i hi => ⟨hostAgenda [.write (addrOf (.txt i)) 0x1234], by revert i; decide, legal_reference, rfl, rfl⟩⟩

theorem witness_OtherWritesAreIgnored :
    (∃ s : Block 64, Config.legal 64 s.depth ∧ s.agenda = [.write 0x0004 7] ∧ s.status.busy = true) ∧
    (∀ addr : Addr, Config.legal 64 (hostAgenda [.write addr 7]).depth ∧
      (hostAgenda [.write addr 7]).agenda = [.write addr 7]) ∧
    placeAt 64 512 0x0001 = .status ∧ placeAt 64 512 0x0002 = .errinfo ∧ placeAt 64 512 0x0003 = .reserved 0x0003 ∧
    placeAt 64 512 0x0008 = .res ∧ placeAt 64 512 0x0009 = .resa ∧ placeAt 64 512 0x000A = .resb ∧
    placeAt 64 512 0x000D = .trccnt ∧ placeAt 64 512 0x23FF = .trc 127 7 :=
  ⟨⟨{ mulFive with agenda := [.write 0x0004 7] }, legal_reference, rfl, rfl⟩, fun _ => ⟨legal_reference, rfl⟩, by decide⟩

theorem witness_CommandWriteIsAccepted : Config.legal 64 (hostAgenda [.write 0x0000 0x15]).depth ∧
    (hostAgenda [.write 0x0000 0x15]).status.busy = false ∧
    (hostAgenda [.write 0x0000 0x15]).agenda = [.write 0x0000 0x15] := by decide

theorem inv_reset : Inv start :=
  ⟨legal_reference, consistent_reset, by decide, by decide, by decide, by decide, by decide, by decide, by decide⟩

theorem inv_mulFive : Inv mulFive :=
  ⟨legal_reference, consistent_mulFive, by decide, by decide, by decide, by decide, by decide, by decide, by decide⟩

/-- MULTIPLY just accepted, and the host about to read `STATUS` and write `A` before two turns of the engine. -/
def interleaved : Block 64 := { mulFive with agenda := [.read 1, .write 4 7, .engine, .engine] }

theorem inv_interleaved : Inv interleaved :=
  ⟨legal_reference, ⟨by decide, by decide, by decide, by decide⟩, by decide, by decide, by decide, by decide, by decide,
   by decide, by decide⟩

theorem alone_interleaved : engineAlone interleaved = mulFive := rfl

theorem busy_mulFive : ∀ k, k ≤ 1 → ∃ u : Block 64, runs k (.of mulFive) = .next (.of u) ∧ u.phase ≠ .idle
  | 0, _ => ⟨mulFive, rfl, by decide⟩
  | 1, _ => by
    obtain ⟨u, h, hp⟩ := nextHas_elim (w := 64) (o := runs 1 (.of mulFive))
      (p := fun u => decide (u.phase ≠ .idle)) (by decide)
    exact ⟨u, h, of_decide_eq_true hp⟩
  | k + 2, h => absurd h (by omega)

theorem witness_InterleavingDoesNotMatter : ∃ (s : Block 64) (es : List (Event 64)), Inv s ∧
    (∀ e ∈ es, plainEvent e = true) ∧
    s.agenda = es ++ [.engine] ∧ engineTurns es = 1 ∧
    (∀ k : Nat, k ≤ engineTurns es → ∃ u : Block 64, runs k (.of (engineAlone s)) = .next (.of u) ∧ u.phase ≠ .idle) := by
  refine ⟨interleaved, [.read 1, .write 4 7, .engine], inv_interleaved, by decide, rfl, by decide, fun k hk => ?_⟩
  rw [alone_interleaved]
  exact busy_mulFive k hk

/-- With a command running and without. -/
theorem witness_ResetClearsTheBlock : (Config.legal 64 (hostAgenda [.reset]).depth ∧
    (hostAgenda [.reset]).agenda = [.reset]) ∧
    ∃ s : Block 64, Config.legal 64 s.depth ∧ s.agenda = [.reset] ∧ s.status.busy = true :=
  ⟨⟨legal_reference, rfl⟩, { mulFive with agenda := [.reset] }, legal_reference, rfl, rfl⟩

theorem witness_ResetSatisfiesTheInvariant : Config.legal 8 27 ∧ Config.legal 64 512 := by decide

theorem witness_StatusAgreesWithPhaseAlways : ∃ s t : State, StatusConsistent s.block ∧ step s = .next t := by
  obtain ⟨t, h, _⟩ := nextHas_elim (w := 64) (o := step (.of mulFive)) (p := fun _ => true) (by decide)
  exact ⟨.of mulFive, .of t, consistent_mulFive, h⟩

theorem witness_StepKeepsTheInvariant : ∃ s t : State, Inv s.block ∧ step s = .next t := by
  obtain ⟨t, h, _⟩ := nextHas_elim (w := 64) (o := step (.of mulFive)) (p := fun _ => true) (by decide)
  exact ⟨.of mulFive, .of t, inv_mulFive, h⟩

theorem witness_InvariantStatesNeverStop : Inv start ∧ Inv mulFive := ⟨inv_reset, inv_mulFive⟩

theorem witness_EveryCommandCompletes : Inv mulFive ∧ mulFive.agenda = [] := ⟨inv_mulFive, rfl⟩

theorem witness_WaitAlwaysEnds : ∃ s : Block 64, Inv s ∧ s.agenda = [.poll] :=
  ⟨{ mulFive with agenda := [.poll] },
   ⟨legal_reference, ⟨consistent_mulFive.1, consistent_mulFive.2, consistent_mulFive.3, consistent_mulFive.4⟩, by decide,
     by decide, by decide, by decide, by decide, by decide, by decide⟩, rfl⟩

end Sys2Proof.Tests
end

/-! # Independence (00_scope.md R19)

Two runs of one command word that agree on the inputs its rule names go in lockstep: `Lockstep c s s'` relates the two
states in every phase, every step keeps it, and in IDLE it gives the results. -/

namespace Sys2Proof.Independence

open Sys2Proof.Machine Sys2Proof.Safety

variable {w : Nat} {c : Word w} {s s' : Block w}

/-! ## The latched word and its command -/

theorem opcode_of_opcodeMap {opc : BitVec 4} {i : Instr} (h : opcodeMap opc = some i) : opc = opcode i := by
  unfold opcodeMap at h
  split_ifs at h with h1 h2 h3 h4 h5 <;> cases h <;> assumption

/-- A word that decodes to a command has that command's opcode and nothing above it (30_encoding.md R71). -/
theorem fields_of_decodeWord {v : Word w} {i : Instr} (h : decodeWord v = .ok i) :
    opcField v = opcode i ∧ zeroField v = 0 := by
  unfold decodeWord at h
  split at h
  · cases h
  · next j hj =>
    split at h
    · next hz => cases h; exact ⟨opcode_of_opcodeMap hj, hz⟩
    · cases h

/-- A word that decodes to a command is that command's opcode, zero-extended (30_encoding.md R70, R71). -/
theorem eq_encodeWord_of_decodeWord {v : Word w} {i : Instr} (h : decodeWord v = .ok i) : v = encodeWord w i := by
  obtain ⟨hopc, hzero⟩ := fields_of_decodeWord h
  ext k hk
  rw [encodeWord, ← hopc, BitVec.getElem_setWidth, opcField, BitVec.getLsbD_extractLsb', Nat.zero_add]
  by_cases hk4 : k < 4
  · rw [decide_eq_true hk4, Bool.true_and, BitVec.getLsbD_eq_getElem hk]
  · have hbit : (zeroField v).getLsbD (k - 4) = false := by rw [hzero]; exact BitVec.getLsbD_zero
    rw [zeroField, BitVec.getLsbD_extractLsb', decide_eq_true (show k - 4 < w - 4 by omega), Bool.true_and,
      Nat.add_sub_cancel' (Nat.le_of_not_lt hk4), BitVec.getLsbD_eq_getElem hk] at hbit
    rw [hbit, decide_eq_false hk4, Bool.false_and]

/-- A command's word as the number the rules write. -/
theorem encodeWord_eq_ofNat (i : Instr) : encodeWord w i = BitVec.ofNat w (opcode i).toNat :=
  BitVec.eq_of_toNat_eq (by rw [encodeWord, BitVec.toNat_setWidth, BitVec.toNat_ofNat])

theorem eq_ofNat_of_decodeWord {v : Word w} {i : Instr} (h : decodeWord v = .ok i) :
    v = BitVec.ofNat w (opcode i).toNat :=
  (eq_encodeWord_of_decodeWord h).trans (encodeWord_eq_ofNat i)

/-- Small numbers are different words at every width the spec admits. -/
theorem ofNat_inj_of_lt (hw : 8 ≤ w) {a b : Nat} (ha : a < 256) (hb : b < 256) :
    BitVec.ofNat w a = BitVec.ofNat w b ↔ a = b := by
  have h : 2 ^ 8 ≤ 2 ^ w := Nat.pow_le_pow_right (by decide) hw
  rw [← BitVec.toNat_inj, BitVec.toNat_ofNat, BitVec.toNat_ofNat, Nat.mod_eq_of_lt (by omega),
    Nat.mod_eq_of_lt (by omega)]

/-! ## The engine's turn as one phase step -/

/-- The first step of what the latched word decodes to. -/
def firstStep (d : Except IllegalWord Instr) : Block w → StepOutcome w :=
  match d with
  | .ok .encode => encodeFirst
  | .ok .decode => decodeFirst
  | .ok .reduce => reduceFirst
  | .ok .multiply => multiplyFirst
  | .ok .evaluate => evaluateFirst
  | .error _ => illegalFirst

/-- The exit of REDA of what the latched word decodes to. -/
def exitStep (d : Except IllegalWord Instr) : Block w → StepOutcome w :=
  match d with
  | .ok .encode => noExit
  | .ok .decode => noExit
  | .ok .reduce => reduceExit
  | .ok .multiply => noExit
  | .ok .evaluate => evaluateExitA
  | .error _ => noExit

theorem engineTurn_eq_lift (h : s.phase ≠ .idle) : engineTurn (.of s) =
    State.lift (enginePhase (firstStep (decodeWord s.cur)) (exitStep (decodeWord s.cur)) s) := by
  rcases engineTurn_cases s with ⟨hi, -⟩ | ⟨-, hd, ht⟩ | ⟨-, hd, ht⟩ | ⟨-, hd, ht⟩ | ⟨-, hd, ht⟩ | ⟨-, hd, ht⟩ |
    ⟨-, ⟨e, hd⟩, ht⟩
  · exact absurd hi h
  all_goals rw [ht, hd]; rfl

/-! ## The relation -/

/-- Both engines move alone, under the same word, in the same phase, with the same flags. -/
structure SameControl (c : Word w) (s s' : Block w) : Prop where
  quiet : s.agenda = []
  quiet' : s'.agenda = []
  cur : s.cur = c
  cur' : s'.cur = c
  phase : s'.phase = s.phase
  status : s'.status = s.status
  errinfo : s'.errinfo = s.errinfo

/-- The same valid trace records (10_state.md R29, R30). -/
structure SameTrace (s s' : Block w) : Prop where
  count : s'.trccnt = s.trccnt
  records : ∀ k : Nat, k < s.trccnt.toNat → Store.find s'.trc k = Store.find s.trc k

/-- The same values in the registers and cells that the command `c` reads (10_state.md Table S-3). -/
structure SameInputs (c : Word w) (s s' : Block w) : Prop where
  depth : s'.depth = s.depth
  a : c ≠ 2 → s'.a = s.a
  b : c = 4 ∨ c = 5 → s'.b = s.b
  m : c = 3 ∨ c = 4 → s'.m = s.m
  n : c = 3 ∨ c = 4 ∨ c = 5 → s'.n = s.n
  txtlen : c = 2 ∨ c = 5 → s'.txtlen = s.txtlen
  text : c = 2 ∨ c = 5 → s.txtlen.toNat ≤ s.depth → textOperand s' = textOperand s

/-- The same values in what a Reducer loop reads, and in what is read of the loop's start at its end: `B` at the exit of
REDA, `RESA` at the exit of REDB (43_evaluate.md R138). -/
structure SameReducer (c : Word w) (s s' : Block w) : Prop where
  /-- Which commands enter which loop (10_state.md R34). -/
  command : s.phase = .reda ∧ (c = 3 ∨ c = 5) ∨ s.phase = .redb ∧ c = 5
  m : s'.m = s.m
  n : s'.n = s.n
  seg : s'.seg = s.seg
  wv : s'.wv = s.wv
  trace : SameTrace s s'
  b : s.phase = .reda → c = 5 → s'.b = s.b
  resa : s.phase = .redb → s'.resa = s.resa

/-- The same values in what the Multiplier loop reads, and in the results of EVALUATE that stand before it. -/
structure SameMultiplier (c : Word w) (s s' : Block w) : Prop where
  /-- Which commands enter the loop (10_state.md R34). -/
  command : c = 4 ∨ c = 5
  m : s'.m = s.m
  n : s'.n = s.n
  wa : s'.wa = s.wa
  wb : s'.wb = s.wb
  acc : s'.acc = s.acc
  trace : SameTrace s s'
  resa : c = 5 → s'.resa = s.resa
  resb : c = 5 → s'.resb = s.resb

/-- The same results of the command `c`. -/
structure SameResults (c : Word w) (s s' : Block w) : Prop where
  txtlen : c = 1 → s'.txtlen = s.txtlen
  text : c = 1 → ∀ i : Nat, i < s.txtlen.toNat → Memory.read s'.txt i = Memory.read s.txt i
  res : c ≠ 1 → s'.res = s.res
  m : c = 5 → s'.m = s.m
  resa : c = 5 → s'.resa = s.resa
  resb : c = 5 → s'.resb = s.resb
  trace : c = 3 ∨ c = 4 ∨ c = 5 → SameTrace s s'

/-- Two states that the command `c` cannot tell apart from where it stands; after a fault the flags alone agree. -/
inductive Lockstep (c : Word w) (s s' : Block w) : Prop where
  | start (ctrl : SameControl c s s') (phase : s.phase = .start) (inputs : SameInputs c s s')
  | reducer (ctrl : SameControl c s s') (loop : SameReducer c s s')
  | multiplier (ctrl : SameControl c s s') (phase : s.phase = .mult) (loop : SameMultiplier c s s')
  | idle (ctrl : SameControl c s s') (phase : s.phase = .idle)
      (results : s.status.err = false → SameResults c s s')

theorem Lockstep.ctrl (h : Lockstep c s s') : SameControl c s s' := by
  cases h <;> assumption

/-- Where the first engine step goes on, so does the second, and the next states are in lockstep. -/
def Simulated (c : Word w) (o o' : StepOutcome w) : Prop :=
  ∀ t : Block w, o = .next t → ∃ t' : Block w, o' = .next t' ∧ Lockstep c t t'

theorem Simulated.next (h : Lockstep c s s') : Simulated c (.next s) (.next s') := by
  rintro t ⟨⟩
  exact ⟨s', rfl, h⟩

theorem Simulated.fault {f : Fault} {o : StepOutcome w} : Simulated c (.fault f) o := nofun

/-- A test that comes out alike in both states. -/
theorem Simulated.ite {p p' : Prop} [Decidable p] [Decidable p'] {x y x' y' : StepOutcome w} (hp : p' ↔ p)
    (ht : p → Simulated c x x') (he : ¬p → Simulated c y y') :
    Simulated c (if p then x else y) (if p' then x' else y') := by
  by_cases h : p
  · rw [if_pos h, if_pos (hp.2 h)]; exact ht h
  · rw [if_neg h, if_neg (mt hp.1 h)]; exact he h

/-! ## The shared operations keep the relation -/

theorem SameControl.clearTrace (h : SameControl c s s') : SameControl c (clearTrace s) (clearTrace s') :=
  { h with }

/-- A cleared trace has no valid record, whatever the buffer holds (10_state.md R30). -/
theorem sameTrace_of_count_zero (h : s.trccnt = 0) (h' : s'.trccnt = 0) : SameTrace s s' :=
  ⟨h'.trans h.symm, by simp [h]⟩

/-- The same fault with the same information leaves the same flags. -/
theorem SameControl.raise (h : SameControl c s s') (f : CommandFault) (info : Word w) :
    Simulated c (.next (raise f info s)) (.next (raise f info s')) :=
  .next (.idle { h with phase := rfl, status := rfl, errinfo := rfl } rfl nofun)

theorem SameControl.complete (h : SameControl c s s') (hr : SameResults c s s') :
    Simulated c (.next (complete s)) (.next (complete s')) :=
  .next (.idle { h with phase := rfl, status := congrArg statusCompleted h.status } rfl
    fun _ => { hr with trace := fun h3 => { hr.trace h3 with } })

/-- `s` with the record `r` appended (30_encoding.md R80). -/
def appended (r : Record w) (s : Block w) : Block w :=
  { s with trc := Store.insert s.trc s.trccnt.toNat r, trccnt := s.trccnt + 1 }

theorem SameTrace.appended (hw : 8 ≤ w) (h : SameTrace s s') (hroom : s.trccnt.toNat < Config.traceDepth w)
    (r : Record w) : SameTrace (appended r s) (appended r s') := by
  refine ⟨congrArg (· + 1) h.count, fun k hk => ?_⟩
  have hk' : k < s.trccnt.toNat + 1 := trccnt_succ hw hroom ▸ hk
  simp only [Independence.appended, h.count, Store.find_insert]
  split
  · rfl
  · exact h.records k (by omega)

/-- Appending the same record to the same trace. -/
theorem append_simulated (hw : 8 ≤ w) (h : SameTrace s s') (r : Record w)
    (hl : SameTrace (appended r s) (appended r s') → Lockstep c (appended r s) (appended r s')) :
    Simulated c (append r s) (append r s') := by
  intro t ht
  obtain ⟨hroom, rfl⟩ := append_cases ht
  exact ⟨appended r s', append_eq r (h.count ▸ hroom), hl (h.appended hw hroom r)⟩

/-! ## The loops keep the relation -/

theorem SameReducer.reducing (h : SameReducer c s s') : reducing s' = reducing s := by
  rw [Machine.reducing, Machine.reducing, h.wv, h.n]

theorem redIteration_simulated (hw : 8 ≤ w) (hc : SameControl c s s') (h : SameReducer c s s') :
    Simulated c (redIteration s) (redIteration s') := by
  simp only [redIteration, h.m, h.n, h.wv, h.seg]
  refine append_simulated hw ?_ _ fun trace => ?_
  · exact { h.trace with }
  · exact .reducer { hc with } { h with wv := rfl, seg := rfl, m := rfl, n := rfl, trace := trace }

theorem mulIteration_simulated (hw : 8 ≤ w) (hc : SameControl c s s') (hp : s.phase = .mult)
    (h : SameMultiplier c s s') : Simulated c (mulIteration s) (mulIteration s') := by
  simp only [mulIteration, h.m, h.n, h.wa, h.wb, h.acc]
  refine append_simulated hw ?_ _ fun trace => ?_
  · exact { h.trace with }
  · exact .multiplier { hc with } hp { h with wa := rfl, wb := rfl, acc := rfl, m := rfl, n := rfl, trace := trace }

theorem mulExit_simulated (hw : 8 ≤ w) (hc : SameControl c s s') (h : SameMultiplier c s s') :
    Simulated c (mulExit s) (mulExit s') := by
  have h1 : c ≠ 1 := by rcases h.command with rfl | rfl <;> simp [ofNat_inj_of_lt hw]
  exact SameControl.complete { hc with }
    { h with
      txtlen := fun he => absurd he h1
      text := fun he => absurd he h1
      res := fun _ => h.acc
      m := fun _ => h.m
      trace := fun _ => { h.trace with } }

theorem reduceExit_simulated (hw : 8 ≤ w) (hc : SameControl c s s') (h : SameReducer c s s') (h3 : c = 3) :
    Simulated c (reduceExit s) (reduceExit s') :=
  SameControl.complete { hc with }
    { txtlen := by simp [h3, ofNat_inj_of_lt hw]
      text := by simp [h3, ofNat_inj_of_lt hw]
      res := fun _ => h.wv
      m := fun _ => h.m
      resa := by simp [h3, ofNat_inj_of_lt hw]
      resb := by simp [h3, ofNat_inj_of_lt hw]
      trace := fun _ => { h.trace with } }

/-- Step XA reads `B`, which EVALUATE names. -/
theorem evaluateExitA_simulated (hc : SameControl c s s') (hp : s.phase = .reda) (h : SameReducer c s s')
    (h5 : c = 5) : Simulated c (evaluateExitA s) (evaluateExitA s') :=
  .next (.reducer { hc with phase := rfl }
    { h with
      command := .inr ⟨rfl, h5⟩
      seg := rfl
      wv := h.b hp h5
      trace := { h.trace with }
      b := nofun
      resa := fun _ => h.wv })

/-- Step XB reads `RESA`, which step XA has written. -/
theorem evaluateExitB_simulated (hc : SameControl c s s') (hp : s.phase = .redb) (h : SameReducer c s s')
    (h5 : c = 5) : Simulated c (evaluateExitB s) (evaluateExitB s') :=
  .next (.multiplier { hc with phase := rfl } rfl
    { h with
      command := .inr h5
      wa := h.resa hp
      wb := h.wv
      acc := rfl
      trace := { h.trace with }
      resa := fun _ => h.resa hp
      resb := fun _ => h.wv })

/-- The exit of REDA: REDUCE completes, EVALUATE goes on with `B`, and no other command has one. -/
theorem exitStep_simulated (hw : 8 ≤ w) (hc : SameControl c s s') (hp : s.phase = .reda) (h : SameReducer c s s') :
    Simulated c (exitStep (decodeWord c) s) (exitStep (decodeWord c) s') := by
  rcases hd : decodeWord c with e | i
  · exact .fault
  · have hcur := eq_ofNat_of_decodeWord hd
    cases i with
    | encode => exact .fault
    | decode => exact .fault
    | reduce => exact reduceExit_simulated hw hc h hcur
    | multiply => exact .fault
    | evaluate => exact evaluateExitA_simulated hc hp h hcur

/-! ## The first steps keep the relation -/

theorem illegalFirst_simulated (hc : SameControl c s s') : Simulated c (illegalFirst s) (illegalFirst s') :=
  hc.raise _ _

theorem encodeFirst_simulated (hw : 8 ≤ w) (hc : SameControl c s s') (h : SameInputs c s s') (h1 : c = 1) :
    Simulated c (encodeFirst s) (encodeFirst s') := by
  have ha : s'.a = s.a := h.a (by simp [h1, ofNat_inj_of_lt hw])
  unfold encodeFirst
  rw [ha]
  refine SameControl.complete { hc with }
    { txtlen := fun _ => rfl
      text := fun _ i hi => ?_
      res := fun hne => absurd h1 hne
      m := by simp [h1, ofNat_inj_of_lt hw]
      resa := by simp [h1, ofNat_inj_of_lt hw]
      resb := by simp [h1, ofNat_inj_of_lt hw]
      trace := by simp [h1, ofNat_inj_of_lt hw] }
  have hlen : i < (encodeText s.a).length := Nat.lt_of_lt_of_le hi (by simpa using Nat.mod_le _ _)
  simp [Memory.read_writeText, hlen]

theorem decodeFirst_simulated (hw : 8 ≤ w) (hc : SameControl c s s') (h : SameInputs c s s') (h2 : c = 2) :
    Simulated c (decodeFirst s) (decodeFirst s') := by
  unfold decodeFirst
  refine .ite (by rw [h.depth, h.txtlen (.inl h2)]) (fun _ => hc.raise _ _) fun hlen => ?_
  rw [h.text (.inl h2) (Nat.le_of_not_lt hlen)]
  cases decodeText w (textOperand s) with
  | err f j => exact hc.raise f _
  | ok v =>
    exact SameControl.complete { hc with }
      { txtlen := by simp [h2, ofNat_inj_of_lt hw]
        text := by simp [h2, ofNat_inj_of_lt hw]
        res := fun _ => rfl
        m := by simp [h2, ofNat_inj_of_lt hw]
        resa := by simp [h2, ofNat_inj_of_lt hw]
        resb := by simp [h2, ofNat_inj_of_lt hw]
        trace := by simp [h2, ofNat_inj_of_lt hw] }

theorem reduceFirst_simulated (hw : 8 ≤ w) (hc : SameControl c s s') (h : SameInputs c s s') (h3 : c = 3) :
    Simulated c (reduceFirst s) (reduceFirst s') := by
  have ha : s'.a = s.a := h.a (by simp [h3, ofNat_inj_of_lt hw])
  have hm : s'.m = s.m := h.m (.inl h3)
  have hn : s'.n = s.n := h.n (.inl h3)
  unfold reduceFirst
  refine .ite (by rw [clearTrace_n, clearTrace_n, hn]) (fun _ => hc.clearTrace.raise _ _) fun _ => ?_
  refine .ite (by rw [clearTrace_m, clearTrace_n, hm, hn]; rfl) (fun _ => hc.clearTrace.raise _ _) fun _ => ?_
  exact .next (.reducer { hc with phase := rfl }
    { command := .inl ⟨rfl, .inl h3⟩
      m := hm
      n := hn
      seg := rfl
      wv := ha
      trace := sameTrace_of_count_zero rfl rfl
      b := by simp [h3, ofNat_inj_of_lt hw]
      resa := nofun })

theorem multiplyFirst_simulated (hw : 8 ≤ w) (hc : SameControl c s s') (h : SameInputs c s s') (h4 : c = 4) :
    Simulated c (multiplyFirst s) (multiplyFirst s') := by
  have ha : s'.a = s.a := h.a (by simp [h4, ofNat_inj_of_lt hw])
  have hb : s'.b = s.b := h.b (.inl h4)
  have hm : s'.m = s.m := h.m (.inr h4)
  have hn : s'.n = s.n := h.n (.inr (.inl h4))
  unfold multiplyFirst
  refine .ite (by rw [clearTrace_n, clearTrace_n, hn]) (fun _ => hc.clearTrace.raise _ _) fun _ => ?_
  refine .ite (by rw [clearTrace_m, clearTrace_n, hm, hn]; rfl) (fun _ => hc.clearTrace.raise _ _) fun _ => ?_
  refine .ite (by rw [clearTrace_a, clearTrace_n, ha, hn]; rfl) (fun _ => hc.clearTrace.raise _ _) fun _ => ?_
  refine .ite (by rw [clearTrace_b, clearTrace_n, hb, hn]; rfl) (fun _ => hc.clearTrace.raise _ _) fun _ => ?_
  exact .next (.multiplier { hc with phase := rfl } rfl
    { command := .inl h4
      m := hm
      n := hn
      wa := ha
      wb := hb
      acc := rfl
      trace := sameTrace_of_count_zero rfl rfl
      resa := by simp [h4, ofNat_inj_of_lt hw]
      resb := by simp [h4, ofNat_inj_of_lt hw] })

/-- The modulus comes from the text, not from `M` (43_evaluate.md R136). -/
theorem evaluateFirst_simulated (hw : 8 ≤ w) (hc : SameControl c s s') (h : SameInputs c s s') (h5 : c = 5) :
    Simulated c (evaluateFirst s) (evaluateFirst s') := by
  have ha : s'.a = s.a := h.a (by simp [h5, ofNat_inj_of_lt hw])
  have hn : s'.n = s.n := h.n (.inr (.inr h5))
  unfold evaluateFirst
  refine .ite (by rw [clearTrace_n, clearTrace_n, hn]) (fun _ => hc.clearTrace.raise _ _) fun _ => ?_
  refine .ite (by simp only [clearTrace_depth, clearTrace_txtlen, h.depth, h.txtlen (.inr h5)])
    (fun _ => hc.clearTrace.raise _ _) fun hlen => ?_
  rw [textOperand_clearTrace, textOperand_clearTrace, h.text (.inr h5) (Nat.le_of_not_lt hlen)]
  cases decodeText w (textOperand s) with
  | err f j => exact hc.clearTrace.raise f _
  | ok m =>
    refine .ite (by rw [clearTrace_n, clearTrace_n, hn]) (fun _ => hc.clearTrace.raise _ _) fun _ => ?_
    exact .next (.reducer { hc with phase := rfl }
      { command := .inl ⟨rfl, .inr h5⟩
        m := rfl
        n := hn
        seg := rfl
        wv := ha
        trace := sameTrace_of_count_zero rfl rfl
        b := fun _ _ => h.b (.inr h5)
        resa := nofun })

theorem firstStep_simulated (hw : 8 ≤ w) (hc : SameControl c s s') (h : SameInputs c s s') :
    Simulated c (firstStep (decodeWord c) s) (firstStep (decodeWord c) s') := by
  rcases hd : decodeWord c with e | i
  · exact illegalFirst_simulated hc
  · have hcur := eq_ofNat_of_decodeWord hd
    cases i with
    | encode => exact encodeFirst_simulated hw hc h hcur
    | decode => exact decodeFirst_simulated hw hc h hcur
    | reduce => exact reduceFirst_simulated hw hc h hcur
    | multiply => exact multiplyFirst_simulated hw hc h hcur
    | evaluate => exact evaluateFirst_simulated hw hc h hcur

/-! ## Every step keeps the relation -/

theorem enginePhase_reducer_simulated (hw : 8 ≤ w) (hc : SameControl c s s') (h : SameReducer c s s') :
    Simulated c (enginePhase (firstStep (decodeWord c)) (exitStep (decodeWord c)) s)
      (enginePhase (firstStep (decodeWord c)) (exitStep (decodeWord c)) s') := by
  have iter := redIteration_simulated hw hc h
  rcases h.command with ⟨hp, -⟩ | ⟨hp, h5⟩
  · have hp' := hc.phase.trans hp
    cases hr : reducing s with
    | true => rwa [enginePhase_reda_iter hp hr, enginePhase_reda_iter hp' (h.reducing.trans hr)]
    | false =>
      rw [enginePhase_reda_exit hp hr, enginePhase_reda_exit hp' (h.reducing.trans hr)]
      exact exitStep_simulated hw hc hp h
  · have hp' := hc.phase.trans hp
    cases hr : reducing s with
    | true => rwa [enginePhase_redb_iter hp hr, enginePhase_redb_iter hp' (h.reducing.trans hr)]
    | false =>
      rw [enginePhase_redb_exit hp hr, enginePhase_redb_exit hp' (h.reducing.trans hr)]
      exact evaluateExitB_simulated hc hp h h5

theorem enginePhase_simulated (hw : 8 ≤ w) (h : Lockstep c s s') (hp : s.phase ≠ .idle) :
    Simulated c (enginePhase (firstStep (decodeWord c)) (exitStep (decodeWord c)) s)
      (enginePhase (firstStep (decodeWord c)) (exitStep (decodeWord c)) s') := by
  cases h with
  | start hc hs hi =>
    rw [enginePhase_start hs, enginePhase_start (hc.phase.trans hs)]
    exact firstStep_simulated hw hc hi
  | reducer hc hl => exact enginePhase_reducer_simulated hw hc hl
  | multiplier hc hm hl =>
    have hm' := hc.phase.trans hm
    by_cases hb : s.wb = 0
    · rw [enginePhase_mult_exit hm hb, enginePhase_mult_exit hm' (hl.wb.trans hb)]
      exact mulExit_simulated hw hc hl
    · rw [enginePhase_mult_iter hm hb, enginePhase_mult_iter hm' (hl.wb ▸ hb)]
      exact mulIteration_simulated hw hc hm hl
  | idle _ hi _ => exact absurd hi hp

/-- One step of the machine: in IDLE it changes nothing, else it is the engine's. -/
theorem step_lockstep (hw : 8 ≤ w) (h : Lockstep c s s') {u : State} (hu : step (.of s) = .next u) :
    ∃ t t' : Block w, u = .of t ∧ step (.of s') = .next (.of t') ∧ Lockstep c t t' := by
  have hc := h.ctrl
  rw [step_nil hc.quiet] at hu
  rw [step_nil hc.quiet']
  by_cases hp : s.phase = .idle
  · rw [engineTurn_idle hp] at hu
    exact ⟨s, s', (Host.Outcome.next.inj hu).symm, engineTurn_idle (s := .of s') (hc.phase.trans hp), h⟩
  · rw [engineTurn_eq_lift hp, hc.cur] at hu
    rw [engineTurn_eq_lift (hc.phase.symm ▸ hp), hc.cur']
    obtain ⟨t, ht, rfl⟩ := State.lift_eq_next.1 hu
    obtain ⟨t', ht', hl⟩ := enginePhase_simulated hw h hp t ht
    exact ⟨t, t', rfl, State.lift_eq_next_of.2 ht', hl⟩

theorem run_succ_eq_next {M : Host.Core} {k : Nat} {x y : M.State} :
    M.run (k + 1) x = .next y ↔ ∃ u, M.step x = .next u ∧ M.run k u = .next y := by
  rw [Host.Core.run]
  cases M.step x <;> simp

theorem runs_succ_eq_next {k : Nat} {x y : State} :
    runs (k + 1) x = .next y ↔ ∃ u, step x = .next u ∧ runs k u = .next y :=
  run_succ_eq_next (M := core)

theorem runs_lockstep (hw : 8 ≤ w) : ∀ (k : Nat) {s s' t : Block w}, Lockstep c s s' →
    runs k (.of s) = .next (.of t) → ∃ t' : Block w, runs k (.of s') = .next (.of t') ∧ Lockstep c t t'
  | 0, s, s', t, h, hr => by
    obtain rfl : s = t := State.of_inj.1 (Host.Outcome.next.inj hr)
    exact ⟨s', rfl, h⟩
  | k + 1, s, s', t, h, hr => by
    obtain ⟨u, hu, hrest⟩ := runs_succ_eq_next.1 hr
    obtain ⟨b, b', rfl, hb', hl⟩ := step_lockstep hw h hu
    obtain ⟨t', ht', hlt⟩ := runs_lockstep hw k hl hrest
    exact ⟨t', runs_succ_eq_next.2 ⟨_, hb', ht'⟩, hlt⟩

/-- In IDLE the relation is that of the results. -/
theorem Lockstep.results (h : Lockstep c s s') (hp : s.phase = .idle) (he : s.status.err = false) :
    SameResults c s s' := by
  cases h with
  | start _ hs _ => cases hp.symm.trans hs
  | reducer _ hl => rcases hl.command with ⟨hs, -⟩ | ⟨hs, -⟩ <;> cases hp.symm.trans hs
  | multiplier _ hs _ => cases hp.symm.trans hs
  | idle _ _ hr => exact hr he

/-- Settles O47: the two runs go in lockstep from START (`runs_lockstep`), and in IDLE the relation is that of the
results. -/
theorem resultsDependOnNamedInputsOnly : Obligations.ResultsDependOnNamedInputsOnly := by
  intro w s s' t k hlegal hq hq' hp hp' hst hst' hei hei' hdepth hcur ha hb hm hn htext hrun ht
  have hstart : Lockstep s.cur s s' :=
    .start ⟨hq, hq', rfl, hcur, hp'.trans hp.symm, hst'.trans hst.symm, hei'.trans hei.symm⟩ hp
      ⟨hdepth, ha, hb, hm, hn, fun h => (htext h).1, fun h => (htext h).2⟩
  obtain ⟨t', hrun', h⟩ := runs_lockstep hlegal.1 k hstart hrun
  refine ⟨t', hrun', h.ctrl.phase.trans ht, h.ctrl.status, h.ctrl.errinfo, fun herr => ?_⟩
  have hres := h.results ht herr
  exact ⟨fun h1 => ⟨hres.txtlen h1, hres.text h1⟩, hres.res,
    fun h5 => ⟨hres.m h5, hres.resa h5, hres.resb h5⟩,
    fun h3 => ⟨(hres.trace h3).count, (hres.trace h3).records⟩⟩

end Sys2Proof.Independence

/-! # `STATUS` agrees with `PHASE` (10_state.md R33)

`StatusEffect s t` is the shape that every engine step out of a running state has: it takes a fault, completes, or keeps
the command running. Each shape keeps R33, and of the other events only an accepted `CMD` write and reset touch the three
registers. -/

namespace Sys2Proof.Safety

open Sys2Proof.Machine Sys2Proof.Independence

variable {w : Nat} {s t : Block w}

/-! ## What an engine step does to `STATUS`, `ERRINFO` and `PHASE` -/

/-- The three ways an engine step can leave `STATUS`, `ERRINFO` and `PHASE` (60_exceptions.md R147 to R149). -/
inductive StatusEffect (s t : Block w) : Prop where
  /-- The command ends with a fault. -/
  | faults (f : CommandFault) (status : t.status = statusFaulted f) (phase : t.phase = .idle)
  /-- The command completes without fault. -/
  | completes (status : t.status = statusCompleted s.status) (errinfo : t.errinfo = s.errinfo) (phase : t.phase = .idle)
  /-- The command runs on. -/
  | continues (status : t.status = s.status) (errinfo : t.errinfo = s.errinfo) (phase : t.phase ≠ .idle)

theorem reduceFirst_statusEffect (h : reduceFirst s = .next t) : StatusEffect s t := by
  rcases reduceFirst_cases s with ⟨-, ht⟩ | ⟨-, -, ht⟩ | ⟨-, -, ht⟩ <;> cases ht.symm.trans h
  · exact .faults .degreeRange rfl rfl
  · exact .faults .modulusDegree rfl rfl
  · exact .continues rfl rfl nofun

theorem multiplyFirst_statusEffect (h : multiplyFirst s = .next t) : StatusEffect s t := by
  rcases multiplyFirst_cases s with ⟨-, ht⟩ | ⟨-, -, ht⟩ | ⟨-, -, -, ht⟩ | ⟨-, -, -, -, ht⟩ | ⟨-, -, -, -, ht⟩ <;>
    cases ht.symm.trans h
  · exact .faults .degreeRange rfl rfl
  · exact .faults .modulusDegree rfl rfl
  · exact .faults .nonCanonical rfl rfl
  · exact .faults .nonCanonical rfl rfl
  · exact .continues rfl rfl nofun

theorem decodeFirst_statusEffect (h : decodeFirst s = .next t) : StatusEffect s t := by
  rcases decodeFirst_cases s with ⟨-, ht⟩ | ⟨-, f, j, -, ht⟩ | ⟨-, v, -, ht⟩ <;> cases ht.symm.trans h
  · exact .faults .textLength rfl rfl
  · exact .faults f rfl rfl
  · exact .completes rfl rfl rfl

theorem evaluateFirst_statusEffect (h : evaluateFirst s = .next t) : StatusEffect s t := by
  rcases evaluateFirst_cases s with ⟨-, ht⟩ | ⟨-, -, ht⟩ | ⟨-, -, f, j, -, ht⟩ | ⟨-, -, m, -, -, ht⟩ |
    ⟨-, -, m, -, -, ht⟩ <;> cases ht.symm.trans h
  · exact .faults .degreeRange rfl rfl
  · exact .faults .textLength rfl rfl
  · exact .faults f rfl rfl
  · exact .faults .modulusDegree rfl rfl
  · exact .continues rfl rfl nofun

theorem firstStep_statusEffect (d : Except IllegalWord Instr) (h : firstStep d s = .next t) : StatusEffect s t := by
  rcases d with e | i
  · cases h; exact .faults .illegalCommand rfl rfl
  · cases i with
    | encode => cases h; exact .completes rfl rfl rfl
    | decode => exact decodeFirst_statusEffect h
    | reduce => exact reduceFirst_statusEffect h
    | multiply => exact multiplyFirst_statusEffect h
    | evaluate => exact evaluateFirst_statusEffect h

/-- At the exit of REDA only REDUCE and EVALUATE have a step. -/
theorem exitStep_statusEffect (d : Except IllegalWord Instr) (h : exitStep d s = .next t) : StatusEffect s t := by
  rcases d with e | i
  · cases h
  · cases i with
    | encode => cases h
    | decode => cases h
    | reduce => cases h; exact .completes rfl rfl rfl
    | multiply => cases h
    | evaluate => cases h; exact .continues rfl rfl nofun

theorem redIteration_statusEffect (hp : s.phase ≠ .idle) (h : redIteration s = .next t) : StatusEffect s t := by
  obtain ⟨-, rfl⟩ := redIteration_cases h
  exact .continues rfl rfl hp

theorem mulIteration_statusEffect (hp : s.phase ≠ .idle) (h : mulIteration s = .next t) : StatusEffect s t := by
  obtain ⟨-, rfl⟩ := mulIteration_cases h
  exact .continues rfl rfl hp

/-- Every engine step out of a running state has one of the three shapes. -/
theorem engineTurn_statusEffect (hp : s.phase ≠ .idle) (h : engineTurn (.of s) = .next (.of t)) : StatusEffect s t := by
  rw [engineTurn_eq_lift hp, State.lift_eq_next_of] at h
  rcases enginePhase_cases h with ⟨-, h⟩ | ⟨-, -, h⟩ | ⟨-, -, h⟩ | ⟨-, -, h⟩ | ⟨-, -, h⟩ | ⟨-, -, h⟩
  · exact firstStep_statusEffect _ h
  · exact redIteration_statusEffect hp h
  · exact exitStep_statusEffect _ h
  · cases h; exact .continues rfl rfl nofun
  · exact mulIteration_statusEffect hp h
  · cases h; exact .completes rfl rfl rfl

/-! ## What keeps the agreement -/

/-- The agreement reads nothing but `STATUS`, `ERRINFO` and whether `PHASE` is IDLE. -/
theorem StatusConsistent.congr (h : StatusConsistent s) (hstatus : t.status = s.status) (herrinfo : t.errinfo = s.errinfo)
    (hphase : t.phase = .idle ↔ s.phase = .idle) : StatusConsistent t := by
  obtain ⟨hbusy, hclear, herr, hno⟩ := h
  rw [← hstatus, ← herrinfo] at hclear
  rw [← hstatus] at hbusy herr
  rw [← hstatus, ← herrinfo] at hno
  exact ⟨hbusy.trans (not_congr hphase.symm), hclear, herr, hno⟩

/-- No fault has the code 0 (60_exceptions.md Table X-1). -/
theorem faultCode_ne_zero (f : CommandFault) : faultCode f ≠ 0 := by
  cases f <;> decide

theorem statusConsistent_of_faulted {f : CommandFault} (hstatus : t.status = statusFaulted f) (hphase : t.phase = .idle) :
    StatusConsistent t where
  busy_iff := by simp [hstatus, hphase]
  busy_clear := by simp [hstatus]
  err_done _ := by rw [hstatus]; exact ⟨rfl, faultCode_ne_zero f⟩
  no_err := by simp [hstatus]

/-- While a command runs, `ERR`, `ERRCODE` and `ERRINFO` are 0 (R33), so completing leaves them so. -/
theorem StatusConsistent.of_completed (h : StatusConsistent s) (hp : s.phase ≠ .idle)
    (hstatus : t.status = statusCompleted s.status) (herrinfo : t.errinfo = s.errinfo) (hphase : t.phase = .idle) :
    StatusConsistent t := by
  obtain ⟨-, herr, hcode, hinfo⟩ := h.busy_clear (h.busy_iff.2 hp)
  exact {
    busy_iff := by simp [hstatus, hphase]
    busy_clear := by simp [hstatus]
    err_done := by simp [hstatus, herr]
    no_err := by simp [hstatus, herrinfo, hcode, hinfo] }

theorem StatusConsistent.of_statusEffect (h : StatusConsistent s) (hp : s.phase ≠ .idle) (he : StatusEffect s t) :
    StatusConsistent t := by
  cases he with
  | faults f hstatus hphase => exact statusConsistent_of_faulted hstatus hphase
  | completes hstatus herrinfo hphase => exact h.of_completed hp hstatus herrinfo hphase
  | continues hstatus herrinfo hphase => exact h.congr hstatus herrinfo (iff_of_false hphase hp)

theorem StatusConsistent.engineTurn (h : StatusConsistent s) {u : State} (hu : engineTurn (.of s) = .next u) :
    StatusConsistent u.block := by
  by_cases hp : s.phase = .idle
  · cases (engineTurn_idle (s := .of s) hp).symm.trans hu
    exact h
  · obtain ⟨t, -, rfl⟩ := State.lift_eq_next.1 ((engineTurn_eq_lift hp).symm.trans hu)
    exact h.of_statusEffect hp (engineTurn_statusEffect hp hu)

theorem statusConsistent_acceptCommand (v : Word w) (s : Block w) : StatusConsistent (acceptCommand v s) where
  busy_iff := by simp
  busy_clear := by simp
  err_done := by simp
  no_err := by simp

theorem statusConsistent_reset (w depth : Nat) : StatusConsistent (Block.reset w depth) where
  busy_iff := by simp [Block.reset]
  busy_clear := by simp [Block.reset]
  err_done := by simp [Block.reset]
  no_err := by simp [Block.reset]

theorem StatusConsistent.hostRead (h : StatusConsistent s) (addr : Addr) : StatusConsistent (hostRead addr s) := by
  rcases hostRead_cases addr s with ⟨v, -, hr⟩ | ⟨-, hr⟩ <;> rw [hr] <;> exact h.congr rfl rfl Iff.rfl

/-- A host write that is not dropped either is accepted as a command or touches none of the three registers. -/
theorem StatusConsistent.hostWrite (h : StatusConsistent s) (addr : Addr) (v : Word w) :
    StatusConsistent (hostWrite addr v s) := by
  cases hb : s.status.busy with
  | true => rwa [hostWrite_busy hb]
  | false =>
    rw [hostWrite_idle hb]
    rcases writeIdle_cases (placeAt w s.depth addr) v s with ⟨-, hw⟩ | ⟨-, hw⟩ | ⟨-, hw⟩ | ⟨-, hw⟩ | ⟨-, hw⟩ | ⟨-, hw⟩ |
      ⟨i, -, hw⟩ | hw <;> rw [hw]
    · exact statusConsistent_acceptCommand v s
    all_goals exact h.congr rfl rfl Iff.rfl

theorem StatusConsistent.pollStatus (h : StatusConsistent s) : StatusConsistent (pollStatus s) := by
  unfold Machine.pollStatus
  split
  · exact (h.hostRead (addrOf .status)).congr rfl rfl Iff.rfl
  · exact h.hostRead (addrOf .status)

/-- Every event keeps the agreement. -/
theorem StatusConsistent.perform (h : StatusConsistent s) {e : Event w} {u : State} (hu : perform e s = .next u) :
    StatusConsistent u.block := by
  cases e with
  | read addr => cases hu; exact h.hostRead addr
  | write addr v => cases hu; exact h.hostWrite addr v
  | reset => cases hu; exact (statusConsistent_reset w s.depth).congr rfl rfl Iff.rfl
  | engine => exact h.engineTurn hu
  | poll => cases hu; exact h.pollStatus

/-- Settles O56: the reset state agrees, and a step is one event, taken off the agenda or the engine's own turn. -/
theorem statusAgreesWithPhaseAlways : Obligations.StatusAgreesWithPhaseAlways := by
  refine ⟨statusConsistent_reset, ?_⟩
  rintro ⟨w, s⟩ u (h : StatusConsistent s) hu
  cases hagenda : s.agenda with
  | nil => exact h.engineTurn ((step_nil hagenda).symm.trans hu)
  | cons e es =>
    have hrest : StatusConsistent { s with agenda := es } := h.congr rfl rfl Iff.rfl
    exact hrest.perform ((step_cons hagenda).symm.trans hu)

end Sys2Proof.Safety

/-! # The host's port (20_memory.md R51 to R57)

What the map names at the registers' and the text's addresses, what one read event and one write event do to the machine,
and from these the outcome at each place. -/

namespace Sys2Proof.Machine

variable {w : Nat} {s : Block w} {addr : Addr} {v : Word w} {rest : List (Event w)}

/-! ## The address map -/

/-- The registers stand below the buffers. -/
theorem registerMap_keys_lt : ∀ a ∈ registerMap.map Prod.fst, a < 0x1000 := by
  decide

/-- No register is found in the buffers' range. -/
theorem find_registerMap_of_le {a : Nat} (h : 0x1000 ≤ a) : Store.find registerMap a = none := by
  by_contra hne
  obtain ⟨p, hp⟩ := Option.ne_none_iff_exists'.1 hne
  have hlt := registerMap_keys_lt a ((Store.mem_keys_iff registerMap a).2 ⟨p, hp⟩)
  omega

/-- Each register is found in the map at its own address. -/
theorem find_registerMap_addrOf : ∀ p ∈ registerMap.map Prod.snd, Store.find registerMap (addrOf p).toNat = some p := by
  decide

/-- A register's address names it, whatever the parameters. -/
theorem placeAt_addrOf_register (depth : Nat) {p : Place} (hp : p ∈ registerMap.map Prod.snd) :
    placeAt w depth (addrOf p) = p := by
  rw [placeAt, find_registerMap_addrOf p hp]

/-- With at most `0x1000` cells, each cell of `TXT` has its own address below the trace. -/
theorem toNat_addrOf_txt {depth i : Nat} (hdepth : depth ≤ 0x1000) (hi : i < depth) :
    (addrOf (.txt i)).toNat = 0x1000 + i := by
  rw [addrOf, BitVec.toNat_ofNat, Nat.mod_eq_of_lt (by omega)]

/-- The address of a cell of `TXT` names that cell. -/
theorem placeAt_addrOf_txt {depth i : Nat} (hdepth : depth ≤ 0x1000) (hi : i < depth) :
    placeAt w depth (addrOf (.txt i)) = .txt i := by
  have haddr := toNat_addrOf_txt hdepth hi
  rw [placeAt, haddr, find_registerMap_of_le (Nat.le_add_right _ _)]
  simp only
  rw [if_pos ⟨Nat.le_add_right _ _, Nat.add_lt_add_left hi _⟩, Nat.add_sub_cancel_left]

/-- The bound of 00_scope.md R7 on `TEXT_DEPTH` keeps the text below the trace. -/
theorem depth_le_of_legal {depth : Nat} (h : Config.legal w depth) : depth ≤ 0x1000 := by
  obtain ⟨-, -, -, hdepth⟩ := h
  exact hdepth.trans (Nat.min_le_left _ _)

/-- Settles O3: the bounds are those of 00_scope.md R6 and R7, and the map is evaluated at the ends of both buffers. -/
theorem addressMapFits : Obligations.AddressMapFits := by
  refine ⟨fun w depth hlegal => ⟨depth_le_of_legal hlegal, by omega, ?_⟩, by decide, rfl, by decide⟩
  obtain ⟨-, hw, -⟩ := hlegal
  omega

/-! ## What a read returns -/

theorem readValue_idle (h : s.status.busy = false) (p : Place) : readValue s p = readIdle s p := by
  simp [readValue, h]

theorem readValue_of_not_engineWritten {p : Place} (h : engineWritten p = false) : readValue s p = readIdle s p := by
  simp [readValue, h]

/-- A written character is read `zext`ended: no bit of it is lost. -/
theorem toNat_setWidth_textByte (hw : 8 ≤ w) {i : Nat} {c : Byte} (h : Memory.read s.txt i = some c) :
    ((textByte s i).setWidth w).toNat = c.toNat := by
  rw [textByte, h, Option.getD_some, BitVec.toNat_setWidth_of_le hw]

/-- Word `f` of a record is entry `f` of the record's eight words. -/
theorem getElem?_words_eq_recordWord (r : Record w) {f : Nat} (h : f < 8) :
    [r.header, r.word1, r.word2, r.word3, r.word4, r.word5, r.word6, r.word7][f]? = some (recordWord r f) := by
  interval_cases f <;> rfl

/-- A valid record that has been written is read as it stands. -/
theorem readIdle_trc {k : Nat} (hk : k < s.trccnt.toNat) {r : Record w} (hr : Store.find s.trc k = some r) (f : Nat) :
    readIdle s (.trc k f) = some (recordWord r f) := by
  rw [readIdle, if_pos hk, hr, Option.map_some]

/-- A host read adds one reply, which is the value of the place where the spec fixes one. -/
theorem hostRead_reply (addr : Addr) (s : Block w) :
    ∃ v : Word w, (hostRead addr s).replies = v :: s.replies ∧ (hostRead addr s).agenda = s.agenda ∧
      ∀ u, readValue s (placeAt w s.depth addr) = some u → v = u := by
  rcases hostRead_cases addr s with ⟨v, hv, h⟩ | ⟨hnone, h⟩ <;> rw [h]
  · exact ⟨v, rfl, rfl, fun u hu => Option.some.inj (hv.symm.trans hu)⟩
  · exact ⟨_, rfl, rfl, fun u hu => absurd (hnone.symm.trans hu) nofun⟩

/-! ## One event of the host -/

theorem step_read (h : s.agenda = .read addr :: rest) :
    step (.of s) = .next (.of (hostRead addr { s with agenda := rest })) :=
  step_cons h

/-- While a command runs a write is dropped (20_memory.md R57). -/
theorem step_write_busy (hb : s.status.busy = true) (h : s.agenda = .write addr v :: rest) :
    step (.of s) = .next (.of { s with agenda := rest }) := by
  rw [step_cons h, perform, hostWrite_busy (s := { s with agenda := rest }) hb]

theorem step_write_idle (hb : s.status.busy = false) (h : s.agenda = .write addr v :: rest) :
    step (.of s) = .next (.of (writeIdle (placeAt w s.depth addr) v { s with agenda := rest })) := by
  rw [step_cons h, perform, hostWrite_idle (s := { s with agenda := rest }) hb]

/-- A write to a register's own address reaches that register. -/
theorem step_write_register (hb : s.status.busy = false) {p : Place} (hp : p ∈ registerMap.map Prod.snd)
    (h : s.agenda = .write (addrOf p) v :: rest) :
    step (.of s) = .next (.of (writeIdle p v { s with agenda := rest })) := by
  rw [step_write_idle hb h, placeAt_addrOf_register _ hp]

/-- The read-only and reserved places ignore writes (20_memory.md R55). -/
theorem writeIdle_ignored {p : Place} (hp : p = .status ∨ p = .errinfo ∨ p = .res ∨ p = .resa ∨ p = .resb ∨
    p = .trccnt ∨ (∃ k f, p = .trc k f) ∨ p = .reserved addr) (v : Word w) (s : Block w) : writeIdle p v s = s := by
  rcases hp with rfl | rfl | rfl | rfl | rfl | rfl | ⟨k, f, rfl⟩ | rfl <;> rfl

/-- Settles O50: the address names its own register or cell, and a cell's write is read back there and nowhere else. -/
theorem idleWritesStore : Obligations.IdleWritesStore := by
  intro w s v rest hlegal hb
  refine ⟨fun p hagenda => ?_, fun i hi hagenda => ?_⟩
  · refine ⟨?_, ?_, ?_, ?_, ?_⟩ <;>
    · rintro rfl
      exact step_write_register hb (by decide) hagenda
  · refine ⟨{ s with agenda := rest, txt := Memory.write s.txt i (v.setWidth 8) }, ?_, rfl, ?_, fun j hj => ?_⟩
    · rw [step_write_idle hb hagenda, placeAt_addrOf_txt (depth_le_of_legal hlegal) hi, writeIdle]
    · exact Store.find_insert_self _ _ _
    · exact Store.find_insert_of_ne _ hj.symm _

/-- Settles O51: a busy block drops every write, an idle one ignores those to the places of R55. -/
theorem otherWritesAreIgnored : Obligations.OtherWritesAreIgnored := by
  intro w s addr v rest _ hagenda
  refine ⟨fun hb => step_write_busy hb hagenda, fun hplace => ?_⟩
  cases hb : s.status.busy with
  | true => exact step_write_busy hb hagenda
  | false => rw [step_write_idle hb hagenda, writeIdle_ignored hplace]

/-- Settles O52: address 0 names `CMD`, and a write there is `acceptCommand`. -/
theorem commandWriteIsAccepted : Obligations.CommandWriteIsAccepted := by
  intro w s v rest _ hb hagenda
  exact step_write_register (p := .cmd) hb (by decide) hagenda

end Sys2Proof.Machine

namespace Sys2Proof.Safety

open Sys2Proof.Machine

variable {w : Nat} {s : Block w} {addr : Addr} {rest : List (Event w)}

/-- A read event answers with one more reply and leaves the block as it was; the reply is the value of the place where the
spec fixes one (20_memory.md R52, R53). -/
theorem step_read_reply (h : s.agenda = .read addr :: rest) :
    ∃ (v : Word w) (t : Block w), step (.of s) = .next (.of t) ∧ t.replies = v :: s.replies ∧ t.agenda = rest ∧
      blockOf t = blockOf s ∧ ∀ u, readValue s (placeAt w s.depth addr) = some u → v = u := by
  obtain ⟨v, hreplies, hagenda, hvalue⟩ := hostRead_reply addr { s with agenda := rest }
  exact ⟨v, _, step_read h, hreplies, hagenda, blockOf_hostRead addr _, hvalue⟩

/-- While a command runs `STATUS` is as its acceptance left it, and `ERRINFO` is 0 (10_state.md R33). -/
theorem StatusConsistent.running (h : StatusConsistent s) (hb : s.status.busy = true) :
    s.status = statusAccepted ∧ s.errinfo = 0 := by
  obtain ⟨hdone, herr, hcode, hinfo⟩ := h.busy_clear hb
  refine ⟨?_, hinfo⟩
  cases hs : s.status
  simp_all [statusAccepted]

/-- While a command runs the host reads 1 from `STATUS` (20_memory.md R53). -/
theorem statusWord_accepted : (statusWord statusAccepted : Word w) = 1 := by
  simp [statusWord, statusAccepted, bitWord]

/-- Settles O48: an idle read returns `readIdle` of the place, and only a character and a trace word need an argument. -/
theorem idleReadsReturnTheRegister : Obligations.IdleReadsReturnTheRegister := by
  intro w s addr rest hlegal hb hagenda
  obtain ⟨hw, -⟩ := hlegal
  obtain ⟨v, t, hstep, hreplies, hrest, hblock, hvalue⟩ := step_read_reply hagenda
  refine ⟨v, t, hstep, hreplies, hrest, hblock, ?_⟩
  rw [readValue_idle hb] at hvalue
  cases hp : placeAt w s.depth addr <;> rw [hp] at hvalue
  case txt i =>
    intro c hc
    rw [hvalue _ rfl, toNat_setWidth_textByte hw hc]
  case trc k f =>
    intro hk r hr
    obtain ⟨-, hf⟩ := placeAt_trc hp
    rw [hvalue _ (readIdle_trc hk hr f), getElem?_words_eq_recordWord r hf]
  all_goals exact hvalue _ rfl

/-- Settles O49: what the engine does not write is read as in IDLE, with `STATUS` and `ERRINFO` as R33 fixes them. -/
theorem busyReadsAreDefinedForOperands : Obligations.BusyReadsAreDefinedForOperands := by
  intro w s addr rest _ hconsistent hb hagenda
  obtain ⟨v, t, hstep, hreplies, hrest, hblock, hvalue⟩ := step_read_reply hagenda
  refine ⟨v, t, hstep, hreplies, hrest, hblock, ?_⟩
  obtain ⟨hstatus, hinfo⟩ := hconsistent.running hb
  have hidle (hp : engineWritten (placeAt w s.depth addr) = false) (u : Word w)
      (hu : readIdle s (placeAt w s.depth addr) = some u) : v = u :=
    hvalue u ((readValue_of_not_engineWritten hp).trans hu)
  cases hp : placeAt w s.depth addr <;> rw [hp] at hidle
  case status =>
    rw [hidle rfl _ rfl, hstatus, statusWord_accepted]
  case errinfo =>
    rw [hidle rfl _ rfl, hinfo]
  case cmd | a | b | n | reserved => exact hidle rfl _ rfl
  all_goals trivial

end Sys2Proof.Safety

/-! # The command word (30_encoding.md R70 to R72)

The two fields of a word as numbers, and the three answers of the decoder. -/

namespace Sys2Proof

open Sys2Proof.Independence

variable {w : Nat}

/-! ## The fields -/

@[simp] theorem toNat_opcField (v : Word w) : (opcField v).toNat = v.toNat % 16 := by
  rw [opcField, BitVec.extractLsb'_toNat, Nat.shiftRight_zero]

theorem opcField_eq_setWidth (v : Word w) : opcField v = v.setWidth 4 :=
  BitVec.eq_of_toNat_eq (by rw [toNat_opcField, BitVec.toNat_setWidth])

/-- `ZERO` is clear when the word is a number of four bits. -/
theorem zeroField_eq_zero_iff (hw : 4 ≤ w) (v : Word w) : zeroField v = 0 ↔ v.toNat < 16 := by
  have hsplit : 2 ^ w = 16 * 2 ^ (w - 4) := by
    rw [show (16 : Nat) = 2 ^ 4 from rfl, ← Nat.pow_add, Nat.add_sub_cancel' hw]
  have hquot : v.toNat / 16 < 2 ^ (w - 4) := Nat.div_lt_of_lt_mul (hsplit ▸ v.isLt)
  have hvalue : (zeroField v).toNat = v.toNat / 16 := by
    rw [zeroField, BitVec.extractLsb'_toNat, Nat.shiftRight_eq_div_pow, Nat.mod_eq_of_lt hquot]
  rw [← BitVec.toNat_inj, hvalue, BitVec.ofNat_eq_ofNat, BitVec.toNat_zero]
  omega

/-! ## The opcode map -/

@[simp] theorem opcodeMap_opcode (i : Instr) : opcodeMap (opcode i) = some i := by
  cases i <;> rfl

/-- The reserved opcodes are 0 and 6 to 15 (R72). -/
theorem opcodeMap_eq_none_iff (opc : BitVec 4) : opcodeMap opc = none ↔ opc.toNat = 0 ∨ 6 ≤ opc.toNat := by
  revert opc
  decide

/-! ## The decoder -/

theorem toNat_encodeWord (hw : 8 ≤ w) (i : Instr) : (encodeWord w i).toNat = (opcode i).toNat :=
  BitVec.toNat_setWidth_of_le (by omega)

theorem decodeWord_encodeWord (hw : 8 ≤ w) (i : Instr) : decodeWord (encodeWord w i) = .ok i := by
  obtain ⟨hopc, hzero⟩ := Laws.WordFields.encodeWord_fields i w hw
  simp [decodeWord, hopc, hzero]

/-- A word is a command exactly when it has the value of the command's opcode (R71). -/
theorem decodeWord_eq_ok_iff (hw : 8 ≤ w) (v : Word w) (i : Instr) :
    decodeWord v = .ok i ↔ v.toNat = (opcode i).toNat := by
  rw [← toNat_encodeWord hw, BitVec.toNat_inj]
  exact ⟨eq_encodeWord_of_decodeWord, fun h => h ▸ decodeWord_encodeWord hw i⟩

theorem decodeWord_of_reserved {v : Word w} (h : v.toNat % 16 = 0 ∨ 6 ≤ v.toNat % 16) :
    decodeWord v = .error (.reservedOpcode (opcField v)) := by
  have hnone : opcodeMap (opcField v) = none := by rwa [opcodeMap_eq_none_iff, toNat_opcField]
  simp [decodeWord, hnone]

theorem decodeWord_of_upper (hw : 8 ≤ w) {v : Word w} (hopc : 1 ≤ v.toNat % 16 ∧ v.toNat % 16 ≤ 5)
    (hupper : 16 ≤ v.toNat) : decodeWord v = .error (.upperBitsSet (opcField v)) := by
  have hzero : zeroField v ≠ 0 := by rw [Ne, zeroField_eq_zero_iff (by omega)]; omega
  cases hmap : opcodeMap (opcField v) with
  | none => rw [opcodeMap_eq_none_iff, toNat_opcField] at hmap; omega
  | some i => simp only [decodeWord, hmap, if_neg hzero]

/-- Settles O1: a command's word is its opcode's, and the two refusals are those of the two fields. -/
theorem commandWordIsItsOpcode : Obligations.CommandWordIsItsOpcode := by
  refine ⟨⟨rfl, rfl, rfl, rfl, rfl⟩, fun w v hw => ?_⟩
  rw [← opcField_eq_setWidth]
  exact ⟨decodeWord_eq_ok_iff hw v, decodeWord_of_reserved, decodeWord_of_upper hw⟩

end Sys2Proof

/-! # The canonical text (30_encoding.md R75 to R78, 00_scope.md R7, R20)

What `dec`, `term`, `bits` and `encodeText` give: their characters, their value, their length. -/

namespace Sys2Proof.Machine

variable {w : Nat}

/-! ## Characters -/

/-- The characters of a term: digits, `x` and `^`. -/
def IsTermChar (c : Byte) : Prop :=
  c = chX ∨ c = chCaret ∨ isDigit c = true

theorem isDigit_iff (c : Byte) : isDigit c = true ↔ 0x30 ≤ c.toNat ∧ c.toNat ≤ 0x39 :=
  decide_eq_true_iff

theorem isSpace_eq_false_of_isDigit {c : Byte} (h : isDigit c = true) : isSpace c = false := by
  rw [isDigit_iff] at h
  rw [isSpace, decide_eq_false_iff_not]
  rintro (rfl | ⟨-, hle⟩)
  · exact absurd h.1 (by decide)
  · omega

theorem IsTermChar.isSpace_eq_false {c : Byte} (h : IsTermChar c) : isSpace c = false := by
  obtain rfl | rfl | hdigit := h
  · rfl
  · rfl
  · exact isSpace_eq_false_of_isDigit hdigit

/-- The separator is no character of a term. -/
theorem not_isTermChar_chPlus : ¬ IsTermChar chPlus := by
  unfold IsTermChar
  decide

theorem toNat_digitChar {d : Nat} (hd : d < 10) : (digitChar d).toNat = 0x30 + d := by
  rw [digitChar, BitVec.toNat_ofNat, Nat.mod_eq_of_lt (by omega)]

theorem digitValue_digitChar {d : Nat} (hd : d < 10) : digitValue (digitChar d) = d := by
  rw [digitValue, toNat_digitChar hd, Nat.add_sub_cancel_left]

theorem isDigit_digitChar {d : Nat} (hd : d < 10) : isDigit (digitChar d) = true := by
  rw [isDigit_iff, toNat_digitChar hd]
  omega

theorem digitChar_eq_chZero_iff {d : Nat} (hd : d < 10) : digitChar d = chZero ↔ d = 0 := by
  rw [← BitVec.toNat_inj, toNat_digitChar hd]
  exact Nat.add_eq_left

/-! ## Numerals -/

/-- Any fuel above the number gives the same digits. -/
theorem decDigits_congr_fuel : ∀ {f g p : Nat}, p < f → p < g → decDigits f p = decDigits g p
  | f + 1, g + 1, p, hf, hg => by
    rw [decDigits, decDigits]
    split
    · rfl
    · rw [decDigits_congr_fuel (f := f) (g := g) (by omega) (by omega)]

theorem dec_of_lt {p : Nat} (hp : p < 10) : dec p = [digitChar p] := by
  rw [dec, decDigits, if_pos hp]

theorem dec_of_le {p : Nat} (hp : 10 ≤ p) : dec p = dec (p / 10) ++ [digitChar (p % 10)] := by
  rw [dec, decDigits, if_neg (by omega), dec, decDigits_congr_fuel (g := p / 10 + 1) (by omega) (by omega)]

/-- Induction along a numeral, from its leading digit on. -/
theorem numeral_induction {P : Nat → Prop} (digit : ∀ p < 10, P p) (snoc : ∀ p, 10 ≤ p → P (p / 10) → P p)
    (p : Nat) : P p := by
  induction p using Nat.strongRecOn with
  | ind p ih =>
    obtain hp | hp := Nat.lt_or_ge p 10
    · exact digit p hp
    · exact snoc p hp (ih _ (by omega))

theorem digitsValue_append_singleton (d : List Byte) (c : Byte) :
    digitsValue (d ++ [c]) = 10 * digitsValue d + digitValue c := by
  simp [digitsValue]

theorem digitsValue_dec (p : Nat) : digitsValue (dec p) = p := by
  induction p using numeral_induction with
  | digit p hp => simp [dec_of_lt hp, digitsValue, digitValue_digitChar hp]
  | snoc p hp ih =>
    rw [dec_of_le hp, digitsValue_append_singleton, ih, digitValue_digitChar (by omega)]
    omega

theorem all_isDigit_dec (p : Nat) : (dec p).all isDigit = true := by
  induction p using numeral_induction with
  | digit p hp => simp [dec_of_lt hp, isDigit_digitChar hp]
  | snoc p hp ih => simp [dec_of_le hp, ih, isDigit_digitChar (Nat.mod_lt p (by decide))]

/-- No numeral but that of 0 begins with the digit 0. -/
theorem exists_dec_eq_cons {p : Nat} (hp : 1 ≤ p) : ∃ c ds, dec p = c :: ds ∧ c ≠ chZero := by
  induction p using numeral_induction with
  | digit p hlt => exact ⟨_, [], dec_of_lt hlt, by rw [Ne, digitChar_eq_chZero_iff hlt]; omega⟩
  | snoc p hle ih =>
    obtain ⟨c, ds, hdec, hc⟩ := ih (by omega)
    exact ⟨c, ds ++ [digitChar (p % 10)], by rw [dec_of_le hle, hdec, List.cons_append], hc⟩

theorem head?_dec_ne_chZero {p : Nat} (hp : 1 ≤ p) : (dec p).head? ≠ some chZero := by
  obtain ⟨c, ds, hdec, hc⟩ := exists_dec_eq_cons hp
  rwa [hdec, List.head?_cons, Ne, Option.some_inj]

/-- A numeral has as many digits as R7 counts. -/
theorem length_decDigits : ∀ {f p : Nat}, p ≤ f → (decDigits (f + 1) p).length = Config.digitCount f p
  | 0, p, hp => by rw [decDigits, if_pos (by omega)]; rfl
  | f + 1, p, hp => by
    rw [decDigits, Config.digitCount]
    split
    · rfl
    · rw [List.length_append, length_decDigits (by omega)]; exact Nat.add_comm ..

theorem length_dec (p : Nat) : (dec p).length = Config.digitCount p p :=
  length_decDigits le_rfl

/-! ## Terms -/

theorem term_of_two_le {p : Nat} (hp : 2 ≤ p) : term p = chX :: chCaret :: dec p := by
  rw [term, if_neg (by omega), if_neg (by omega)]

theorem isTermChar_of_mem_term {p : Nat} {c : Byte} (hc : c ∈ term p) : IsTermChar c := by
  unfold term at hc
  split_ifs at hc
  · rw [List.mem_singleton.1 hc]; exact .inr (.inr rfl)
  · exact .inl (List.mem_singleton.1 hc)
  · obtain rfl | hc := List.mem_cons.1 hc
    · exact .inl rfl
    obtain rfl | hc := List.mem_cons.1 hc
    · exact .inr (.inl rfl)
    exact .inr (.inr (List.all_eq_true.1 (all_isDigit_dec p) c hc))

theorem length_term (p : Nat) : (term p).length = Config.termLen p := by
  obtain rfl | rfl | hp : p = 0 ∨ p = 1 ∨ 2 ≤ p := by omega
  · rfl
  · rfl
  · rw [term_of_two_le hp, Config.termLen, if_neg (by omega), List.length_cons, List.length_cons, length_dec]
    omega

/-! ## Set bits -/

theorem mem_bits (v : BitVec w) (p : Nat) : p ∈ bits v ↔ v.getLsbD p = true := by
  rw [bits, List.mem_filter, List.mem_range, and_iff_right_iff_imp]
  exact BitVec.lt_of_getLsbD

theorem bits_sublist_range (v : BitVec w) : (bits v).Sublist (List.range w) :=
  List.filter_sublist

theorem bits_pairwise_lt (v : BitVec w) : (bits v).Pairwise (· < ·) :=
  List.pairwise_lt_range.sublist (bits_sublist_range v)

theorem bits_ne_nil {v : BitVec w} (hv : v ≠ 0) : bits v ≠ [] := by
  intro hnil
  refine hv (BitVec.eq_of_getLsbD_eq fun p _ => ?_)
  rw [BitVec.ofNat_eq_ofNat, BitVec.getLsbD_zero, ← Bool.not_eq_true, ← mem_bits, hnil]
  exact List.not_mem_nil

theorem bits_allOnes (w : Nat) : bits (BitVec.allOnes w) = List.range w := by
  rw [bits, List.filter_eq_self]
  intro p hp
  simpa using hp

/-! ## The text -/

theorem encodeText_zero : encodeText (0 : BitVec w) = [chZero] :=
  if_pos rfl

theorem encodeText_of_ne_zero {v : BitVec w} (hv : v ≠ 0) :
    encodeText v = [chPlus].intercalate ((bits v).reverse.map term) :=
  if_neg hv

/-- A joined list holds the separator and the members of its pieces, nothing else. -/
theorem mem_intercalate_singleton {α : Type} {sep c : α} {ls : List (List α)} (hc : c ∈ [sep].intercalate ls) :
    c = sep ∨ ∃ l ∈ ls, c ∈ l := by
  induction ls with
  | nil => cases hc
  | cons l ls ih =>
    cases ls with
    | nil => exact .inr ⟨l, List.mem_singleton_self l, by rwa [List.intercalate_singleton] at hc⟩
    | cons l' ls =>
      rw [List.intercalate_cons_cons, List.mem_append, List.mem_append, List.mem_singleton] at hc
      obtain (hl | rfl) | hrest := hc
      · exact .inr ⟨l, List.mem_cons_self, hl⟩
      · exact .inl rfl
      · exact (ih hrest).imp_right fun ⟨m, hm, hcm⟩ => ⟨m, List.mem_cons_of_mem l hm, hcm⟩

theorem length_intercalate_singleton {α : Type} (sep : α) (ls : List (List α)) :
    ([sep].intercalate ls).length = (ls.length - 1) + (ls.map List.length).sum := by
  induction ls with
  | nil => rfl
  | cons l ls ih =>
    cases ls with
    | nil => simp
    | cons l' ls =>
      rw [List.intercalate_cons_cons, List.length_append, List.length_append, ih]
      simp only [List.length_cons, List.length_nil, List.map_cons, List.sum_cons]
      omega

theorem isSpace_eq_false_of_mem_encodeText {v : BitVec w} {c : Byte} (hc : c ∈ encodeText v) : isSpace c = false := by
  by_cases hv : v = 0
  · subst hv
    rw [encodeText_zero, List.mem_singleton] at hc
    subst hc
    rfl
  · rw [encodeText_of_ne_zero hv] at hc
    obtain rfl | ⟨l, hl, hcl⟩ := mem_intercalate_singleton hc
    · rfl
    · obtain ⟨p, -, rfl⟩ := List.mem_map.1 hl
      exact (isTermChar_of_mem_term hcl).isSpace_eq_false

theorem stripSpace_encodeText (v : BitVec w) : stripSpace (encodeText v) = encodeText v :=
  List.filter_eq_self.2 fun _ hc => by rw [isSpace_eq_false_of_mem_encodeText hc]; rfl

/-- The pieces of the text are the terms of the set bits, highest first. -/
theorem splitTerms_encodeText {v : BitVec w} (hv : v ≠ 0) :
    splitTerms (encodeText v) = (bits v).reverse.map term := by
  rw [encodeText_of_ne_zero hv]
  refine List.splitOn_intercalate chPlus (fun l hl hplus => ?_) (by simpa using bits_ne_nil hv)
  obtain ⟨p, -, rfl⟩ := List.mem_map.1 hl
  exact not_isTermChar_chPlus (isTermChar_of_mem_term hplus)

theorem length_encodeText {v : BitVec w} (hv : v ≠ 0) :
    (encodeText v).length = ((bits v).length - 1) + ((bits v).map Config.termLen).sum := by
  have hlen : List.length ∘ term = Config.termLen := funext length_term
  rw [encodeText_of_ne_zero hv, length_intercalate_singleton, List.map_map, hlen, List.length_map,
    List.length_reverse, List.map_reverse, List.sum_reverse]

/-- `ENC_MAX` bounds the text: the set bits are among the `w` positions it sums over. -/
theorem length_encodeText_le (hw : 1 ≤ w) (v : BitVec w) : (encodeText v).length ≤ Config.encMax w := by
  have hsub := bits_sublist_range v
  by_cases hv : v = 0
  · subst hv
    have hterm : Config.termLen 0 ≤ ((List.range w).map Config.termLen).sum :=
      List.single_le_sum (by simp) _ (List.mem_map_of_mem (List.mem_range.2 hw))
    rw [encodeText_zero, Config.encMax]
    exact hterm.trans (Nat.le_add_left ..)
  · rw [length_encodeText hv, Config.encMax]
    have hcount : (bits v).length ≤ w := by simpa using hsub.length_le
    have hsum := (hsub.map Config.termLen).sum_le_sum fun _ _ => Nat.zero_le _
    omega

theorem length_encodeText_allOnes (hw : 1 ≤ w) : (encodeText (BitVec.allOnes w)).length = Config.encMax w := by
  have hne : BitVec.allOnes w ≠ 0 := fun h => by
    have hbit := congrArg (BitVec.getLsbD · 0) h
    simp only [BitVec.getLsbD_allOnes, BitVec.ofNat_eq_ofNat, BitVec.getLsbD_zero, decide_eq_false_iff_not] at hbit
    omega
  rw [length_encodeText hne, bits_allOnes, List.length_range, Config.encMax]

/-- Settles O17: the text is cut at `+` back into its terms, and its length is summed over the set bits. -/
theorem encodeTextIsCanonical : Obligations.EncodeTextIsCanonical := by
  intro w v
  refine ⟨stripSpace_encodeText v, encodeText_zero, fun hv => ?_, ⟨rfl, rfl, fun _ => term_of_two_le⟩,
    fun p => ⟨digitsValue_dec p, all_isDigit_dec p, head?_dec_ne_chZero⟩,
    fun hw => ⟨length_encodeText_le hw v, length_encodeText_allOnes hw⟩, by decide⟩
  exact ⟨(bits v).reverse, splitTerms_encodeText hv, List.pairwise_reverse.2 (bits_pairwise_lt v),
    fun p => List.mem_reverse.trans (mem_bits v p)⟩

end Sys2Proof.Machine

/-! # DECODE (40_codec.md R94 to R98, R100 to R102)

Each step of `decode` has its rules: the whitespace, the pieces between the `+` characters, the class of a piece, the
combination. `decodeText_eq_ok_iff` and `decodeText_eq_err_iff` put them together, and the laws of the Codec follow from
these two. -/

namespace Sys2Proof.Machine

open Sys2Proof.Safety

variable {w : Nat}

/-! ## Step 1: whitespace (R94) -/

theorem isSpace_iff_mem (c : Byte) :
    isSpace c = true ↔ c ∈ ([0x09, 0x0A, 0x0B, 0x0C, 0x0D, 0x20] : List Byte) := by
  simp only [isSpace, decide_eq_true_eq, List.mem_cons, List.not_mem_nil, or_false, ← BitVec.toNat_inj,
    BitVec.ofNat_eq_ofNat, BitVec.toNat_ofNat]
  omega

theorem stripSpace_cons (c : Byte) (t : List Byte) : stripSpace (c :: t) =
    if c ∈ ([0x09, 0x0A, 0x0B, 0x0C, 0x0D, 0x20] : List Byte) then stripSpace t else c :: stripSpace t := by
  rw [stripSpace, List.filter_cons]
  simp only [Bool.not_eq_true', ← Bool.not_eq_true, isSpace_iff_mem, ite_not]
  rfl

theorem stripSpace_append (t t' : List Byte) : stripSpace (t ++ t') = stripSpace t ++ stripSpace t' :=
  List.filter_append ..

theorem stripSpace_stripSpace (t : List Byte) : stripSpace (stripSpace t) = stripSpace t := by
  simp [stripSpace]

/-! ## Step 2: the pieces (R95) -/

/-- Induction over the pieces of a text, from the left. -/
theorem pieces_induction {P : List Byte → Prop} (last : ∀ u, chPlus ∉ u → P u)
    (cons : ∀ u t, chPlus ∉ u → P t → P (u ++ chPlus :: t)) (t : List Byte) : P t := by
  induction hn : t.length using Nat.strongRecOn generalizing t with
  | ind n ih =>
    by_cases hplus : chPlus ∈ t
    · obtain ⟨u, t', rfl, hu⟩ := List.eq_append_cons_of_mem hplus
      rw [List.length_append, List.length_cons] at hn
      exact cons u t' hu (ih _ (by omega) t' rfl)
    · exact last t hplus

theorem splitTerms_of_not_mem {u : List Byte} (hu : chPlus ∉ u) : splitTerms u = [u] :=
  List.splitOn_eq_singleton hu

theorem splitTerms_append_plus {u : List Byte} (hu : chPlus ∉ u) (t : List Byte) :
    splitTerms (u ++ chPlus :: t) = u :: splitTerms t :=
  List.splitOn_append_cons_self_of_not_mem hu t

theorem splitTerms_ne_nil (t : List Byte) : splitTerms t ≠ [] :=
  List.splitOn_ne_nil chPlus t

theorem not_mem_of_mem_splitTerms (t : List Byte) : ∀ u ∈ splitTerms t, chPlus ∉ u := by
  induction t using pieces_induction with
  | last u hu => simpa [splitTerms_of_not_mem hu] using hu
  | cons u t hu ih => simpa [splitTerms_append_plus hu] using ⟨hu, ih⟩

theorem length_splitTerms (t : List Byte) : (splitTerms t).length = t.count chPlus + 1 := by
  induction t using pieces_induction with
  | last u hu => simp [splitTerms_of_not_mem hu, List.count_eq_zero_of_not_mem hu]
  | cons u t hu ih => simp [splitTerms_append_plus hu, List.count_eq_zero_of_not_mem hu, ih]

/-! ## Step 3: the class of a piece (R96) -/

theorem classify_one (w : Nat) : classify w [chOne] = .exp 0 := rfl

theorem classify_x (w : Nat) : classify w [chX] = .exp 1 := rfl

theorem classify_caret (w : Nat) (d : List Byte) : classify w (chX :: chCaret :: d) =
    if d = [] ∨ d.all isDigit = false then .bad .malformedExponent
    else if w ≤ digitsValue d then .bad .exponentRange
    else .exp (digitsValue d) := by
  simp [classify]

theorem classify_caret_of_malformed (w : Nat) {d : List Byte} (hd : d = [] ∨ d.all isDigit = false) :
    classify w (chX :: chCaret :: d) = .bad .malformedExponent := by
  rw [classify_caret, if_pos hd]

theorem classify_caret_of_digits (w : Nat) {d : List Byte} (hne : d ≠ []) (hd : d.all isDigit = true) :
    classify w (chX :: chCaret :: d) =
      if w ≤ digitsValue d then .bad .exponentRange else .exp (digitsValue d) := by
  rw [classify_caret, if_neg (by simp [hne, hd])]

/-- A piece of none of the three shapes is malformed. -/
theorem classify_of_no_shape (w : Nat) {u : List Byte} (hone : u ≠ [chOne]) (hx : u ≠ [chX])
    (hcaret : ∀ d, u ≠ chX :: chCaret :: d) : classify w u = .bad .malformedTerm := by
  unfold classify
  rw [if_neg hone, if_neg hx]
  split
  · next c0 c1 d => exact if_neg fun ⟨h0, h1⟩ => hcaret d (by rw [h0, h1])
  · rfl

/-- The pieces that carry an exponent are those of the three shapes of R77. -/
theorem classify_eq_exp_iff {u : List Byte} {e : Nat} : classify w u = .exp e ↔
    (u = [chOne] ∧ e = 0) ∨ (u = [chX] ∧ e = 1) ∨
      ∃ d, u = chX :: chCaret :: d ∧ d ≠ [] ∧ d.all isDigit = true ∧ digitsValue d = e ∧ e < w := by
  constructor
  · intro h
    by_cases hone : u = [chOne]
    · subst hone; cases h; exact .inl ⟨rfl, rfl⟩
    by_cases hx : u = [chX]
    · subst hx; cases h; exact .inr (.inl ⟨rfl, rfl⟩)
    by_cases hcaret : ∃ d, u = chX :: chCaret :: d
    · obtain ⟨d, rfl⟩ := hcaret
      rw [classify_caret] at h
      split_ifs at h with hd hw
      cases h
      rw [not_or, Bool.not_eq_false] at hd
      exact .inr (.inr ⟨d, rfl, hd.1, hd.2, rfl, Nat.lt_of_not_le hw⟩)
    · rw [classify_of_no_shape w hone hx (not_exists.1 hcaret)] at h
      cases h
  · rintro (⟨rfl, rfl⟩ | ⟨rfl, rfl⟩ | ⟨d, rfl, hne, hd, rfl, hw⟩)
    · exact classify_one w
    · exact classify_x w
    · rw [classify_caret_of_digits w hne hd, if_neg (Nat.not_le.2 hw)]

/-- The exponents 0 and 1 fit every width of at least two bits; a written one is tested. -/
theorem lt_width_of_classify (hw : 2 ≤ w) {u : List Byte} {e : Nat} (h : classify w u = .exp e) : e < w := by
  obtain ⟨-, rfl⟩ | ⟨-, rfl⟩ | ⟨d, -, -, -, -, hlt⟩ := classify_eq_exp_iff.1 h
  · omega
  · omega
  · exact hlt

theorem classify_term {p : Nat} (hp : p < w) : classify w (term p) = .exp p := by
  obtain rfl | rfl | htwo : p = 0 ∨ p = 1 ∨ 2 ≤ p := by omega
  · exact classify_one w
  · exact classify_x w
  · obtain ⟨c, ds, hdec, -⟩ := exists_dec_eq_cons (p := p) (by omega)
    exact classify_eq_exp_iff.2
      (.inr (.inr ⟨dec p, term_of_two_le htwo, by simp [hdec], all_isDigit_dec p, digitsValue_dec p, hp⟩))

/-! ## Step 4: the combination (R97) -/

/-- A piece that classifies as an exponent. -/
def HasClassExp (w : Nat) (u : List Byte) : Prop :=
  ∃ e : Nat, classify w u = .exp e

theorem hasClassExp_iff {u : List Byte} : HasClassExp w u ↔
    u = [chOne] ∨ u = [chX] ∨
      ∃ d, u = chX :: chCaret :: d ∧ d ≠ [] ∧ d.all isDigit = true ∧ digitsValue d < w := by
  simp [HasClassExp, classify_eq_exp_iff, exists_or]

/-- Piece `i` is bad with fault `f` and the pieces before it carry exponents. -/
def FirstBadAt (w : Nat) (f : CommandFault) (us : List (List Byte)) (i : Nat) : Prop :=
  (∃ u, us[i]? = some u ∧ classify w u = .bad f) ∧
    ∀ k < i, ∃ (u : List Byte) (e : Nat), us[k]? = some u ∧ classify w u = .exp e

theorem not_firstBadAt_nil {f : CommandFault} {i : Nat} : ¬ FirstBadAt w f [] i := by
  simp [FirstBadAt]

theorem firstBadAt_cons_zero {f : CommandFault} {u : List Byte} {us : List (List Byte)} :
    FirstBadAt w f (u :: us) 0 ↔ classify w u = .bad f := by
  simp [FirstBadAt]

theorem firstBadAt_cons_succ {f : CommandFault} {u : List Byte} {us : List (List Byte)} {i : Nat} :
    FirstBadAt w f (u :: us) (i + 1) ↔ HasClassExp w u ∧ FirstBadAt w f us i := by
  simp only [FirstBadAt, HasClassExp, Nat.forall_lt_succ_left, List.getElem?_cons_succ, List.getElem?_cons_zero,
    Option.some_inj, exists_and_left, exists_eq_left']
  exact and_left_comm

theorem combine_cons_of_exp {u : List Byte} {e : Nat} (h : classify w u = .exp e) (j : Nat) (v : BitVec w)
    (us : List (List Byte)) : combine w j v (u :: us) = combine w (j + 1) (v ||| BitVec.twoPow w e) us := by
  rw [combine, h]

theorem combine_cons_of_bad {u : List Byte} {f : CommandFault} (h : classify w u = .bad f) (j : Nat) (v : BitVec w)
    (us : List (List Byte)) : combine w j v (u :: us) = .err f j := by
  rw [combine, h]

/-- The combination succeeds when every piece carries an exponent, and adds exactly those bits. -/
theorem combine_eq_ok_iff {j : Nat} {v v' : BitVec w} {us : List (List Byte)} : combine w j v us = .ok v' ↔
    (∀ u ∈ us, HasClassExp w u) ∧
      ∀ p < w, v'.getLsbD p = true ↔ v.getLsbD p = true ∨ ∃ u ∈ us, classify w u = .exp p := by
  induction us generalizing j v with
  | nil =>
    have hbits : v = v' ↔ ∀ p < w, v'.getLsbD p = true ↔ v.getLsbD p = true :=
      ⟨fun h p _ => by rw [h], fun h => BitVec.eq_of_getLsbD_eq fun p hp => Bool.eq_iff_iff.2 (h p hp).symm⟩
    simpa [combine] using hbits
  | cons u us ih =>
    cases hu : classify w u with
    | bad f => simp [combine_cons_of_bad hu, HasClassExp, hu]
    | exp e =>
      have hbit : ∀ p < w, (v ||| BitVec.twoPow w e).getLsbD p = true ↔ v.getLsbD p = true ∨ e = p := by
        intro p hp
        simp [hp, eq_comm (a := e)]
      rw [combine_cons_of_exp hu, ih, List.forall_mem_cons]
      refine and_congr (by simp [HasClassExp, hu]) (forall₂_congr fun p hp => ?_)
      simp only [hbit p hp, List.exists_mem_cons_iff, hu, TermClass.exp.injEq, or_assoc]

/-- The combination fails at the first bad piece, counting from `j`. -/
theorem combine_eq_err_iff {j k : Nat} {v : BitVec w} {us : List (List Byte)} {f : CommandFault} :
    combine w j v us = .err f k ↔ ∃ i, k = j + i ∧ FirstBadAt w f us i := by
  induction us generalizing j v with
  | nil => simp [combine, not_firstBadAt_nil]
  | cons u us ih =>
    cases hu : classify w u with
    | bad f' =>
      rw [combine_cons_of_bad hu]
      constructor
      · rintro ⟨⟩
        exact ⟨0, rfl, firstBadAt_cons_zero.2 hu⟩
      · rintro ⟨_ | i, rfl, hfirst⟩
        · rw [firstBadAt_cons_zero, hu] at hfirst
          cases hfirst
          rfl
        · obtain ⟨⟨e, he⟩, -⟩ := firstBadAt_cons_succ.1 hfirst
          rw [hu] at he
          cases he
    | exp e =>
      rw [combine_cons_of_exp hu, ih]
      constructor
      · rintro ⟨i, rfl, hfirst⟩
        exact ⟨i + 1, by omega, firstBadAt_cons_succ.2 ⟨⟨e, hu⟩, hfirst⟩⟩
      · rintro ⟨_ | i, rfl, hfirst⟩
        · rw [firstBadAt_cons_zero, hu] at hfirst
          cases hfirst
        · exact ⟨i, by omega, (firstBadAt_cons_succ.1 hfirst).2⟩

/-! ## `decode` (R98) -/

/-- `decode` succeeds when every piece carries an exponent, with exactly those bits. -/
theorem decodeText_eq_ok_iff {t : List Byte} {v : BitVec w} : decodeText w t = .ok v ↔
    (∀ u ∈ splitTerms (stripSpace t), HasClassExp w u) ∧ ∀ p < w, v.getLsbD p = true ↔ hasExponent w t p := by
  simp [decodeText, combine_eq_ok_iff, hasExponent]

/-- `decode` fails exactly when a piece is bad, with the first one. -/
theorem decodeText_eq_err_iff {t : List Byte} {f : CommandFault} {j : Nat} :
    decodeText w t = .err f j ↔ FirstBadAt w f (splitTerms (stripSpace t)) j := by
  simp [decodeText, combine_eq_err_iff]

/-- Some value has the bits of the exponents, so nothing but the pieces decides. -/
theorem exists_decodeText_eq_ok_iff {t : List Byte} : (∃ v : BitVec w, decodeText w t = .ok v) ↔
    ∀ u ∈ splitTerms (stripSpace t), HasClassExp w u := by
  classical
  refine ⟨fun ⟨v, hv⟩ => (decodeText_eq_ok_iff.1 hv).1, fun h => ?_⟩
  refine ⟨BitVec.ofFnLE fun p => decide (hasExponent w t p), decodeText_eq_ok_iff.2 ⟨h, fun p hp => ?_⟩⟩
  simp [hp]

theorem lt_width_of_hasExponent (hw : 2 ≤ w) {t : List Byte} {p : Nat} (h : hasExponent w t p) : p < w := by
  obtain ⟨u, -, hu⟩ := h
  exact lt_width_of_classify hw hu

theorem getLsbD_iff_hasExponent (hw : 2 ≤ w) {t : List Byte} {v : BitVec w} (h : decodeText w t = .ok v) (p : Nat) :
    v.getLsbD p = true ↔ hasExponent w t p := by
  have hbits := (decodeText_eq_ok_iff.1 h).2
  exact ⟨fun hv => (hbits p (BitVec.lt_of_getLsbD hv)).1 hv, fun ht => (hbits p (lt_width_of_hasExponent hw ht)).2 ht⟩

/-- There is a piece, and its exponent is a bit of the value. -/
theorem ne_zero_of_decodeText (hw : 2 ≤ w) {t : List Byte} {v : BitVec w} (h : decodeText w t = .ok v) : v ≠ 0 := by
  rintro rfl
  obtain ⟨u, hu⟩ := List.exists_mem_of_ne_nil _ (splitTerms_ne_nil (stripSpace t))
  obtain ⟨e, he⟩ := (decodeText_eq_ok_iff.1 h).1 u hu
  simpa using (getLsbD_iff_hasExponent hw h e).2 ⟨u, hu, he⟩

theorem decodeText_chZero (w : Nat) : decodeText w [chZero] = .err .malformedTerm 0 := rfl

theorem decodeText_congr {t t' : List Byte} (h : stripSpace t = stripSpace t') : decodeText w t = decodeText w t' := by
  rw [decodeText, decodeText, h]

/-! ## The round trip (R100) -/

theorem hasExponent_encodeText {v : BitVec w} (hv : v ≠ 0) (p : Nat) :
    hasExponent w (encodeText v) p ↔ v.getLsbD p = true := by
  have hterm : ∀ q ∈ bits v, classify w (term q) = .exp q := fun q hq =>
    classify_term (BitVec.lt_of_getLsbD ((mem_bits v q).1 hq))
  simp only [hasExponent, stripSpace_encodeText, splitTerms_encodeText hv, List.mem_map,
    exists_exists_and_eq_and, List.mem_reverse, ← mem_bits]
  constructor
  · rintro ⟨q, hq, hclass⟩
    rw [hterm q hq] at hclass
    cases hclass
    exact hq
  · exact fun hp => ⟨p, hp, hterm p hp⟩

theorem decodeText_encodeText {v : BitVec w} (hv : v ≠ 0) : decodeText w (encodeText v) = .ok v := by
  refine decodeText_eq_ok_iff.2 ⟨fun u hu => ?_, fun p _ => (hasExponent_encodeText hv p).symm⟩
  rw [stripSpace_encodeText, splitTerms_encodeText hv] at hu
  obtain ⟨p, hp, rfl⟩ := List.mem_map.1 hu
  rw [List.mem_reverse, mem_bits] at hp
  exact ⟨p, classify_term (BitVec.lt_of_getLsbD hp)⟩

/-- Settles O18: the pieces of the text are the terms of the set bits, and each carries its exponent. -/
theorem decodeEncodeRoundTrip : Obligations.DecodeEncodeRoundTrip :=
  fun w _ => ⟨decodeText_encodeText, decodeText_chZero w⟩

/-! ## The grammar (30_encoding.md R77) -/

/-- At a `+` the recogniser asks that a piece may end there, and begins the next. -/
theorem matchesGrammar_plus (w : Nat) (q : GrammarState) (t : List Byte) :
    matchesGrammar w q (chPlus :: t) = (matchesGrammar w q [] && matchesGrammar w .term t) := by
  cases q <;> rfl

/-- On any other character it moves on or rejects, whatever follows. -/
theorem matchesGrammar_advance (w : Nat) (q : GrammarState) {c : Byte} (hc : c ≠ chPlus) :
    (∃ q', ∀ t, matchesGrammar w q (c :: t) = matchesGrammar w q' t) ∨ ∀ t, matchesGrammar w q (c :: t) = false := by
  cases q with
  | term =>
    by_cases hone : c = chOne
    · exact .inl ⟨.one, fun t => if_pos hone⟩
    by_cases hx : c = chX
    · exact .inl ⟨.x, fun t => by rw [matchesGrammar, if_neg hone, if_pos hx]⟩
    · exact .inr fun t => by rw [matchesGrammar, if_neg hone, if_neg hx]
  | one => exact .inr fun t => if_neg hc
  | x =>
    by_cases hcaret : c = chCaret
    · exact .inl ⟨.caret, fun t => by rw [matchesGrammar, if_neg hc, if_pos hcaret]⟩
    · exact .inr fun t => by rw [matchesGrammar, if_neg hc, if_neg hcaret]
  | caret =>
    by_cases hdigit : isDigit c = true
    · exact .inl ⟨.digits (digitValue c), fun t => if_pos hdigit⟩
    · exact .inr fun t => if_neg hdigit
  | digits e =>
    by_cases hdigit : isDigit c = true
    · exact .inl ⟨.digits (10 * e + digitValue c), fun t => by rw [matchesGrammar, if_neg hc, if_pos hdigit]⟩
    · exact .inr fun t => by rw [matchesGrammar, if_neg hc, if_neg hdigit]

/-- So it reads the pieces one by one. -/
theorem matchesGrammar_append_plus {u : List Byte} (hu : chPlus ∉ u) (q : GrammarState) (t : List Byte) :
    matchesGrammar w q (u ++ chPlus :: t) = (matchesGrammar w q u && matchesGrammar w .term t) := by
  induction u generalizing q with
  | nil => exact matchesGrammar_plus w q t
  | cons c u ih =>
    obtain ⟨hc, hu⟩ := List.ne_and_not_mem_of_not_mem_cons hu
    rw [List.cons_append]
    obtain ⟨q', hq'⟩ | hreject := matchesGrammar_advance w q (Ne.symm hc)
    · rw [hq', hq', ih hu]
    · rw [hreject, hreject, Bool.false_and]

/-- After `x^` and a digit the rest of a piece is digits, which continue the exponent. -/
theorem matchesGrammar_digits {d : List Byte} (hd : chPlus ∉ d) (e : Nat) : matchesGrammar w (.digits e) d =
    (d.all isDigit && decide (d.foldl (fun e c => 10 * e + digitValue c) e < w)) := by
  induction d generalizing e with
  | nil => rfl
  | cons c d ih =>
    obtain ⟨hc, hd⟩ := List.ne_and_not_mem_of_not_mem_cons hd
    rw [matchesGrammar, if_neg (Ne.symm hc), ih hd, List.all_cons, List.foldl_cons]
    cases isDigit c <;> rfl

theorem matchesGrammar_caret_iff {d : List Byte} (hd : chPlus ∉ d) : matchesGrammar w .caret d = true ↔
    d ≠ [] ∧ d.all isDigit = true ∧ digitsValue d < w := by
  cases d with
  | nil => simp [matchesGrammar]
  | cons c d =>
    rw [matchesGrammar, matchesGrammar_digits (List.ne_and_not_mem_of_not_mem_cons hd).2]
    by_cases hc : isDigit c = true
    · simp [hc, digitsValue]
    · simp [hc]

theorem matchesGrammar_one_iff {d : List Byte} (hd : chPlus ∉ d) : matchesGrammar w .one d = true ↔ d = [] := by
  cases d with
  | nil => simp [matchesGrammar]
  | cons c d => simp [matchesGrammar, Ne.symm (List.ne_and_not_mem_of_not_mem_cons hd).1]

theorem matchesGrammar_x_iff {d : List Byte} (hd : chPlus ∉ d) : matchesGrammar w .x d = true ↔
    d = [] ∨ ∃ d', d = chCaret :: d' ∧ d' ≠ [] ∧ d'.all isDigit = true ∧ digitsValue d' < w := by
  cases d with
  | nil => simp [matchesGrammar]
  | cons c d =>
    obtain ⟨hc, hd⟩ := List.ne_and_not_mem_of_not_mem_cons hd
    rw [matchesGrammar, if_neg (Ne.symm hc)]
    by_cases hcaret : c = chCaret
    · rw [if_pos hcaret, matchesGrammar_caret_iff hd]
      simp [hcaret]
    · simp [hcaret]

/-- On one piece the recogniser accepts the three shapes. -/
theorem matchesGrammar_term_iff {u : List Byte} (hu : chPlus ∉ u) :
    matchesGrammar w .term u = true ↔ HasClassExp w u := by
  rw [hasClassExp_iff]
  cases u with
  | nil => simp [matchesGrammar]
  | cons c d =>
    obtain ⟨-, hd⟩ := List.ne_and_not_mem_of_not_mem_cons hu
    rw [matchesGrammar]
    by_cases hone : c = chOne
    · subst hone
      rw [if_pos rfl, matchesGrammar_one_iff hd]
      simp [show chOne ≠ chX by decide]
    rw [if_neg hone]
    by_cases hx : c = chX
    · subst hx
      rw [if_pos rfl, matchesGrammar_x_iff hd]
      simp [hone]
    · simp [hone, hx]

/-- On a text it agrees with the classes of all pieces. -/
theorem matchesGrammar_iff (t : List Byte) :
    matchesGrammar w .term t = true ↔ ∀ u ∈ splitTerms t, HasClassExp w u := by
  induction t using pieces_induction with
  | last u hu => simp [splitTerms_of_not_mem hu, matchesGrammar_term_iff hu]
  | cons u t hu ih =>
    rw [matchesGrammar_append_plus hu, Bool.and_eq_true, matchesGrammar_term_iff hu, ih, splitTerms_append_plus hu,
      List.forall_mem_cons]

theorem exists_decodeText_iff_textWf {t : List Byte} : (∃ v : BitVec w, decodeText w t = .ok v) ↔ textWf w t = true := by
  rw [exists_decodeText_eq_ok_iff, textWf, matchesGrammar_iff]

theorem decodeText_insert_space {c : Byte} (hc : c ∈ ([0x09, 0x0A, 0x0B, 0x0C, 0x0D, 0x20] : List Byte))
    (t t' : List Byte) : decodeText w (t ++ c :: t') = decodeText w (t ++ t') :=
  decodeText_congr (by rw [stripSpace_append, stripSpace_cons, if_pos hc, stripSpace_append])

/-- Settles O19: the recogniser cuts a text at the same places as `splitTerms`, and agrees with `classify` on each piece. -/
theorem decodeSucceedsOnTheGrammar : Obligations.DecodeSucceedsOnTheGrammar :=
  ⟨fun w _ hw => ⟨exists_decodeText_iff_textWf, fun h => ne_zero_of_decodeText (by omega) h rfl, decodeText_chZero w⟩,
    fun c t t' => ⟨rfl, stripSpace_cons c t, stripSpace_append t t'⟩,
    fun w t t' => ⟨decodeText_congr (stripSpace_stripSpace t).symm, fun c hc => decodeText_insert_space hc t t'⟩⟩

/-! ## The remaining laws -/

theorem all_isDigit_eq_false_iff (d : List Byte) :
    d.all isDigit = false ↔ ∃ c ∈ d, c.toNat < 0x30 ∨ 0x39 < c.toNat := by
  simp only [List.all_eq_false, isDigit_iff]
  simp only [not_and_or, Nat.not_le]

/-- Settles O20: the rules of the four steps. -/
theorem decodeCombinesTheTerms : Obligations.DecodeCombinesTheTerms := by
  refine ⟨fun t => ⟨List.intercalate_splitOn chPlus, not_mem_of_mem_splitTerms t, length_splitTerms t⟩, ?_,
    ⟨rfl, digitsValue_append_singleton⟩, fun w t => ⟨fun v => decodeText_eq_ok_iff.1, fun f j => decodeText_eq_err_iff⟩⟩
  refine fun w _ => ⟨classify_one w, classify_x w, fun d hd => ?_, fun d hne hd => ?_, fun u => classify_of_no_shape w⟩
  · exact classify_caret_of_malformed w (hd.imp_right (all_isDigit_eq_false_iff d).2)
  · have hclass := classify_caret_of_digits w hne (List.all_eq_true.2 fun c hc => (isDigit_iff c).2 (hd c hc))
    exact ⟨fun hle => hclass.trans (if_pos hle), fun hlt => hclass.trans (if_neg (Nat.not_le.2 hlt))⟩

/-- Settles O21: the value is its set of bits, which is the set of the text's exponents. -/
theorem decodeDependsOnTheTermSet : Obligations.DecodeDependsOnTheTermSet := by
  intro w t hw hwf
  refine ⟨fun t' hwf' hsame => ?_, fun v hv => ?_⟩
  · obtain ⟨v, hv⟩ := exists_decodeText_iff_textWf.2 hwf
    have ht' : decodeText w t' = .ok v := decodeText_eq_ok_iff.2
      ⟨exists_decodeText_eq_ok_iff.1 (exists_decodeText_iff_textWf.2 hwf'),
        fun p _ => (getLsbD_iff_hasExponent (by omega) hv p).trans (hsame p)⟩
    rw [hv, ht']
  · have hne : v ≠ 0 := ne_zero_of_decodeText (by omega) hv
    have hbits := getLsbD_iff_hasExponent (by omega) hv
    exact ⟨hbits, fun p => (hasExponent_encodeText hne p).trans (hbits p), decodeText_encodeText hne⟩

end Sys2Proof.Machine

/-! # The Reducer (41_reducer.md R111 to R113, R118, R119)

One iteration lowers the degree; `reduce` then has an equation for each branch of its loop and an induction along its
iterations. The remainder theorem rests on the degree of a carry-less product: a multiple of the modulus of degree below
`n` is 0. -/

namespace Sys2Proof.Machine

variable {w : Nat}

/-! ## Degrees by bits (00_scope.md R10, R11) -/

theorem bitLength_eq_deg_add_one (v : BitVec w) : (bitLength v : Int) = deg v + 1 := by
  unfold deg
  omega

theorem deg_lt_iff_getLsbD (v : BitVec w) (n : Nat) :
    deg v < (n : Int) ↔ ∀ i : Nat, n ≤ i → v.getLsbD i = false := by
  rw [deg_lt_iff]
  constructor
  · intro hv i hi
    exact Nat.testBit_lt_two_pow (hv.trans_le (Nat.pow_le_pow_right (by decide) hi))
  · exact Nat.lt_pow_two_of_testBit v.toNat

theorem deg_eq_iff_getLsbD (v : BitVec w) (n : Nat) :
    deg v = (n : Int) ↔ v.getLsbD n = true ∧ ∀ i : Nat, n < i → v.getLsbD i = false := by
  have hlt := deg_lt_iff_getLsbD v n
  have hle := deg_lt_iff_getLsbD v (n + 1)
  push_cast at hle
  constructor
  · intro hv
    have htop : ∀ i : Nat, n < i → v.getLsbD i = false := hle.1 (by omega)
    refine ⟨Bool.of_not_eq_false fun hn => ?_, htop⟩
    have : deg v < (n : Int) := hlt.2 fun i hi => by
      rcases hi.eq_or_lt with rfl | hi
      · exact hn
      · exact htop i hi
    omega
  · intro ⟨hn, htop⟩
    have hnot : ¬ deg v < (n : Int) := fun h => by simp [hlt.1 h n le_rfl] at hn
    have := hle.2 htop
    omega

theorem exists_deg_eq {v : BitVec w} (hv : v ≠ 0) : ∃ d : Nat, d < w ∧ deg v = (d : Int) := by
  have hpos : bitLength v ≠ 0 := mt (bitLength_eq_zero_iff v).1 hv
  have := bitLength_le_width v
  have := bitLength_eq_deg_add_one v
  exact ⟨bitLength v - 1, by omega, by omega⟩

/-- Two values of the same degree: their top bits cancel. -/
theorem deg_xor_lt {u v : BitVec w} {d : Nat} (hu : deg u = (d : Int)) (hv : deg v = (d : Int)) :
    deg (u ^^^ v) < (d : Int) := by
  rw [deg_eq_iff_getLsbD] at hu hv
  obtain ⟨hud, hutop⟩ := hu
  obtain ⟨hvd, hvtop⟩ := hv
  rw [deg_lt_iff_getLsbD]
  intro i hi
  rw [BitVec.getLsbD_xor]
  rcases hi.eq_or_lt with rfl | hi
  · rw [hud, hvd, Bool.xor_self]
  · rw [hutop i hi, hvtop i hi, Bool.xor_self]

theorem deg_xor_lt_of_lt {u v : BitVec w} {n : Nat} (hu : deg u < (n : Int)) (hv : deg v < (n : Int)) :
    deg (u ^^^ v) < (n : Int) :=
  of_decide_eq_true (canonical_xor (decide_eq_true hu) (decide_eq_true hv))

theorem deg_shl {m : BitVec w} {n k : Nat} (hm : deg m = (n : Int)) (hk : n + k < w) :
    deg (shl m k) = ((n + k : Nat) : Int) := by
  rw [deg_eq_iff_getLsbD] at hm ⊢
  obtain ⟨hn, htop⟩ := hm
  simp only [shl, BitVec.getLsbD_shiftLeft]
  constructor
  · simp [hk, hn]
  · intro i hi
    simp [htop (i - k) (by omega)]

theorem toNat_shl {m : BitVec w} {n k : Nat} (hm : deg m = (n : Int)) (hk : n + k < w) :
    (shl m k).toNat = m.toNat * 2 ^ k := by
  rw [shl, BitVec.toNat_shiftLeft, Nat.shiftLeft_eq, Nat.mod_eq_of_lt]
  calc m.toNat * 2 ^ k < 2 ^ (n + 1) * 2 ^ k :=
        Nat.mul_lt_mul_of_pos_right ((deg_eq_iff m n).1 hm).2 (Nat.two_pow_pos k)
    _ = 2 ^ (n + 1 + k) := (Nat.pow_add ..).symm
    _ ≤ 2 ^ w := Nat.pow_le_pow_right (by decide) (by omega)

/-! ## One iteration (R111) -/

section Iteration

variable {v m : BitVec w} {n : Nat}

theorem deg_eq_add_redShift (hv : (n : Int) ≤ deg v) : deg v = ((n + redShift v n : Nat) : Int) := by
  unfold redShift
  omega

theorem add_redShift_lt_width (hv : (n : Int) ≤ deg v) : n + redShift v n < w := by
  have := deg_lt_width v
  have := deg_eq_add_redShift hv
  omega

theorem deg_redStep_sm (hm : deg m = (n : Int)) (hv : (n : Int) ≤ deg v) : deg (redStep v m n).sm = deg v :=
  (deg_shl hm (add_redShift_lt_width hv)).trans (deg_eq_add_redShift hv).symm

theorem deg_redStep_nv_lt (hm : deg m = (n : Int)) (hv : (n : Int) ≤ deg v) : deg (redStep v m n).nv < deg v := by
  rw [deg_eq_add_redShift hv]
  exact deg_xor_lt (deg_eq_add_redShift hv) (deg_shl hm (add_redShift_lt_width hv))

end Iteration

/-- Settles O23: the shifted modulus has the degree of the value (`deg_shl`), and xor cancels the two top bits
(`deg_xor_lt`). -/
theorem redStepLowersTheDegree : Obligations.RedStepLowersTheDegree := by
  refine ⟨by decide, by decide, fun w v m n hm hv => ?_⟩
  have hd := deg_eq_add_redShift hv
  have hw := add_redShift_lt_width hv
  have hnv := deg_redStep_nv_lt hm hv
  have hbit : (redStep v m n).nv.getLsbD (n + redShift v n) = false :=
    (deg_lt_iff_getLsbD _ _).1 (hd ▸ hnv) _ le_rfl
  exact ⟨show (redShift v n : Int) = deg v - n by omega, show redShift v n ≤ w - 1 - n by omega, toNat_shl hm hw,
    deg_redStep_sm hm hv, rfl, hbit, hnv⟩

/-! ## The loop (R112) -/

section Loop

variable {v m r : BitVec w} {n : Nat} {seg : BitVec 2} {tr : List (Record w)}

theorem reduceLoop_of_lt (hv : deg v < (n : Int)) : ∀ fuel : Nat, reduceLoop m n seg fuel v = (v, [])
  | 0 => rfl
  | _ + 1 => if_pos (decide_eq_true hv)

theorem reduceLoop_of_le (hv : (n : Int) ≤ deg v) (fuel : Nat) :
    reduceLoop m n seg (fuel + 1) v =
      ((reduceLoop m n seg fuel (redStep v m n).nv).1,
        redRecord seg v (redStep v m n) :: (reduceLoop m n seg fuel (redStep v m n).nv).2) :=
  if_neg (by simpa [canonical] using hv)

/-- Every fuel that covers the bits of `v` above `n` gives the same run. -/
theorem reduceLoop_congr_fuel (hm : deg m = (n : Int)) : ∀ {f g : Nat} {v : BitVec w}, deg v < ((n + f : Nat) : Int) →
    deg v < ((n + g : Nat) : Int) → reduceLoop m n seg f v = reduceLoop m n seg g v
  | 0, g, v, hv, _ => (reduceLoop_of_lt hv 0).trans (reduceLoop_of_lt hv g).symm
  | f, 0, v, _, hv => (reduceLoop_of_lt hv f).trans (reduceLoop_of_lt hv 0).symm
  | f + 1, g + 1, v, hf, hg => by
    rcases lt_or_ge (deg v) (n : Int) with hv | hv
    · rw [reduceLoop_of_lt hv, reduceLoop_of_lt hv]
    · have hnv := deg_redStep_nv_lt hm hv
      rw [reduceLoop_of_le hv, reduceLoop_of_le hv, reduceLoop_congr_fuel hm (f := f) (g := g) (by omega) (by omega)]

theorem reduce_eq_reduceLoop (hm : deg m = (n : Int)) (v : BitVec w) (seg : BitVec 2) :
    reduce v m n seg = some (reduceLoop m n seg w v) :=
  if_pos ((reduceDomain_iff m n).2 hm)

theorem exists_reduce_eq (hm : deg m = (n : Int)) (v : BitVec w) (seg : BitVec 2) :
    ∃ (r : BitVec w) (tr : List (Record w)), reduce v m n seg = some (r, tr) :=
  ⟨_, _, reduce_eq_reduceLoop hm v seg⟩

theorem deg_modulus_of_reduce (h : reduce v m n seg = some (r, tr)) : deg m = (n : Int) := by
  unfold reduce at h
  split at h
  · next hdom => exact (reduceDomain_iff m n).1 hdom
  · cases h

theorem reduce_of_lt (hm : deg m = (n : Int)) (hv : deg v < (n : Int)) : reduce v m n seg = some (v, []) := by
  rw [reduce_eq_reduceLoop hm, reduceLoop_of_lt hv]

theorem reduce_of_le (hv : (n : Int) ≤ deg v) (h : reduce (redStep v m n).nv m n seg = some (r, tr)) :
    reduce v m n seg = some (r, redRecord seg v (redStep v m n) :: tr) := by
  have hm := deg_modulus_of_reduce h
  have hw := deg_lt_width v
  have hnv := deg_redStep_nv_lt hm hv
  obtain ⟨fuel, rfl⟩ : ∃ fuel, w = fuel + 1 := ⟨w - 1, by omega⟩
  rw [reduce_eq_reduceLoop hm, reduceLoop_congr_fuel (g := fuel) hm (by omega) (by omega)] at h
  rw [reduce_eq_reduceLoop hm, reduceLoop_of_le hv, Option.some.inj h]

/-- Induction along the iterations of `reduce`. -/
theorem reduce_induction {P : BitVec w → BitVec w → List (Record w) → Prop}
    (final : ∀ v : BitVec w, deg v < (n : Int) → P v v [])
    (iterate : ∀ (v r : BitVec w) (tr : List (Record w)), (n : Int) ≤ deg v →
      reduce (redStep v m n).nv m n seg = some (r, tr) → P (redStep v m n).nv r tr →
      P v r (redRecord seg v (redStep v m n) :: tr))
    (h : reduce v m n seg = some (r, tr)) : P v r tr := by
  have hm := deg_modulus_of_reduce h
  induction hk : bitLength v using Nat.strong_induction_on generalizing v r tr with
  | h k ih =>
    rcases lt_or_ge (deg v) (n : Int) with hv | hv
    · obtain ⟨rfl, rfl⟩ := Prod.mk.inj (Option.some.inj ((reduce_of_lt hm hv).symm.trans h))
      exact final _ hv
    · obtain ⟨r', tr', h'⟩ := exists_reduce_eq hm (redStep v m n).nv seg
      obtain ⟨rfl, rfl⟩ := Prod.mk.inj (Option.some.inj ((reduce_of_le hv h').symm.trans h))
      have hnv := deg_redStep_nv_lt hm hv
      have := bitLength_eq_deg_add_one v
      have := bitLength_eq_deg_add_one (redStep v m n).nv
      exact iterate v r' tr' hv h' (ih _ (by omega) h' rfl)

theorem deg_lt_of_reduce (h : reduce v m n seg = some (r, tr)) : deg r < (n : Int) :=
  reduce_induction (P := fun _ r _ => deg r < (n : Int)) (fun _ hv => hv) (fun _ _ _ _ _ ih => ih) h

end Loop

theorem toNat_redHeader (hw : 8 ≤ w) (seg : BitVec 2) : (redHeader seg : BitVec w).toNat = 0x01 + 4 * seg.toNat := by
  have hseg : seg.toNat < 4 := seg.isLt
  have hbound : 2 ^ 8 ≤ 2 ^ w := Nat.pow_le_pow_right (by decide) hw
  have hone : (1 : BitVec w).toNat = 1 := BitVec.toNat_one (by omega)
  have hfield : (seg.setWidth w <<< 2).toNat = seg.toNat <<< 2 := by
    rw [BitVec.toNat_shiftLeft, BitVec.toNat_setWidth_of_le (by omega), Nat.mod_eq_of_lt]
    rw [Nat.shiftLeft_eq]
    omega
  calc (redHeader seg : BitVec w).toNat = 1 ||| seg.toNat <<< 2 := by rw [redHeader, BitVec.toNat_or, hone, hfield]
    _ = seg.toNat <<< 2 + 1 := by rw [Nat.or_comm, Nat.shiftLeft_add_eq_or_of_lt (by decide)]
    _ = 0x01 + 4 * seg.toNat := by rw [Nat.shiftLeft_eq]; omega

/-- Settles O24, by the two equations of `reduce`. -/
theorem reduceIsItsLoop : Obligations.ReduceIsItsLoop := by
  refine fun w v m n seg hm => ⟨reduce_of_lt hm, fun hv => ?_, fun hw => toNat_redHeader hw seg⟩
  obtain ⟨r, tr, h⟩ := exists_reduce_eq hm (redStep v m n).nv seg
  exact ⟨r, tr, h, reduce_of_le hv h⟩

/-! ## The records (R113) -/

section Trace

variable {v m r : BitVec w} {n : Nat} {seg : BitVec 2} {tr : List (Record w)}

theorem length_trace_le (h : reduce v m n seg = some (r, tr)) : tr.length ≤ (deg v - (n : Int) + 1).toNat := by
  have hm := deg_modulus_of_reduce h
  refine reduce_induction (P := fun v _ tr => tr.length ≤ (deg v - (n : Int) + 1).toNat) (fun v _ => Nat.zero_le _) ?_ h
  intro v r tr hv _ ih
  have hnv := deg_redStep_nv_lt hm hv
  rw [List.length_cons]
  omega

theorem trace_eq_nil_iff (h : reduce v m n seg = some (r, tr)) : tr = [] ↔ deg v < (n : Int) :=
  reduce_induction (P := fun v _ tr => tr = [] ↔ deg v < (n : Int)) (fun _ hv => iff_of_true rfl hv)
    (fun _ _ _ hv _ _ => iff_of_false (List.cons_ne_nil _ _) hv.not_gt) h

theorem redShift_lt_two_pow (v : BitVec w) (n : Nat) : redShift v n < 2 ^ w := by
  have := deg_lt_width v
  have := Nat.lt_two_pow_self (n := w)
  unfold redShift
  omega

/-- What each record holds: a value not yet canonical, of degree at most that of the operand, and its shift. -/
theorem trace_record (h : reduce v m n seg = some (r, tr)) : ∀ x ∈ tr,
    (n : Int) ≤ deg x.word1 ∧ deg x.word1 ≤ deg v ∧ x.word2.toNat = redShift x.word1 n := by
  have hm := deg_modulus_of_reduce h
  refine reduce_induction (P := fun v _ tr => ∀ x ∈ tr,
    (n : Int) ≤ deg x.word1 ∧ deg x.word1 ≤ deg v ∧ x.word2.toNat = redShift x.word1 n) ?_ ?_ h
  · intro v hv x hx
    cases hx
  · intro v r tr hv _ ih x hx
    rcases List.mem_cons.1 hx with rfl | hx
    · exact ⟨hv, le_rfl, Nat.mod_eq_of_lt (redShift_lt_two_pow v n)⟩
    · obtain ⟨hle, hdeg, hshift⟩ := ih x hx
      exact ⟨hle, hdeg.trans (deg_redStep_nv_lt hm hv).le, hshift⟩

theorem trace_pairwise_deg (h : reduce v m n seg = some (r, tr)) : tr.Pairwise fun x y => deg x.word1 > deg y.word1 := by
  have hm := deg_modulus_of_reduce h
  refine reduce_induction (P := fun _ _ tr => tr.Pairwise fun x y => deg x.word1 > deg y.word1)
    (fun _ _ => List.Pairwise.nil) ?_ h
  intro v r tr hv h' ih
  refine List.pairwise_cons.2 ⟨fun y hy => ?_, ih⟩
  obtain ⟨_, hdeg, _⟩ := trace_record h' y hy
  exact hdeg.trans_lt (deg_redStep_nv_lt hm hv)

/-- The shift of a record is the degree of its value minus `n`, so the shifts fall with the degrees. -/
theorem trace_pairwise_shift (h : reduce v m n seg = some (r, tr)) :
    tr.Pairwise fun x y => x.word2.toNat > y.word2.toNat := by
  refine (trace_pairwise_deg h).imp_of_mem fun {x y} hx hy hxy => ?_
  obtain ⟨hnx, _, hshiftx⟩ := trace_record h x hx
  obtain ⟨hny, _, hshifty⟩ := trace_record h y hy
  have := deg_eq_add_redShift hnx
  have := deg_eq_add_redShift hny
  omega

end Trace

/-- The word whose lowest `j` bits are 1. -/
def lowOnes (w j : Nat) : BitVec w :=
  (BitVec.allOnes j).setWidth w

theorem getLsbD_lowOnes (w j i : Nat) : (lowOnes w j).getLsbD i = (decide (i < w) && decide (i < j)) := by
  rw [lowOnes, BitVec.getLsbD_setWidth, BitVec.getLsbD_allOnes]

theorem lowOnes_width (w : Nat) : lowOnes w w = BitVec.allOnes w :=
  BitVec.setWidth_eq _

theorem deg_lowOnes {j : Nat} (hj : j ≤ w) : deg (lowOnes w j) = (j : Int) - 1 := by
  rcases j with _ | j
  · have : lowOnes w 0 = 0 := BitVec.eq_of_getLsbD_eq fun i _ => by simp [getLsbD_lowOnes]
    simp [this]
  · have : deg (lowOnes w (j + 1)) = (j : Int) := (deg_eq_iff_getLsbD _ _).2
      ⟨by simp [getLsbD_lowOnes]; omega, fun i hi => by simp [getLsbD_lowOnes]; omega⟩
    push_cast
    omega

theorem deg_twoPow {n : Nat} (hn : n < w) : deg (BitVec.twoPow w n) = (n : Int) :=
  (deg_eq_iff_getLsbD _ _).2 ⟨by simp [hn], fun i hi => by simp; omega⟩

theorem shl_twoPow (w n k : Nat) : shl (BitVec.twoPow w n) k = BitVec.twoPow w (n + k) := by
  simp [shl, BitVec.twoPow_eq, BitVec.shiftLeft_add]

/-- Reducing by `x^n` clears the ones one at a time, from the top. -/
theorem redStep_lowOnes {n k : Nat} (hk : n + k < w) :
    (redStep (lowOnes w (n + k + 1)) (BitVec.twoPow w n) n).nv = lowOnes w (n + k) := by
  have hshift : redShift (lowOnes w (n + k + 1)) n = k := by
    rw [redShift, deg_lowOnes hk]
    omega
  rw [redStep, hshift, shl_twoPow]
  refine BitVec.eq_of_getLsbD_eq fun i hi => ?_
  rw [BitVec.getLsbD_xor, getLsbD_lowOnes, getLsbD_lowOnes, BitVec.getLsbD_twoPow]
  rcases lt_trichotomy i (n + k) with h | rfl | h
  · simp [hi, hk, h, h.le, h.ne']
  · simp [hi]
  · simp [h.ne, h.not_gt, Nat.not_lt.2 h]

theorem length_trace_lowOnes {n : Nat} (hn : n < w) (seg : BitVec 2) : ∀ {k : Nat}, n + k ≤ w →
    ∃ (r : BitVec w) (tr : List (Record w)),
      reduce (lowOnes w (n + k)) (BitVec.twoPow w n) n seg = some (r, tr) ∧ tr.length = k
  | 0, hk => ⟨_, _, reduce_of_lt (deg_twoPow hn) (by rw [deg_lowOnes hk]; omega), rfl⟩
  | k + 1, hk => by
    obtain ⟨r, tr, h, hlen⟩ := length_trace_lowOnes hn seg (k := k) (by omega)
    rw [← redStep_lowOnes (k := k) hk] at h
    exact ⟨r, _, reduce_of_le (by rw [deg_lowOnes hk]; push_cast; omega) h, by rw [List.length_cons, hlen]⟩

/-- Settles O25, by induction along the iterations; the bound is attained on a word of ones reduced by `x^n`. -/
theorem reduceTerminates : Obligations.ReduceTerminates := by
  constructor
  · intro w v m r n seg tr h
    have hlen := length_trace_le h
    have hw := deg_lt_width v
    exact ⟨hlen, by omega, List.length_eq_zero_iff.trans (trace_eq_nil_iff h),
      List.pairwise_map.2 (trace_pairwise_deg h), List.pairwise_map.2 (trace_pairwise_shift h)⟩
  · intro w n seg hn
    obtain ⟨r, tr, h, hlen⟩ := length_trace_lowOnes hn seg (k := w - n) (by omega)
    rw [Nat.add_sub_cancel' hn.le, lowOnes_width] at h
    exact ⟨r, tr, h, hlen⟩

/-! ## The carry-less product (42_multiplier.md R130) -/

theorem getLsbD_clmulBits_succ (a b : BitVec w) (k i : Nat) : (clmulBits a b (k + 1)).getLsbD i =
    ((clmulBits a b k).getLsbD i ^^ (b.getLsbD k && (decide (i < w) && decide (k ≤ i) && a.getLsbD (i - k)))) := by
  rw [clmulBits, BitVec.getLsbD_xor, bitAt]
  have hle : decide (k ≤ i) = !decide (i < k) := by rw [← decide_not, decide_eq_decide, Nat.not_lt]
  cases b.getLsbD k
  · simp
  · simp [shl, hle]

theorem clmulBits_xor_left (a a' b : BitVec w) : ∀ k : Nat,
    clmulBits (a ^^^ a') b k = clmulBits a b k ^^^ clmulBits a' b k
  | 0 => by simp [clmulBits]
  | k + 1 => by
    rw [clmulBits, clmulBits, clmulBits, clmulBits_xor_left a a' b k]
    cases bitAt b k
    · simp
    · simp only [if_true, shl, BitVec.shiftLeft_xor_distrib]
      ac_rfl

theorem clmul_xor_left (a a' b : BitVec w) : clmul (a ^^^ a') b = clmul a b ^^^ clmul a' b := by
  rw [clmul, BitVec.setWidth_xor, clmulBits_xor_left]
  rfl

@[simp] theorem clmul_zero_left (b : BitVec w) : clmul 0#w b = 0#(2 * w) := by
  simpa using clmul_xor_left 0#w 0#w b

/-- A product by `x^s` holds the other factor `s` places up. -/
theorem getLsbD_clmulBits_twoPow {s i : Nat} (hi : i < w) (hs : s < w) (b : BitVec w) : ∀ k : Nat,
    (clmulBits (BitVec.twoPow w s) b k).getLsbD i = (decide (s ≤ i) && decide (i - s < k) && b.getLsbD (i - s))
  | 0 => by simp [clmulBits]
  | k + 1 => by
    rw [getLsbD_clmulBits_succ, getLsbD_clmulBits_twoPow hi hs b k, BitVec.getLsbD_twoPow]
    by_cases h : i = s + k
    · subst h
      simp [hs, hi]
    · have hbit : (decide (k ≤ i) && decide (s = i - k)) = false := by simp; omega
      have hlt : (decide (s ≤ i) && decide (i - s < k + 1)) = (decide (s ≤ i) && decide (i - s < k)) := by
        rw [Bool.eq_iff_iff]; simp; omega
      simp only [hi, hs, decide_true, Bool.true_and, hbit, hlt, Bool.and_false, Bool.xor_false]

theorem clmul_twoPow {m : BitVec w} {n k : Nat} (hm : deg m = (n : Int)) (hk : n + k < w) :
    clmul (BitVec.twoPow w k) m = (shl m k).setWidth (2 * w) := by
  have htop : ∀ i : Nat, n < i → m.getLsbD i = false := ((deg_eq_iff_getLsbD m n).1 hm).2
  have htwoPow : (BitVec.twoPow w k).setWidth (2 * w) = BitVec.twoPow (2 * w) k := by
    refine BitVec.eq_of_toNat_eq ?_
    rw [BitVec.toNat_setWidth_of_le (by omega), BitVec.toNat_twoPow_of_lt (by omega), BitVec.toNat_twoPow_of_lt (by omega)]
  refine BitVec.eq_of_getLsbD_eq fun i hi => ?_
  rw [clmul, htwoPow, getLsbD_clmulBits_twoPow hi (by omega), shl]
  simp only [BitVec.getLsbD_setWidth, BitVec.getLsbD_shiftLeft]
  rcases lt_or_ge i k with hik | hik
  · simp [hik, hik.not_ge]
  · rcases lt_or_ge n (i - k) with hn | hn
    · simp [htop (i - k) hn]
    · have hiw : i < w := by omega
      have hsub : i - k < w := by omega
      have hsub' : i - k < 2 * w := by omega
      simp [hi, hik, hik.not_gt, hiw, hsub, hsub']

/-- The top bit of a carry-less product stands at the sum of the degrees; the step of `b`'s own top bit sets it. -/
theorem getLsbD_clmulBits_add_deg {a b : BitVec w} {d n : Nat} (ha : deg a = (d : Int)) (hb : deg b = (n : Int))
    (hw : d + n < w) : ∀ k : Nat, (clmulBits a b k).getLsbD (d + n) = decide (n < k)
  | 0 => by simp [clmulBits]
  | k + 1 => by
    obtain ⟨had, hatop⟩ := (deg_eq_iff_getLsbD a d).1 ha
    obtain ⟨hbn, hbtop⟩ := (deg_eq_iff_getLsbD b n).1 hb
    rw [getLsbD_clmulBits_succ, getLsbD_clmulBits_add_deg ha hb hw k]
    rcases lt_trichotomy k n with h | rfl | h
    · simp [hatop (d + n - k) (by omega)]; omega
    · simp [hbn, had, hw]
    · simp [hbtop k h, h]; omega

theorem deg_setWidth {v : BitVec w} {d w' : Nat} (hv : deg v = (d : Int)) (hw : d < w') :
    deg (v.setWidth w') = (d : Int) := by
  rw [deg_eq_iff_getLsbD] at hv ⊢
  obtain ⟨hd, htop⟩ := hv
  refine ⟨by simp [hw, hd], fun i hi => by simp [htop i hi]⟩

theorem getLsbD_clmul_add_deg {a b : BitVec w} {d n : Nat} (ha : deg a = (d : Int)) (hb : deg b = (n : Int)) :
    (clmul a b).getLsbD (d + n) = true := by
  have had := deg_lt_width a
  have hbn := deg_lt_width b
  rw [clmul, getLsbD_clmulBits_add_deg (deg_setWidth ha (by omega)) (deg_setWidth hb (by omega)) (by omega)]
  exact decide_eq_true (by omega)

/-! ## The remainder (R118, R119) -/

/-- `x` is a carry-less multiple of `m`. -/
def IsMultiple (m x : BitVec w) : Prop :=
  ∃ q : BitVec w, x.setWidth (2 * w) = clmul q m

section Remainder

variable {m x y v r r' : BitVec w} {n : Nat} {seg : BitVec 2} {tr : List (Record w)}

theorem isMultiple_zero (m : BitVec w) : IsMultiple m 0 :=
  ⟨0#w, by simp⟩

theorem IsMultiple.xor (hx : IsMultiple m x) (hy : IsMultiple m y) : IsMultiple m (x ^^^ y) := by
  obtain ⟨p, hp⟩ := hx
  obtain ⟨q, hq⟩ := hy
  exact ⟨p ^^^ q, by rw [BitVec.setWidth_xor, hp, hq, clmul_xor_left]⟩

/-- Congruence modulo `m` is transitive. -/
theorem IsMultiple.trans (hx : IsMultiple m (x ^^^ y)) (hy : IsMultiple m (y ^^^ v)) : IsMultiple m (x ^^^ v) := by
  have h : x ^^^ y ^^^ (y ^^^ v) = x ^^^ v := by
    rw [BitVec.xor_assoc, ← BitVec.xor_assoc y y v, BitVec.xor_self, BitVec.zero_xor]
  exact h ▸ hx.xor hy

theorem isMultiple_shl {k : Nat} (hm : deg m = (n : Int)) (hk : n + k < w) : IsMultiple m (shl m k) :=
  ⟨BitVec.twoPow w k, (clmul_twoPow hm hk).symm⟩

/-- The only multiple of the modulus of degree below `n` is 0: any other has degree at least `n`. -/
theorem IsMultiple.eq_zero (hx : IsMultiple m x) (hm : deg m = (n : Int)) (hdeg : deg x < (n : Int)) : x = 0 := by
  obtain ⟨q, hq⟩ := hx
  by_cases hq0 : q = 0#w
  · rw [hq0, clmul_zero_left] at hq
    have : (x.setWidth (2 * w)).setWidth w = 0 := by rw [hq]; simp
    rwa [BitVec.setWidth_setWidth_of_le _ (by omega), BitVec.setWidth_eq] at this
  · obtain ⟨d, _, hd⟩ := exists_deg_eq hq0
    have htop := getLsbD_clmul_add_deg hd hm
    rw [← hq, BitVec.getLsbD_setWidth, (deg_lt_iff_getLsbD x n).1 hdeg (d + n) (by omega)] at htop
    simp at htop

theorem isMultiple_xor_of_reduce (h : reduce v m n seg = some (r, tr)) : IsMultiple m (v ^^^ r) := by
  have hm := deg_modulus_of_reduce h
  refine reduce_induction (P := fun v r _ => IsMultiple m (v ^^^ r)) (fun v _ => ?_) ?_ h
  · rw [BitVec.xor_self]
    exact isMultiple_zero m
  · intro v r tr hv _ ih
    have hstep : v ^^^ (redStep v m n).nv = shl m (redShift v n) := by
      rw [redStep, ← BitVec.xor_assoc, BitVec.xor_self, BitVec.zero_xor]
    have hmul : IsMultiple m (v ^^^ (redStep v m n).nv) := hstep ▸ isMultiple_shl hm (add_redShift_lt_width hv)
    exact hmul.trans ih

/-- `reduce` answers the canonical value that differs from its operand by a multiple of the modulus. -/
theorem eq_of_reduce (h : reduce v m n seg = some (r, tr)) (hdeg : deg r' < (n : Int)) (hmul : IsMultiple m (v ^^^ r')) :
    r' = r := by
  have hmul' : IsMultiple m (r' ^^^ r) := (BitVec.xor_comm v r' ▸ hmul).trans (isMultiple_xor_of_reduce h)
  exact BitVec.xor_eq_zero_iff.1 (hmul'.eq_zero (deg_modulus_of_reduce h) (deg_xor_lt_of_lt hdeg (deg_lt_of_reduce h)))

theorem exists_reduce_eq_of_isMultiple (hm : deg m = (n : Int)) (seg : BitVec 2) (hdeg : deg r < (n : Int))
    (hmul : IsMultiple m (v ^^^ r)) : ∃ tr : List (Record w), reduce v m n seg = some (r, tr) := by
  obtain ⟨r', tr, h⟩ := exists_reduce_eq hm v seg
  exact ⟨tr, eq_of_reduce h hdeg hmul ▸ h⟩

theorem reduce_modulus (hm : deg m = (n : Int)) (seg : BitVec 2) :
    reduce m m n seg = some (0, [redRecord seg m (redStep m m n)]) := by
  have hshift : redShift m n = 0 := by rw [redShift, hm]; simp
  have hnv : (redStep m m n).nv = 0 := by rw [redStep, hshift]; simp [shl]
  refine reduce_of_le hm.ge ?_
  rw [hnv]
  exact reduce_of_lt hm (by simp; omega)

end Remainder

/-- Settles O27, with uniqueness from `IsMultiple.eq_zero`. -/
theorem reduceIsTheRemainder : Obligations.ReduceIsTheRemainder :=
  fun _ _ _ _ _ _ _ h => ⟨deg_lt_of_reduce h, isMultiple_xor_of_reduce h, fun _ hdeg hmul => eq_of_reduce h hdeg hmul⟩

/-- Settles O28: each law names a canonical value that differs from the operand by a multiple of the modulus. -/
theorem reduceIsIdempotentAndLinear : Obligations.ReduceIsIdempotentAndLinear := by
  intro w m n seg hm
  refine ⟨fun v r tr h => reduce_of_lt hm (deg_lt_of_reduce h), fun u v ru rv tu tv hu hv => ?_,
    ⟨_, reduce_modulus hm seg⟩, fun k hk => ?_⟩
  · refine exists_reduce_eq_of_isMultiple hm seg (deg_xor_lt_of_lt (deg_lt_of_reduce hu) (deg_lt_of_reduce hv)) ?_
    have hxor : u ^^^ v ^^^ (ru ^^^ rv) = u ^^^ ru ^^^ (v ^^^ rv) := by ac_rfl
    exact hxor ▸ (isMultiple_xor_of_reduce hu).xor (isMultiple_xor_of_reduce hv)
  · have hn := deg_lt_width m
    refine exists_reduce_eq_of_isMultiple hm seg (by simp; omega) ?_
    rw [BitVec.ofNat_eq_ofNat, BitVec.xor_zero]
    exact isMultiple_shl hm (by omega)

end Sys2Proof.Machine

/-! # The Multiplier (42_multiplier.md R121 to R130)

The loop is read in closed form: the variables after `k` iterations and the records written on the way. Iteration `i`
holds `x^i * a` modulo `m` (R123); summing over the set bits of `b` gives the product as the carry-less product reduced
(R130), and the laws follow from those of `clmul`. -/

namespace Sys2Proof.Machine

open Sys2Proof.Safety

variable {w : Nat}

/-! ## The shifts (00_scope.md R15) -/

theorem toNat_shr1 (b : BitVec w) : (shr1 b).toNat = b.toNat / 2 := by
  rw [shr1, BitVec.toNat_ushiftRight, Nat.shiftRight_eq_div_pow, Nat.pow_one]

/-- A right shift drops one bit. -/
theorem bitLength_shr1 (b : BitVec w) : bitLength (shr1 b) = bitLength b - 1 := by
  refine eq_of_forall_ge_iff fun k => ?_
  rw [Nat.sub_le_iff_le_add, bitLength_le_iff, bitLength_le_iff, toNat_shr1, Nat.pow_succ]
  omega

theorem getLsbD_of_bitLength_le {v : BitVec w} {i : Nat} (h : bitLength v ≤ i) : v.getLsbD i = false :=
  Nat.testBit_lt_two_pow ((bitLength_le_iff v i).1 h)

/-- No bit of a canonical value is lost by a shift of one place. -/
theorem toNat_shl_one {a : BitVec w} {n : Nat} (ha : deg a < (n : Int)) (hn : n < w) :
    (shl a 1).toNat = 2 * a.toNat := by
  have hbound : 2 ^ (n + 1) ≤ 2 ^ w := Nat.pow_le_pow_right (by decide) hn
  have ha' := (deg_lt_iff a n).1 ha
  rw [shl, BitVec.toNat_shiftLeft, Nat.shiftLeft_eq, Nat.mod_eq_of_lt (by omega)]
  omega

theorem deg_shl_one_lt {a : BitVec w} {n : Nat} (ha : deg a < (n : Int)) (hn : n < w) :
    deg (shl a 1) < ((n + 1 : Nat) : Int) := by
  rw [deg_lt_iff, toNat_shl_one ha hn]
  have := (deg_lt_iff a n).1 ha
  omega

/-! ## The header of a record (30_encoding.md R80) -/

theorem mulHeader_eq_ofNat (bit chg ovf : Bool) : (mulHeader bit chg ovf : BitVec w) =
    BitVec.ofNat w (0x0A + 0x10 * bit.toNat + 0x20 * chg.toNat + 0x40 * ovf.toNat) := by
  have hfield (b : Bool) (k : Nat) : (bitWord b : BitVec w) <<< k = BitVec.ofNat w (b.toNat <<< k) := by
    refine BitVec.eq_of_toNat_eq ?_
    cases b
    · simp [bitWord]
    · simp [bitWord, Nat.shiftLeft_eq, ← Nat.pow_mod]
  have hsum : 0x0A + 0x10 * bit.toNat + 0x20 * chg.toNat + 0x40 * ovf.toNat =
      0x0A ||| bit.toNat <<< 4 ||| chg.toNat <<< 5 ||| ovf.toNat <<< 6 := by
    revert bit chg ovf
    decide
  rw [mulHeader, hfield, hfield, hfield, hsum, BitVec.ofNat_or, BitVec.ofNat_or, BitVec.ofNat_or]
  rfl

theorem headerBit_mulHeader (hw : 8 ≤ w) (bit chg ovf : Bool) : headerBit (mulHeader bit chg ovf : BitVec w) = bit := by
  have hbit : (0x0A + 0x10 * bit.toNat + 0x20 * chg.toNat + 0x40 * ovf.toNat).testBit 4 = bit := by
    revert bit chg ovf
    decide
  rw [headerBit, mulHeader_eq_ofNat, BitVec.getLsbD_ofNat, hbit, decide_eq_true (by omega), Bool.true_and]

/-! ## One iteration (R121) -/

section Iteration

variable {x : MulVars w} {m : BitVec w} {n : Nat}

theorem mulStep_acc (x : MulVars w) (m : BitVec w) (n : Nat) :
    (mulStep x m n).1.acc = x.acc ^^^ (if bitAt x.b 0 then x.a else 0) := by
  cases h : bitAt x.b 0 <;> simp [mulStep, h]

theorem mulStep_a (x : MulVars w) (m : BitVec w) (n : Nat) :
    (mulStep x m n).1.a = shl x.a 1 ^^^ (if bitAt (shl x.a 1) n then m else 0) := by
  cases h : bitAt (shl x.a 1) n <;> simp [mulStep, h]

@[simp] theorem mulStep_b (x : MulVars w) (m : BitVec w) (n : Nat) : (mulStep x m n).1.b = shr1 x.b := rfl

@[simp] theorem mulStep_record_a (x : MulVars w) (m : BitVec w) (n : Nat) : (mulStep x m n).2.word6 = x.a := rfl

theorem headerBit_mulStep (hw : 8 ≤ w) (x : MulVars w) (m : BitVec w) (n : Nat) :
    headerBit (mulStep x m n).2.header = bitAt x.b 0 :=
  headerBit_mulHeader hw ..

/-- One xor restores the degree: the shifted `a` has degree at most `n`, and `n` only when the modulus is added. -/
theorem deg_mulStep_a (hm : deg m = (n : Int)) (ha : deg x.a < (n : Int)) : deg (mulStep x m n).1.a < (n : Int) := by
  have hn := deg_lt_width m
  have htop := (deg_lt_iff_getLsbD _ _).1 (deg_shl_one_lt ha (by omega))
  rw [mulStep_a]
  cases hovf : bitAt (shl x.a 1) n
  · have has : deg (shl x.a 1) < (n : Int) := (deg_lt_iff_getLsbD _ _).2 fun i hi => by
      rcases hi.eq_or_lt with rfl | hi
      · exact hovf
      · exact htop i hi
    simpa using has
  · exact deg_xor_lt ((deg_eq_iff_getLsbD _ _).2 ⟨hovf, htop⟩) hm

theorem deg_mulStep_acc (ha : deg x.a < (n : Int)) (hacc : deg x.acc < (n : Int)) :
    deg (mulStep x m n).1.acc < (n : Int) := by
  rw [mulStep_acc]
  cases bitAt x.b 0
  · simpa using hacc
  · exact deg_xor_lt_of_lt hacc ha

end Iteration

/-- Settles O32: the record's header is the sum of its fields (`mulHeader_eq_ofNat`), the shift loses no bit
(`toNat_shl_one`), and `a` stays canonical (`deg_mulStep_a`). -/
theorem mulStepKeepsACanonical : Obligations.MulStepKeepsACanonical := by
  refine ⟨by decide, fun w acc a b m n _ hm ha => ?_⟩
  have hn := deg_lt_width m
  refine ⟨_, shl a 1, _, shr1 b, bitAt b 0, _, bitAt (shl a 1) n, rfl, rfl, decide_eq_true_iff, toNat_shr1 b,
    toNat_shl_one ha (by omega), rfl, rfl, deg_mulStep_a (x := ⟨acc, a, b⟩) hm ha, ?_, rfl, ?_⟩
  · intro hbit
    rw [decide_eq_false_iff_not, Classical.not_not, if_pos hbit]
    have hadd := BitVec.xor_right_inj (x := a) (y := 0#w) acc
    rwa [BitVec.xor_zero] at hadd
  · rw [← mulHeader_eq_ofNat]
    rfl

/-! ## The iterations and their records -/

section Loop

variable {x : MulVars w} {m : BitVec w} {n : Nat}

/-- The loop variables after `k` iterations. -/
def iterations (m : BitVec w) (n k : Nat) (x : MulVars w) : MulVars w :=
  (fun y => (mulStep y m n).1)^[k] x

/-- The records of the first `k` iterations. -/
def iterationRecords (m : BitVec w) (n k : Nat) (x : MulVars w) : List (Record w) :=
  (List.range k).map fun i => (mulStep (iterations m n i x) m n).2

@[simp] theorem iterations_zero (m : BitVec w) (n : Nat) (x : MulVars w) : iterations m n 0 x = x := rfl

theorem iterations_succ (m : BitVec w) (n k : Nat) (x : MulVars w) :
    iterations m n (k + 1) x = iterations m n k (mulStep x m n).1 := rfl

theorem iterations_succ_last (m : BitVec w) (n k : Nat) (x : MulVars w) :
    iterations m n (k + 1) x = (mulStep (iterations m n k x) m n).1 :=
  Function.iterate_succ_apply' ..

theorem iterationRecords_succ (m : BitVec w) (n k : Nat) (x : MulVars w) :
    iterationRecords m n (k + 1) x = (mulStep x m n).2 :: iterationRecords m n k (mulStep x m n).1 := by
  simp [iterationRecords, List.range_succ_eq_map, iterations_succ]

theorem iterationRecords_succ_last (m : BitVec w) (n k : Nat) (x : MulVars w) :
    iterationRecords m n (k + 1) x = iterationRecords m n k x ++ [(mulStep (iterations m n k x) m n).2] := by
  simp [iterationRecords, List.range_succ]

@[simp] theorem length_iterationRecords (m : BitVec w) (n k : Nat) (x : MulVars w) :
    (iterationRecords m n k x).length = k := by
  simp [iterationRecords]

theorem take_iterationRecords {j k : Nat} (h : j ≤ k) (m : BitVec w) (n : Nat) (x : MulVars w) :
    (iterationRecords m n k x).take j = iterationRecords m n j x := by
  rw [iterationRecords, ← List.map_take, List.take_range, Nat.min_eq_left h, iterationRecords]

@[simp] theorem getElem_iterationRecords {m : BitVec w} {n k i : Nat} {x : MulVars w}
    (h : i < (iterationRecords m n k x).length) :
    (iterationRecords m n k x)[i] = (mulStep (iterations m n i x) m n).2 := by
  simp [iterationRecords]

theorem iterations_b (m : BitVec w) (n : Nat) (x : MulVars w) : ∀ k : Nat, (iterations m n k x).b = x.b >>> k
  | 0 => by simp
  | k + 1 => by rw [iterations_succ_last, mulStep_b, iterations_b m n x k, shr1, BitVec.shiftRight_add]

/-- Iteration `k` tests bit `k` of the operand. -/
theorem bitAt_iterations_b (m : BitVec w) (n : Nat) (x : MulVars w) (k : Nat) :
    bitAt (iterations m n k x).b 0 = bitAt x.b k := by
  rw [iterations_b, bitAt, bitAt, BitVec.getLsbD_ushiftRight, Nat.add_zero]

theorem deg_iterations_a (hm : deg m = (n : Int)) (ha : deg x.a < (n : Int)) : ∀ k : Nat,
    deg (iterations m n k x).a < (n : Int)
  | 0 => ha
  | k + 1 => by
    rw [iterations_succ_last]
    exact deg_mulStep_a hm (deg_iterations_a hm ha k)

theorem deg_iterations_acc (hm : deg m = (n : Int)) (ha : deg x.a < (n : Int)) (hacc : deg x.acc < (n : Int)) :
    ∀ k : Nat, deg (iterations m n k x).acc < (n : Int)
  | 0 => hacc
  | k + 1 => by
    rw [iterations_succ_last]
    exact deg_mulStep_acc (deg_iterations_a hm ha k) (deg_iterations_acc hm ha hacc k)

/-- The result is the sum of the `a_before` words whose `BIT` was 1 (R125). -/
theorem iterations_acc (hw : 8 ≤ w) (hacc : x.acc = 0) : ∀ k : Nat,
    (iterations m n k x).acc = accumulated (iterationRecords m n k x)
  | 0 => hacc
  | k + 1 => by
    rw [iterations_succ_last, mulStep_acc, iterationRecords_succ_last, iterations_acc hw hacc k, accumulated,
      accumulated, List.foldl_append, List.foldl_cons, List.foldl_nil, headerBit_mulStep hw, mulStep_record_a]
    cases bitAt (iterations m n k x).b 0 <;> simp

/-! ## The loop (R122, R123) -/

theorem multiplyLoop_of_zero (hb : x.b = 0) : ∀ fuel : Nat, multiplyLoop m n fuel x = (x.acc, [])
  | 0 => rfl
  | _ + 1 => if_pos hb

theorem multiplyLoop_of_ne_zero (hb : x.b ≠ 0) (fuel : Nat) : multiplyLoop m n (fuel + 1) x =
    ((multiplyLoop m n fuel (mulStep x m n).1).1, (mulStep x m n).2 :: (multiplyLoop m n fuel (mulStep x m n).1).2) :=
  if_neg hb

/-- The loop runs one iteration for each bit of `b`. -/
theorem multiplyLoop_eq : ∀ {fuel : Nat} {x : MulVars w}, bitLength x.b ≤ fuel → multiplyLoop m n fuel x =
    ((iterations m n (bitLength x.b) x).acc, iterationRecords m n (bitLength x.b) x)
  | 0, x, h => by
    rw [Nat.le_zero.1 h]
    rfl
  | fuel + 1, x, h => by
    by_cases hb : x.b = 0
    · rw [multiplyLoop_of_zero hb, (bitLength_eq_zero_iff x.b).2 hb]
      rfl
    · have hpos : bitLength x.b ≠ 0 := mt (bitLength_eq_zero_iff x.b).1 hb
      have hlen : bitLength (mulStep x m n).1.b + 1 = bitLength x.b := by rw [mulStep_b, bitLength_shr1]; omega
      rw [multiplyLoop_of_ne_zero hb, multiplyLoop_eq (by omega), ← hlen, iterations_succ, iterationRecords_succ]

end Loop

/-- Settles O33: the loop gives the same on every fuel that covers the bits of `b` (`multiplyLoop_eq`). -/
theorem multiplyIsItsLoop : Obligations.MultiplyIsItsLoop := by
  refine fun w m n => ⟨fun x hb => multiplyLoop_of_zero hb w, fun x hb => ?_, fun a b hm ha hb =>
    if_pos ((multiplyDomain_iff a b m n).2 ⟨hm, ha, hb⟩)⟩
  have hlen := bitLength_le_width x.b
  have hpos : bitLength x.b ≠ 0 := mt (bitLength_eq_zero_iff x.b).1 hb
  obtain ⟨fuel, rfl⟩ : ∃ fuel, w = fuel + 1 := ⟨w - 1, by omega⟩
  have hstep : bitLength (mulStep x m n).1.b ≤ fuel := by rw [mulStep_b, bitLength_shr1]; omega
  rw [multiplyLoop_of_ne_zero hb, multiplyLoop_eq hstep, multiplyLoop_eq (hstep.trans (Nat.le_succ fuel))]

/-- The loop variables from which `multiply` starts. -/
abbrev mulStart (a b : BitVec w) : MulVars w :=
  { acc := 0, a := a, b := b }

/-- Everything `multiply` does: on its domain, the result and the records of `bit_length(b)` iterations. -/
theorem multiply_eq_some_iff {a b m p : BitVec w} {n : Nat} {tr : List (Record w)} :
    multiply a b m n = some (p, tr) ↔ (deg m = (n : Int) ∧ deg a < (n : Int) ∧ deg b < (n : Int)) ∧
      p = (iterations m n (bitLength b) (mulStart a b)).acc ∧
      tr = iterationRecords m n (bitLength b) (mulStart a b) := by
  rw [← multiplyDomain_iff, multiply, multiplyLoop_eq (bitLength_le_width b)]
  split
  · next h => rw [Option.some.injEq, Prod.mk.injEq, eq_comm (b := p), eq_comm (b := tr), and_iff_right h]
  · next h => simp [h]

/-! ## Products without a width limit (R130; log 17) -/

/-- A value held in `2w` bits. -/
abbrev wide (v : BitVec w) : BitVec (2 * w) :=
  v.setWidth (2 * w)

theorem wide_inj {u v : BitVec w} (h : wide u = wide v) : u = v := by
  have hback := congrArg (BitVec.setWidth w) h
  rwa [BitVec.setWidth_setWidth_of_le _ (by omega), BitVec.setWidth_setWidth_of_le _ (by omega), BitVec.setWidth_eq,
    BitVec.setWidth_eq] at hback

theorem wide_xor (u v : BitVec w) : wide (u ^^^ v) = wide u ^^^ wide v :=
  BitVec.setWidth_xor

theorem bitAt_wide (v : BitVec w) (i : Nat) : bitAt (wide v) i = bitAt v i := by
  rw [bitAt, bitAt, BitVec.getLsbD_setWidth, Bool.and_eq_right_iff_imp, decide_eq_true_iff]
  intro hi
  have := BitVec.lt_of_getLsbD hi
  omega

theorem deg_wide_lt {v : BitVec w} {n : Nat} (hv : deg v < (n : Int)) : deg (wide v) < (n : Int) := by
  rw [deg_lt_iff] at hv ⊢
  rwa [BitVec.toNat_setWidth_of_le (by omega)]

theorem deg_wide {m : BitVec w} {n : Nat} (hm : deg m = (n : Int)) : deg (wide m) = (n : Int) := by
  have := deg_lt_width m
  exact deg_setWidth hm (by omega)

theorem shl_xor (u v : BitVec w) (k : Nat) : shl (u ^^^ v) k = shl u k ^^^ shl v k :=
  BitVec.shiftLeft_xor_distrib ..

theorem wide_shl_one {a : BitVec w} {n : Nat} (ha : deg a < (n : Int)) (hn : n < w) :
    wide (shl a 1) = shl (wide a) 1 := by
  refine BitVec.eq_of_toNat_eq ?_
  rw [toNat_shl_one (deg_wide_lt ha) (by omega), BitVec.toNat_setWidth_of_le (by omega), toNat_shl_one ha hn,
    BitVec.toNat_setWidth_of_le (by omega)]

/-! ## What iteration `i` holds (R123) -/

section Congruence

variable {x : MulVars w} {m : BitVec w} {n : Nat}

/-- An iteration multiplies `a` by `x` modulo the modulus: what it adds is the modulus or nothing. -/
theorem isMultiple_mulStep_a (hm : deg m = (n : Int)) (ha : deg x.a < (n : Int)) {k : Nat} (hk : n + k < 2 * w) :
    IsMultiple (wide m) (shl (wide x.a) (k + 1) ^^^ shl (wide (mulStep x m n).1.a) k) := by
  have hn := deg_lt_width m
  have hshift : shl (wide x.a) (k + 1) = shl (shl (wide x.a) 1) k := by
    rw [shl, shl, shl, ← BitVec.shiftLeft_add, Nat.add_comm]
  rw [hshift, ← wide_shl_one ha (by omega), mulStep_a, wide_xor, shl_xor, ← BitVec.xor_assoc,
    BitVec.xor_self, BitVec.zero_xor]
  cases bitAt (shl x.a 1) n
  · simpa [shl] using isMultiple_zero (wide m)
  · exact isMultiple_shl (deg_wide hm) hk

/-- After `k` iterations `a` is `x^k * a` modulo the modulus. -/
theorem isMultiple_iterations_a (hm : deg m = (n : Int)) : ∀ {k : Nat} {x : MulVars w}, deg x.a < (n : Int) →
    n + k ≤ 2 * w → IsMultiple (wide m) (shl (wide x.a) k ^^^ wide (iterations m n k x).a)
  | 0, x, _, _ => by
    rw [iterations_zero, shl, BitVec.shiftLeft_zero, BitVec.xor_self]
    exact isMultiple_zero _
  | k + 1, x, ha, hk =>
    (isMultiple_mulStep_a hm ha (by omega)).trans (isMultiple_iterations_a hm (deg_mulStep_a hm ha) (by omega))

/-- After `k` iterations the result is the product of `a` by the lowest `k` bits of `b`, modulo the modulus. -/
theorem isMultiple_iterations_acc (hm : deg m = (n : Int)) (ha : deg x.a < (n : Int)) (hacc : x.acc = 0) :
    ∀ {k : Nat}, n + k ≤ 2 * w →
      IsMultiple (wide m) (clmulBits (wide x.a) (wide x.b) k ^^^ wide (iterations m n k x).acc)
  | 0, _ => by
    rw [iterations_zero, hacc]
    simpa [clmulBits] using isMultiple_zero (wide m)
  | k + 1, hk => by
    have ih := isMultiple_iterations_acc (k := k) hm ha hacc (by omega)
    rw [iterations_succ_last, mulStep_acc, bitAt_iterations_b, clmulBits, bitAt_wide]
    cases bitAt x.b k
    · simpa using ih
    · have hsum := ih.xor (isMultiple_iterations_a hm ha (k := k) (by omega))
      simp only [if_true, wide_xor]
      convert hsum using 1
      ac_rfl

end Congruence

/-- Settles O34, with the record of iteration `i` from the closed form of the loop, and `x^i * a` modulo `m` from
`isMultiple_iterations_a`. -/
theorem multiplyRunsOncePerBit : Obligations.MultiplyRunsOncePerBit := by
  intro w a b m p n tr hw h
  obtain ⟨⟨hm, ha, hb⟩, -, rfl⟩ := multiply_eq_some_iff.1 h
  have hn := deg_lt_width m
  have hlen := (canonical_iff_bitLength b n).1 (decide_eq_true hb)
  rw [length_iterationRecords]
  refine ⟨rfl, hlen, bitLength_eq_zero_iff b, fun i x hx => ?_⟩
  obtain ⟨hi, rfl⟩ := List.getElem?_eq_some_iff.1 hx
  rw [length_iterationRecords] at hi
  rw [getElem_iterationRecords, headerBit_mulStep hw, bitAt_iterations_b, mulStep_record_a]
  obtain ⟨tr, htr⟩ := exists_reduce_eq_of_isMultiple (deg_wide hm) 0
    (deg_wide_lt (deg_iterations_a (x := mulStart a b) hm ha i)) (isMultiple_iterations_a hm ha (by omega))
  exact ⟨rfl, congrArg (Option.map Prod.fst) htr⟩

/-! ## The product (R130) -/

theorem clmulBits_of_le {a b : BitVec w} {K : Nat} (hb : ∀ i : Nat, K ≤ i → b.getLsbD i = false) :
    ∀ {k : Nat}, K ≤ k → clmulBits a b k = clmulBits a b K := by
  intro k hk
  induction k, hk using Nat.le_induction with
  | base => rfl
  | succ k hk ih => rw [clmulBits, ih, bitAt, hb k hk]; simp

theorem deg_zero_lt (n : Nat) : deg (0 : BitVec w) < (n : Int) :=
  of_decide_eq_true (canonical_zero n)

/-- The product is canonical and differs from the carry-less product by a multiple of the modulus. -/
theorem reduce_clmul_of_multiply {a b m p : BitVec w} {n : Nat} {tr : List (Record w)}
    (h : multiply a b m n = some (p, tr)) :
    ∃ tr' : List (Record (2 * w)), reduce (clmul a b) (wide m) n 0 = some (wide p, tr') := by
  obtain ⟨⟨hm, ha, hb⟩, rfl, -⟩ := multiply_eq_some_iff.1 h
  have hn := deg_lt_width m
  have hlen := bitLength_le_width b
  have hbits : clmul a b = clmulBits (wide a) (wide b) (bitLength b) :=
    clmulBits_of_le (fun i hi => (bitAt_wide b i).trans (getLsbD_of_bitLength_le hi)) hlen
  have hdeg := deg_iterations_acc (x := mulStart a b) hm ha (deg_zero_lt n) (bitLength b)
  have hmul := isMultiple_iterations_acc (x := mulStart a b) (k := bitLength b) hm ha rfl (by omega)
  rw [hbits]
  exact exists_reduce_eq_of_isMultiple (deg_wide hm) 0 (deg_wide_lt hdeg) hmul

/-! ## The bits of the carry-less product

In the Boolean ring on `Bool` a sum is an xor, so the library's lemmas about finite sums apply. -/

theorem foldl_xor_range (f : Nat → Bool) : ∀ n : Nat,
    ((List.range n).map f).foldl Bool.xor false = ∑ i ∈ Finset.range n, f i
  | 0 => rfl
  | n + 1 => by
    rw [List.range_succ, List.map_append, List.foldl_append, foldl_xor_range f n, Finset.sum_range_succ]
    rfl

/-- What bit `j` of `b` adds to bit `k` of the product by `a`. -/
def productTerm (a b : BitVec w) (k j : Nat) : Bool :=
  b.getLsbD j && (decide (j ≤ k) && a.getLsbD (k - j))

theorem productTerm_of_bitLength_le {a b : BitVec w} {j : Nat} (h : bitLength b ≤ j) (k : Nat) :
    productTerm a b k j = false := by
  rw [productTerm, getLsbD_of_bitLength_le h, Bool.false_and]

theorem productTerm_of_lt {k j : Nat} (h : k < j) (a b : BitVec w) : productTerm a b k j = false := by
  rw [productTerm, decide_eq_false (by omega), Bool.false_and, Bool.and_false]

theorem productTerm_wide (a b : BitVec w) (k j : Nat) : productTerm (wide a) (wide b) k j = productTerm a b k j := by
  have ha := bitAt_wide a (k - j)
  have hb := bitAt_wide b j
  unfold bitAt at ha hb
  rw [productTerm, ha, hb, productTerm]

theorem getLsbD_clmulBits_eq_sum {i : Nat} (hi : i < w) (a b : BitVec w) : ∀ k : Nat,
    (clmulBits a b k).getLsbD i = ∑ j ∈ Finset.range k, productTerm a b i j
  | 0 => BitVec.getLsbD_zero
  | k + 1 => by
    rw [getLsbD_clmulBits_succ, getLsbD_clmulBits_eq_sum hi a b k, Finset.sum_range_succ, decide_eq_true hi,
      Bool.true_and]
    rfl

/-- The terms past the bits of `b`, and those past bit `k`, are 0, so the sum may run to either bound. -/
theorem sum_productTerm (a b : BitVec w) (k : Nat) :
    ∑ j ∈ Finset.range w, productTerm a b k j = ∑ j ∈ Finset.range (k + 1), productTerm a b k j := by
  have hw := Finset.eventually_constant_sum (u := productTerm a b k) (N := w)
    (fun j hj => productTerm_of_bitLength_le ((bitLength_le_width b).trans hj) k) (Nat.le_add_right w (k + 1))
  have hk := Finset.eventually_constant_sum (u := productTerm a b k) (N := k + 1)
    (fun j hj => productTerm_of_lt hj a b) (Nat.le_add_left (k + 1) w)
  exact hw.symm.trans hk

/-- Bit `k` of a carry-less product is the sum of the products of the bits whose positions add to `k`. -/
theorem getLsbD_clmul (a b : BitVec w) (k : Nat) :
    (clmul a b).getLsbD k = ∑ i ∈ Finset.range (k + 1), (a.getLsbD i && b.getLsbD (k - i)) := by
  rcases lt_or_ge k (2 * w) with hk | hk
  · rw [clmul, getLsbD_clmulBits_eq_sum hk]
    simp only [productTerm_wide]
    rw [sum_productTerm, ← Finset.sum_range_reflect]
    refine Finset.sum_congr rfl fun i hi => ?_
    have hik : i ≤ k := Nat.le_of_lt_succ (Finset.mem_range.1 hi)
    rw [productTerm, Nat.add_sub_cancel, Nat.sub_sub_self hik, decide_eq_true (Nat.sub_le k i), Bool.true_and,
      Bool.and_comm]
  · rw [BitVec.getLsbD_of_ge _ _ hk]
    refine (Finset.sum_eq_zero fun i _ => ?_).symm
    rcases lt_or_ge i w with hi | hi
    · rw [BitVec.getLsbD_of_ge b (k - i) (by omega), Bool.and_false]
      rfl
    · rw [BitVec.getLsbD_of_ge a i hi, Bool.false_and]
      rfl

/-- The convolution is symmetric. -/
theorem clmul_comm (a b : BitVec w) : clmul a b = clmul b a := by
  refine BitVec.eq_of_getLsbD_eq fun k _ => ?_
  rw [getLsbD_clmul, getLsbD_clmul, ← Finset.sum_range_reflect]
  refine Finset.sum_congr rfl fun i hi => ?_
  have hik : i ≤ k := Nat.le_of_lt_succ (Finset.mem_range.1 hi)
  rw [Nat.add_sub_cancel, Nat.sub_sub_self hik, Bool.and_comm]

/-- Settles O37: iteration by iteration the result stays congruent to the carry-less product
(`reduce_clmul_of_multiply`), whose bits are `getLsbD_clmul`. -/
theorem multiplyIsTheModularProduct : Obligations.MultiplyIsTheModularProduct := by
  refine ⟨fun w a b m p n tr h => ?_, fun w a b k => (getLsbD_clmul a b k).trans (foldl_xor_range _ _).symm⟩
  obtain ⟨tr', h'⟩ := reduce_clmul_of_multiply h
  exact congrArg (Option.map Prod.fst) h'

/-! ## The laws (R127 to R129) -/

/-- The product of `b` by `a` is that of `a` by `b`: both are the remainder of one carry-less product. -/
theorem multiply_comm {a b m p : BitVec w} {n : Nat} {tr : List (Record w)} (h : multiply a b m n = some (p, tr)) :
    ∃ tr' : List (Record w), multiply b a m n = some (p, tr') ∧ tr'.length = bitLength a := by
  obtain ⟨⟨hm, ha, hb⟩, -, -⟩ := multiply_eq_some_iff.1 h
  have hswap := multiply_eq_some_iff.2 ⟨⟨hm, hb, ha⟩, rfl, rfl⟩
  obtain ⟨_, hab⟩ := reduce_clmul_of_multiply h
  obtain ⟨_, hba⟩ := reduce_clmul_of_multiply hswap
  rw [clmul_comm, hab] at hba
  have hp := wide_inj (congrArg Prod.fst (Option.some.inj hba))
  exact ⟨_, hp ▸ hswap, length_iterationRecords ..⟩

/-- Settles O36, from the symmetry of the carry-less product. -/
theorem multiplyIsCommutative : Obligations.MultiplyIsCommutative := by
  intro w a b m p n tr h
  obtain ⟨-, -, rfl⟩ := multiply_eq_some_iff.1 h
  exact ⟨length_iterationRecords .., multiply_comm h⟩

theorem deg_lt_of_multiply {a b m p : BitVec w} {n : Nat} {tr : List (Record w)}
    (h : multiply a b m n = some (p, tr)) : deg p < (n : Int) := by
  obtain ⟨⟨hm, ha, -⟩, rfl, -⟩ := multiply_eq_some_iff.1 h
  exact deg_iterations_acc (x := mulStart a b) hm ha (deg_zero_lt n) _

theorem multiply_zero {a m : BitVec w} {n : Nat} (hm : deg m = (n : Int)) (ha : deg a < (n : Int)) :
    multiply a 0 m n = some (0, []) := by
  refine multiply_eq_some_iff.2 ⟨⟨hm, ha, deg_zero_lt n⟩, ?_⟩
  rw [(bitLength_eq_zero_iff (0 : BitVec w)).2 rfl]
  exact ⟨rfl, rfl⟩

/-- A multiplication by 1 is one iteration, which adds `a` to 0. -/
theorem multiply_one {a m : BitVec w} {n : Nat} (hm : deg m = (n : Int)) (ha : deg a < (n : Int)) (hn : 1 ≤ n) :
    ∃ tr : List (Record w), multiply a 1 m n = some (a, tr) := by
  have hw := deg_lt_width m
  have hone : (1 : BitVec w).toNat = 1 := BitVec.toNat_one (by omega)
  have hdeg : deg (1 : BitVec w) < (n : Int) := (deg_lt_iff _ n).2 (hone ▸ Nat.one_lt_two_pow (by omega))
  have hlen : bitLength (1 : BitVec w) = 1 := by rw [bitLength, hone]; rfl
  have hbit : bitAt (1 : BitVec w) 0 = true := by rw [bitAt, BitVec.getLsbD, hone]; rfl
  refine ⟨_, multiply_eq_some_iff.2 ⟨⟨hm, ha, hdeg⟩, ?_, rfl⟩⟩
  rw [hlen, iterations_succ_last, iterations_zero, mulStep_acc, if_pos hbit]
  exact BitVec.zero_xor.symm

/-- Settles O35: the left operand's laws are the right operand's, by `multiply_comm`. -/
theorem multiplyIsCanonicalAndUnital : Obligations.MultiplyIsCanonicalAndUnital := by
  intro w a m n hm ha
  have hzero := multiply_zero hm ha
  obtain ⟨_, hzero', -⟩ := multiply_comm hzero
  refine ⟨fun b p tr h => deg_lt_of_multiply h, hzero, ⟨_, hzero'⟩, multiply_one hm ha, fun hn => ?_⟩
  obtain ⟨_, hone⟩ := multiply_one hm ha hn
  obtain ⟨tr, hone', -⟩ := multiply_comm hone
  exact ⟨tr, hone'⟩

/-! ## The command (R124, R125) -/

theorem Trace.writeRecords_append_singleton (r : Record w) : ∀ (rs : List (Record w)) (trc : List (Nat × Record w))
    (k : Nat), Trace.writeRecords trc k (rs ++ [r]) = Store.insert (Trace.writeRecords trc k rs) (k + rs.length) r
  | [], trc, k => rfl
  | q :: rs, trc, k => by
    rw [List.cons_append, Trace.writeRecords, Trace.writeRecords, Trace.writeRecords_append_singleton r rs,
      List.length_cons, Nat.add_assoc, Nat.add_comm 1]

/-- The block in which MULTIPLY, started from `s`, has run `k` iterations. -/
def afterIterations (s : Block w) (k : Nat) : Block w :=
  { s with
    wa := (iterations s.m s.n.toNat k (mulStart s.a s.b)).a
    wb := (iterations s.m s.n.toNat k (mulStart s.a s.b)).b
    acc := (iterations s.m s.n.toNat k (mulStart s.a s.b)).acc
    seg := 2
    phase := .mult
    trccnt := BitVec.ofNat w k
    trc := Trace.writeRecords s.trc 0 (iterationRecords s.m s.n.toNat k (mulStart s.a s.b)) }

section Run

variable {s : Block w} {k : Nat}

theorem afterIterations_zero (s : Block w) : afterIterations s 0 =
    { clearTrace s with wa := s.a, wb := s.b, acc := 0, seg := 2, phase := .mult } := rfl

theorem toNat_afterIterations_trccnt (hk : k ≤ w) : (afterIterations s k).trccnt.toNat = k := by
  have := Nat.lt_two_pow_self (n := w)
  exact (BitVec.toNat_ofNat ..).trans (Nat.mod_eq_of_lt (by omega))

theorem afterIterations_wb_ne_zero (hk : k < bitLength s.b) : (afterIterations s k).wb ≠ 0 := by
  have hdiv : 0 < s.b.toNat / 2 ^ k := Nat.div_pos ((lt_bitLength_iff s.b k).1 hk) (Nat.two_pow_pos k)
  intro h
  have hzero := congrArg BitVec.toNat ((iterations_b s.m s.n.toNat (mulStart s.a s.b) k).symm.trans h)
  rw [BitVec.toNat_ushiftRight, Nat.shiftRight_eq_div_pow] at hzero
  exact hdiv.ne' (hzero.trans BitVec.toNat_zero)

/-- Iteration `k` of the engine is iteration `k` of the function, and its record goes to `TRC[k]`. -/
theorem mulIteration_afterIterations (hk : k < w) :
    mulIteration (afterIterations s k) = .next (afterIterations s (k + 1)) := by
  have hcount := toNat_afterIterations_trccnt (s := s) hk.le
  rw [mulIteration_eq (by rw [hcount, Config.traceDepth]; omega), hcount]
  have htrc : Trace.writeRecords s.trc 0 (iterationRecords s.m s.n.toNat (k + 1) (mulStart s.a s.b)) =
      Store.insert (afterIterations s k).trc k
        (mulStep (mulVars (afterIterations s k)) s.m s.n.toNat).2 := by
    rw [iterationRecords_succ_last, Trace.writeRecords_append_singleton, length_iterationRecords, Nat.zero_add]
    rfl
  refine congrArg Host.Outcome.next (Eq.symm ?_)
  rw [afterIterations, htrc, iterations_succ_last, BitVec.ofNat_add]
  rfl

theorem decodeWord_multiply (hw : 8 ≤ w) : decodeWord (4 : Word w) = .ok .multiply := by
  have h := decodeWord_encodeWord hw .multiply
  rwa [Independence.encodeWord_eq_ofNat] at h

/-- With nothing of the host pending a step of a running MULTIPLY is the step of its phase. -/
theorem step_multiply (hw : 8 ≤ w) (hquiet : s.agenda = []) (hcur : s.cur = 4) (hp : s.phase ≠ .idle) :
    step (.of s) = State.lift (enginePhase multiplyFirst noExit s) := by
  rw [step_nil hquiet, Independence.engineTurn_eq_lift hp, hcur, decodeWord_multiply hw]
  rfl

theorem multiplyFirst_of_domain (hm : deg s.m = (s.n.toNat : Int)) (ha : deg s.a < (s.n.toNat : Int))
    (hb : deg s.b < (s.n.toNat : Int)) : multiplyFirst s = .next (afterIterations s 0) := by
  have hn := deg_lt_width s.m
  rcases multiplyFirst_cases s with ⟨h, -⟩ | ⟨-, h, -⟩ | ⟨-, -, h, -⟩ | ⟨-, -, -, h, -⟩ | ⟨-, -, -, -, h⟩
  · omega
  · exact absurd hm h
  · omega
  · omega
  · rwa [afterIterations_zero]

theorem step_afterIterations (hw : 8 ≤ w) (hquiet : s.agenda = []) (hcur : s.cur = 4) (hk : k < bitLength s.b) :
    step (.of (afterIterations s k)) = .next (.of (afterIterations s (k + 1))) := by
  have hlen := bitLength_le_width s.b
  rw [step_multiply (s := afterIterations s k) hw hquiet hcur nofun,
    enginePhase_mult_iter rfl (afterIterations_wb_ne_zero hk), mulIteration_afterIterations (by omega), State.lift_next]

theorem runs_afterIterations (hw : 8 ≤ w) (hquiet : s.agenda = []) (hcur : s.cur = 4) : ∀ {k j : Nat},
    j + k ≤ bitLength s.b → runs k (.of (afterIterations s j)) = .next (.of (afterIterations s (j + k)))
  | 0, _, _ => rfl
  | k + 1, j, h => by
    have hrest := runs_afterIterations hw hquiet hcur (k := k) (j := j + 1) (by omega)
    rw [Nat.add_assoc, Nat.add_comm 1] at hrest
    exact Independence.runs_succ_eq_next.2 ⟨_, step_afterIterations hw hquiet hcur (by omega), hrest⟩

/-- From an accepted MULTIPLY with legal operands, `1 + k` steps are the first step and `k` iterations. -/
theorem runs_multiply (hw : 8 ≤ w) (hquiet : s.agenda = []) (hp : s.phase = .start) (hcur : s.cur = 4)
    (hm : deg s.m = (s.n.toNat : Int)) (ha : deg s.a < (s.n.toNat : Int)) (hb : deg s.b < (s.n.toNat : Int))
    (hk : k ≤ bitLength s.b) : runs (1 + k) (.of s) = .next (.of (afterIterations s k)) := by
  have hfirst : step (.of s) = .next (.of (afterIterations s 0)) := by
    rw [step_multiply hw hquiet hcur (by simp [hp]), enginePhase_start hp, multiplyFirst_of_domain hm ha hb,
      State.lift_next]
  have hrest := runs_afterIterations hw hquiet hcur (k := k) (j := 0) (by omega)
  rw [Nat.zero_add] at hrest
  rw [Nat.add_comm]
  exact Independence.runs_succ_eq_next.2 ⟨_, hfirst, hrest⟩

end Run

/-- Settles O40: after `1 + k` steps the registers hold the variables of `iterations`, whose invariants are R125's. -/
theorem multiplierLoopInvariants : Obligations.MultiplierLoopInvariants := by
  intro w s p tr hlegal hquiet hp hcur h k hk
  obtain ⟨hw, -⟩ := hlegal
  obtain ⟨⟨hm, ha, hb⟩, -, rfl⟩ := multiply_eq_some_iff.1 h
  rw [length_iterationRecords] at hk
  refine ⟨afterIterations s k, runs_multiply hw hquiet hp hcur hm ha hb hk, rfl,
    deg_iterations_a (x := mulStart s.a s.b) hm ha k,
    deg_iterations_acc (x := mulStart s.a s.b) hm ha (deg_zero_lt _) k, iterations_b .., ?_⟩
  rw [take_iterationRecords hk]
  exact iterations_acc hw rfl k

end Sys2Proof.Machine

/-! # EVALUATE (43_evaluate.md R135 to R141)

`evaluate` is a composition of the three functions of its segments (`Composes`). On the machine, each of the two loops
is followed from any state that stands at its head, with the records it appends (`runs_reducer`, `runs_multiplier`);
DECODE, REDUCE, MULTIPLY and EVALUATE are then first steps, loops and exits put end to end, and the statements compare
their last states. -/

namespace Sys2Proof.Machine

open Sys2Proof.Safety

variable {w : Nat}

/-! ## The headers of the segments (30_encoding.md R80) -/

theorem redHeader_eq_ofNat (hw : 8 ≤ w) (seg : BitVec 2) :
    (redHeader seg : BitVec w) = BitVec.ofNat w (0x01 + 4 * seg.toNat) := by
  rw [← toNat_redHeader hw, BitVec.ofNat_toNat, BitVec.setWidth_eq]

/-- `KIND` and `SEG` are the same in every header of the Multiplier. -/
theorem kind_seg_mulHeader (hw : 8 ≤ w) (bit chg ovf : Bool) :
    headerKind (mulHeader bit chg ovf : BitVec w) = 2 ∧ headerSeg (mulHeader bit chg ovf : BitVec w) = 2 := by
  have hbound : 2 ^ 8 ≤ 2 ^ w := Nat.pow_le_pow_right (by decide) hw
  have hbit := bit.toNat_le
  have hchg := chg.toNat_le
  have hovf := ovf.toNat_le
  have hvalue := congrArg BitVec.toNat (mulHeader_eq_ofNat (w := w) bit chg ovf)
  rw [BitVec.toNat_ofNat, Nat.mod_eq_of_lt (by omega)] at hvalue
  constructor
  · refine BitVec.eq_of_toNat_eq ?_
    rw [headerKind, BitVec.extractLsb'_toNat, hvalue, Nat.shiftRight_zero]
    show _ % 4 = 2
    omega
  · refine BitVec.eq_of_toNat_eq ?_
    rw [headerSeg, BitVec.extractLsb'_toNat, hvalue, Nat.shiftRight_eq_div_pow]
    show _ / 4 % 4 = 2
    omega

/-! ## The traces of the segments -/

section Segments

variable {a b v m r p : BitVec w} {n : Nat} {seg : BitVec 2} {tr : List (Record w)}

theorem header_of_reduce (h : reduce v m n seg = some (r, tr)) : ∀ x ∈ tr, x.header = redHeader seg :=
  reduce_induction (P := fun _ _ tr => ∀ x ∈ tr, x.header = redHeader seg) (fun _ _ => List.forall_mem_nil _)
    (fun _ _ _ _ _ ih => List.forall_mem_cons.2 ⟨rfl, ih⟩) h

/-- A record of the Reducer with the segment `seg` in its header. -/
def inSegment (seg : BitVec 2) (x : Record w) : Record w :=
  { x with header := redHeader seg }

/-- The segment number stands in the headers of the records and nowhere else. -/
theorem reduce_inSegment (seg' : BitVec 2) (h : reduce v m n seg = some (r, tr)) :
    reduce v m n seg' = some (r, tr.map (inSegment seg')) := by
  have hm := deg_modulus_of_reduce h
  exact reduce_induction (P := fun v r tr => reduce v m n seg' = some (r, tr.map (inSegment seg')))
    (fun _ hv => reduce_of_lt hm hv) (fun _ _ _ hv _ ih => reduce_of_le hv ih) h

theorem length_reduce_le (h : reduce v m n seg = some (r, tr)) : tr.length ≤ w - n := by
  have hlen := length_trace_le h
  have hv := deg_lt_width v
  omega

theorem length_reduce_le_traceDepth (h : reduce v m n seg = some (r, tr)) : tr.length ≤ Config.traceDepth w := by
  have hlen := length_reduce_le h
  rw [Config.traceDepth]
  omega

theorem length_multiply_le (h : multiply a b m n = some (p, tr)) : tr.length ≤ n := by
  obtain ⟨⟨-, -, hb⟩, -, rfl⟩ := multiply_eq_some_iff.1 h
  rw [length_iterationRecords]
  exact (canonical_iff_bitLength b n).1 (decide_eq_true hb)

theorem header_of_multiply (hw : 8 ≤ w) (h : multiply a b m n = some (p, tr)) :
    ∀ x ∈ tr, headerKind x.header = 2 ∧ headerSeg x.header = 2 := by
  obtain ⟨-, -, rfl⟩ := multiply_eq_some_iff.1 h
  exact List.forall_mem_map.2 fun _ _ => kind_seg_mulHeader hw ..

end Segments

/-! ## The composition (R135, R137) -/

/-- `e` holds the values of reducing `a`, reducing `b` and multiplying the two, with their records in this order. -/
structure Composes (a b : BitVec w) (n : Nat) (e : Evaluation w) (ta tb tm : List (Record w)) : Prop where
  reduceA : reduce a e.modulus n 0 = some (e.aReduced, ta)
  reduceB : reduce b e.modulus n 1 = some (e.bReduced, tb)
  multiply : multiply e.aReduced e.bReduced e.modulus n = some (e.product, tm)
  trace : e.trace = ta ++ tb ++ tm

section Composition

variable {a b m : BitVec w} {n : Nat} {e : Evaluation w} {ta tb tm : List (Record w)}

theorem exists_composes (hm : deg m = (n : Int)) (a b : BitVec w) :
    ∃ (e : Evaluation w) (ta tb tm : List (Record w)), e.modulus = m ∧ Composes a b n e ta tb tm := by
  obtain ⟨ra, ta, ha⟩ := exists_reduce_eq hm a 0
  obtain ⟨rb, tb, hb⟩ := exists_reduce_eq hm b 1
  have hp := multiply_eq_some_iff.2 ⟨⟨hm, deg_lt_of_reduce ha, deg_lt_of_reduce hb⟩, rfl, rfl⟩
  exact ⟨⟨_, ra, rb, m, _⟩, ta, tb, _, rfl, ha, hb, hp, rfl⟩

theorem Composes.deg_modulus (h : Composes a b n e ta tb tm) : deg e.modulus = (n : Int) :=
  deg_modulus_of_reduce h.reduceA

/-- The combined trace fits: at most `w - n` records for each reduction, `n` for the product (R137). -/
theorem Composes.length_le (h : Composes a b n e ta tb tm) : ta.length + tb.length + tm.length ≤ 2 * w - n := by
  have hn := deg_lt_width e.modulus
  have hdeg := h.deg_modulus
  have ha := length_reduce_le h.reduceA
  have hb := length_reduce_le h.reduceB
  have hp := length_multiply_le h.multiply
  omega

theorem Composes.length_trace (h : Composes a b n e ta tb tm) :
    e.trace.length = ta.length + tb.length + tm.length := by
  rw [h.trace, List.length_append, List.length_append]

/-- Where every test passes, `evaluate` is the composition. -/
theorem Composes.evaluate_eq (h : Composes a b n e ta tb tm) {depth : Nat} {t : List Byte} (hlen : t.length ≤ depth)
    (hdecode : decodeText w t = .ok e.modulus) : evaluate depth a b t n = .ok e := by
  have hm := h.deg_modulus
  have hn := deg_lt_width e.modulus
  have ha := (reduce_eq_reduceLoop hm a 0).symm.trans h.reduceA
  have hb := (reduce_eq_reduceLoop hm b 1).symm.trans h.reduceB
  have hdomain := (multiplyDomain_iff e.aReduced e.bReduced e.modulus n).2
    ⟨hm, deg_lt_of_reduce h.reduceA, deg_lt_of_reduce h.reduceB⟩
  have hp : some (multiplyLoop e.modulus n w { acc := 0, a := e.aReduced, b := e.bReduced }) = some (e.product, tm) :=
    (if_pos hdomain).symm.trans h.multiply
  have hok := (modulusOk_iff e.modulus n).2 hm
  rw [evaluate, if_neg (by omega), if_neg (by omega), hdecode]
  simp only [hok, Option.some.inj ha, Option.some.inj hb, Option.some.inj hp, ← h.trace, Bool.not_true,
    Bool.false_eq_true, if_false]

end Composition

/-- Settles O43: the tests are the branches of `evaluate` in their order, and past them it is the composition
(`Composes.evaluate_eq`). -/
theorem evaluateIsItsComposition : Obligations.EvaluateIsItsComposition := by
  intro w depth a b t n
  refine ⟨fun hn => if_pos hn, fun hn hlen => ?_, fun hn hlen f j hdecode => ?_, fun hn hlen m hdecode hm => ?_,
    fun hn hlen m hdecode hm => ?_⟩
  · rw [evaluate, if_neg (by omega), if_pos hlen]
  · rw [evaluate, if_neg (by omega), if_neg (by omega), hdecode]
  · have hbad : modulusOk m n = false := by rw [← Bool.not_eq_true, modulusOk_iff]; exact hm
    rw [evaluate, if_neg (by omega), if_neg (by omega), hdecode]
    simp [hbad]
  · obtain ⟨e, ta, tb, tm, rfl, h⟩ := exists_composes hm a b
    refine ⟨e.aReduced, e.bReduced, e.product, ta, tb, tm, h.reduceA, h.reduceB, h.multiply, ?_, ?_, fun hw => ?_⟩
    · rw [h.evaluate_eq hlen hdecode, ← h.trace]
    · rw [List.length_append, List.length_append]
      exact h.length_le
    · exact ⟨fun x hx => (header_of_reduce h.reduceA x hx).trans (redHeader_eq_ofNat hw 0),
        fun x hx => (header_of_reduce h.reduceB x hx).trans (redHeader_eq_ofNat hw 1), header_of_multiply hw h.multiply⟩

/-! ## The product of the reduced operands (R141) -/

section Congruence

variable {a a' b b' v r m : BitVec w} {n k : Nat} {seg : BitVec 2} {tr : List (Record w)}

theorem wide_shl (hm : deg m = (n : Int)) (hk : n + k < w) : wide (shl m k) = shl (wide m) k := by
  refine BitVec.eq_of_toNat_eq ?_
  rw [toNat_shl (deg_wide hm) (by omega), BitVec.toNat_setWidth_of_le (by omega), toNat_shl hm hk,
    BitVec.toNat_setWidth_of_le (by omega)]

/-- Each set bit of the other factor adds one more shifted copy of the modulus. -/
theorem isMultiple_clmulBits_shl (hm : deg m = (n : Int)) (hk : n + k < w) (c : BitVec (2 * w)) : ∀ {j : Nat},
    j ≤ w → IsMultiple (wide m) (clmulBits (wide (shl m k)) c j)
  | 0, _ => isMultiple_zero (wide m)
  | j + 1, hj => by
    refine (isMultiple_clmulBits_shl hm hk c (by omega)).xor ?_
    cases bitAt c j
    · exact isMultiple_zero (wide m)
    · have hshift : shl (wide (shl m k)) j = shl (wide m) (k + j) := by
        rw [wide_shl hm hk, shl, shl, shl, BitVec.shiftLeft_add]
      rw [if_pos rfl, hshift]
      exact isMultiple_shl (deg_wide hm) (by omega)

/-- Reducing a factor changes the product by a multiple of the modulus. -/
theorem isMultiple_clmul_of_reduce (h : reduce v m n seg = some (r, tr)) (b : BitVec w) :
    IsMultiple (wide m) (clmul v b ^^^ clmul r b) := by
  have hm := deg_modulus_of_reduce h
  refine reduce_induction (P := fun v r _ => IsMultiple (wide m) (clmul v b ^^^ clmul r b)) (fun v _ => ?_) ?_ h
  · rw [BitVec.xor_self]
    exact isMultiple_zero (wide m)
  · intro v r tr hv _ ih
    have hstep : clmul v b ^^^ clmul (redStep v m n).nv b = clmul (shl m (redShift v n)) b := by
      rw [← clmul_xor_left, redStep, ← BitVec.xor_assoc, BitVec.xor_self, BitVec.zero_xor]
    have hmul : IsMultiple (wide m) (clmul v b ^^^ clmul (redStep v m n).nv b) :=
      hstep ▸ isMultiple_clmulBits_shl hm (add_redShift_lt_width hv) (wide b) le_rfl
    exact hmul.trans ih

theorem isMultiple_clmul_of_reduce_both {ta tb : List (Record w)} {sega segb : BitVec 2}
    (ha : reduce a m n sega = some (a', ta)) (hb : reduce b m n segb = some (b', tb)) :
    IsMultiple (wide m) (clmul a b ^^^ clmul a' b') := by
  have hleft := isMultiple_clmul_of_reduce ha b
  have hright := isMultiple_clmul_of_reduce hb a'
  rw [clmul_comm b a', clmul_comm b' a'] at hright
  exact hleft.trans hright

end Congruence

/-- The product of the reduced operands is the remainder of the carry-less product of the operands themselves. -/
theorem Composes.reduce_clmul {a b : BitVec w} {n : Nat} {e : Evaluation w} {ta tb tm : List (Record w)}
    (h : Composes a b n e ta tb tm) :
    ∃ tr : List (Record (2 * w)), reduce (clmul a b) (wide e.modulus) n 0 = some (wide e.product, tr) := by
  obtain ⟨_, hp⟩ := reduce_clmul_of_multiply h.multiply
  have hmul := (isMultiple_clmul_of_reduce_both h.reduceA h.reduceB).trans (isMultiple_xor_of_reduce hp)
  exact exists_reduce_eq_of_isMultiple (deg_wide h.deg_modulus) 0 (deg_wide_lt (deg_lt_of_multiply h.multiply)) hmul

/-! ## The trace (10_state.md R29, R30) -/

section Trace

variable {s : Block w} {rs qs : List (Record w)}

/-- `s` with the records `rs` appended, oldest first (30_encoding.md R80). -/
def appendRecords (rs : List (Record w)) (s : Block w) : Block w :=
  { s with
    trc := Trace.writeRecords s.trc s.trccnt.toNat rs
    trccnt := s.trccnt + BitVec.ofNat w rs.length }

@[simp] theorem appendRecords_nil (s : Block w) : appendRecords [] s = s := by
  simp [appendRecords, Trace.writeRecords]

theorem toNat_trccnt_appendRecords (hw : 8 ≤ w) (hroom : s.trccnt.toNat + rs.length ≤ Config.traceDepth w) :
    (appendRecords rs s).trccnt.toNat = s.trccnt.toNat + rs.length := by
  have hdepth := traceDepth_lt_two_pow hw
  rw [appendRecords, BitVec.toNat_add, BitVec.toNat_ofNat, Nat.mod_eq_of_lt (b := 2 ^ w) (a := rs.length) (by omega),
    Nat.mod_eq_of_lt (by omega)]

theorem append_appendRecords (hw : 8 ≤ w) (hroom : s.trccnt.toNat + rs.length < Config.traceDepth w) (r : Record w) :
    append r (appendRecords rs s) = .next (appendRecords (rs ++ [r]) s) := by
  have hcount := toNat_trccnt_appendRecords hw hroom.le
  rw [append_eq r (hcount ▸ hroom), hcount, appendRecords, appendRecords, Trace.writeRecords_append_singleton,
    List.length_append, BitVec.ofNat_add, ← BitVec.add_assoc]
  rfl

/-- The valid records of the trace are exactly `rs`. -/
structure HoldsTrace (s : Block w) (rs : List (Record w)) : Prop where
  count : s.trccnt.toNat = rs.length
  records : ∀ k : Nat, k < rs.length → Store.find s.trc k = rs[k]?

theorem holdsTrace_clearTrace (s : Block w) : HoldsTrace (clearTrace s) [] :=
  ⟨BitVec.toNat_zero, fun _ hk => absurd hk (Nat.not_lt_zero _)⟩

theorem HoldsTrace.appendRecords (hw : 8 ≤ w) (h : HoldsTrace s rs)
    (hroom : rs.length + qs.length ≤ Config.traceDepth w) : HoldsTrace (appendRecords qs s) (rs ++ qs) := by
  have hcount := h.count
  refine ⟨?_, fun k hk => ?_⟩
  · rw [toNat_trccnt_appendRecords hw (by omega), hcount, List.length_append]
  · rw [List.length_append] at hk
    rw [Machine.appendRecords, Trace.find_writeRecords, hcount]
    rcases lt_or_ge k rs.length with hlt | hge
    · rw [if_neg (by omega), h.records k hlt, List.getElem?_append_left hlt]
    · rw [if_pos ⟨hge, hk⟩, List.getElem?_append_right hge]

/-- A cleared trace has room for as many records as the buffer holds. -/
theorem clearTrace_room (s : Block w) {k : Nat} (hk : k ≤ Config.traceDepth w) :
    (clearTrace s).trccnt.toNat + k ≤ Config.traceDepth w := by
  rwa [(holdsTrace_clearTrace s).count, List.length_nil, Nat.zero_add]

theorem holdsTrace_appendRecords_clearTrace (hw : 8 ≤ w) (s : Block w) (hroom : rs.length ≤ Config.traceDepth w) :
    HoldsTrace (Machine.appendRecords rs (clearTrace s)) rs :=
  (holdsTrace_clearTrace s).appendRecords hw (by rwa [List.length_nil, Nat.zero_add])

/-- Reading one segment of the trace. -/
theorem HoldsTrace.find_segment {ps : List (Record w)} (h : HoldsTrace s (ps ++ qs ++ rs)) {k : Nat}
    (hk : k < qs.length) : Store.find s.trc (ps.length + k) = qs[k]? := by
  rw [h.records _ (by simp only [List.length_append]; omega),
    List.getElem?_append_left (by rw [List.length_append]; omega),
    List.getElem?_append_right (Nat.le_add_right ..), Nat.add_sub_cancel_left]

end Trace

/-! ## Runs of the machine -/

section Runs

variable {s t u : Block w} {j k : Nat}

theorem runs_one {x y : State} : runs 1 x = .next y ↔ step x = .next y := by
  rw [Independence.runs_succ_eq_next]
  exact ⟨fun ⟨_, hx, hy⟩ => Host.Outcome.next.inj hy ▸ hx, fun hx => ⟨y, hx, rfl⟩⟩

theorem runs_add {y z : State} : ∀ {j : Nat} {x : State}, runs j x = .next y → runs k y = .next z →
    runs (j + k) x = .next z
  | 0, x, hx, hy => by
    cases Host.Outcome.next.inj hx
    rwa [Nat.zero_add]
  | j + 1, x, hx, hy => by
    obtain ⟨x', hstep, hrest⟩ := Independence.runs_succ_eq_next.1 hx
    rw [Nat.add_right_comm]
    exact Independence.runs_succ_eq_next.2 ⟨x', hstep, runs_add hrest hy⟩

/-- No step changes an idle block with nothing of the host pending (00_scope.md R18). -/
theorem eq_of_runs_idle (hquiet : s.agenda = []) (hp : s.phase = .idle) : ∀ {k : Nat} {y : State},
    runs k (.of s) = .next y → y = .of s
  | 0, _, h => (Host.Outcome.next.inj h).symm
  | k + 1, y, h => by
    obtain ⟨x, hstep, hrest⟩ := Independence.runs_succ_eq_next.1 h
    rw [step_nil hquiet, engineTurn_idle (s := .of s) hp] at hstep
    cases hstep
    exact eq_of_runs_idle hquiet hp hrest

/-- What is left of a run after its first `j` steps. -/
theorem runs_sub {y z : State} : ∀ {j k : Nat} {x : State}, j ≤ k → runs j x = .next y → runs k x = .next z →
    runs (k - j) y = .next z
  | 0, _, _, _, hx, hz => Host.Outcome.next.inj hx ▸ hz
  | j + 1, k + 1, x, hjk, hx, hz => by
    obtain ⟨x', hstep, hrest⟩ := Independence.runs_succ_eq_next.1 hx
    obtain ⟨x'', hstep', hrest'⟩ := Independence.runs_succ_eq_next.1 hz
    obtain rfl : x' = x'' := Host.Outcome.next.inj (hstep.symm.trans hstep')
    rw [Nat.add_sub_add_right]
    exact runs_sub (Nat.le_of_succ_le_succ hjk) hrest hrest'

/-- The engine puts nothing on the agenda: a run from START is in lockstep with itself. -/
theorem runs_agenda (hw : 8 ≤ w) (hquiet : s.agenda = []) (hp : s.phase = .start)
    (h : runs k (.of s) = .next (.of t)) : t.agenda = [] := by
  have hself : Independence.Lockstep s.cur s s :=
    .start ⟨hquiet, hquiet, rfl, rfl, rfl, rfl, rfl⟩ hp
      ⟨rfl, fun _ => rfl, fun _ => rfl, fun _ => rfl, fun _ => rfl, fun _ => rfl, fun _ _ => rfl⟩
  obtain ⟨_, _, hl⟩ := Independence.runs_lockstep hw k hself h
  exact hl.ctrl.quiet

/-- From START the engine alone comes to one idle state only. -/
theorem runs_idle_unique (hw : 8 ≤ w) (hquiet : s.agenda = []) (hp : s.phase = .start)
    (ht : runs j (.of s) = .next (.of t)) (htp : t.phase = .idle) (hu : runs k (.of s) = .next (.of u))
    (hup : u.phase = .idle) : t = u := by
  rcases Nat.le_total j k with hjk | hkj
  · exact (State.of_inj.1 (eq_of_runs_idle (runs_agenda hw hquiet hp ht) htp (runs_sub hjk ht hu))).symm
  · exact State.of_inj.1 (eq_of_runs_idle (runs_agenda hw hquiet hp hu) hup (runs_sub hkj hu ht))

/-- A step of a running command with nothing of the host pending is the step of its phase. -/
theorem step_command (hw : 8 ≤ w) (i : Instr) (hquiet : s.agenda = [])
    (hcur : s.cur = BitVec.ofNat w (opcode i).toNat) (hp : s.phase ≠ .idle) : step (.of s) =
      State.lift (enginePhase (Independence.firstStep (.ok i)) (Independence.exitStep (.ok i)) s) := by
  rw [step_nil hquiet, Independence.engineTurn_eq_lift hp, hcur, ← Independence.encodeWord_eq_ofNat,
    decodeWord_encodeWord hw]

theorem runs_firstStep (hw : 8 ≤ w) (i : Instr) (hquiet : s.agenda = [])
    (hcur : s.cur = BitVec.ofNat w (opcode i).toNat) (hp : s.phase = .start)
    (h : Independence.firstStep (.ok i) s = .next t) : runs 1 (.of s) = .next (.of t) := by
  rw [runs_one, step_command hw i hquiet hcur (by rw [hp]; nofun), enginePhase_start hp, h, State.lift_next]

theorem reducing_eq_false (h : deg s.wv < (s.n.toNat : Int)) : reducing s = false := by
  rw [← Bool.not_eq_true, reducing_iff]
  exact not_le.2 h

theorem runs_exitStep (hw : 8 ≤ w) (i : Instr) (hquiet : s.agenda = [])
    (hcur : s.cur = BitVec.ofNat w (opcode i).toNat) (hp : s.phase = .reda) (hv : deg s.wv < (s.n.toNat : Int))
    (h : Independence.exitStep (.ok i) s = .next t) : runs 1 (.of s) = .next (.of t) := by
  rw [runs_one, step_command hw i hquiet hcur (by rw [hp]; nofun), enginePhase_reda_exit hp (reducing_eq_false hv), h,
    State.lift_next]

end Runs

/-! ## The loops, from any state at their head -/

section Loops

variable {s : Block w} {v r : Word w} {q tr : List (Record w)} {k : Nat}

/-- The block in which a Reducer loop that began in `s` has appended the records `q` and holds the value `v`. -/
def afterReducing (q : List (Record w)) (v : Word w) (s : Block w) : Block w :=
  appendRecords q { s with wv := v }

/-- With nothing of the host pending a step in a Reducer loop that goes on is an iteration. -/
theorem step_reducing (hquiet : s.agenda = []) (hp : s.phase = .reda ∨ s.phase = .redb) (hr : reducing s = true) :
    step (.of s) = State.lift (redIteration s) := by
  have hrun : s.phase ≠ .idle := by rcases hp with hp | hp <;> rw [hp] <;> nofun
  rw [step_nil hquiet, Independence.engineTurn_eq_lift hrun]
  rcases hp with hp | hp
  · rw [enginePhase_reda_iter hp hr]
  · rw [enginePhase_redb_iter hp hr]

theorem redIteration_afterReducing (hw : 8 ≤ w) (v : Word w) (hroom : s.trccnt.toNat + q.length < Config.traceDepth w) :
    redIteration (afterReducing q v s) = .next
      (afterReducing (q ++ [redRecord s.seg v (redStep v s.m s.n.toNat)]) (redStep v s.m s.n.toNat).nv s) :=
  append_appendRecords (s := { s with wv := (redStep v s.m s.n.toNat).nv }) hw hroom _

theorem runs_afterReducing (hw : 8 ≤ w) (hquiet : s.agenda = []) (hp : s.phase = .reda ∨ s.phase = .redb)
    (h : reduce v s.m s.n.toNat s.seg = some (r, tr)) :
    ∀ q : List (Record w), s.trccnt.toNat + q.length + tr.length ≤ Config.traceDepth w →
      runs tr.length (.of (afterReducing q v s)) = .next (.of (afterReducing (q ++ tr) r s)) := by
  refine reduce_induction (P := fun v r tr => ∀ q : List (Record w),
    s.trccnt.toNat + q.length + tr.length ≤ Config.traceDepth w →
    runs tr.length (.of (afterReducing q v s)) = .next (.of (afterReducing (q ++ tr) r s))) ?_ ?_ h
  · intro v _ q _
    rw [List.append_nil]
    rfl
  · intro v r tr hv _ ih q hroom
    rw [List.length_cons] at hroom ⊢
    have hiter := redIteration_afterReducing (s := s) (q := q) hw v (by omega)
    have hrest := ih (q ++ [redRecord s.seg v (redStep v s.m s.n.toNat)])
      (by rw [List.length_append, List.length_singleton]; omega)
    rw [List.append_assoc, List.singleton_append] at hrest
    refine Independence.runs_succ_eq_next.2 ⟨_, ?_, hrest⟩
    rw [step_reducing (s := afterReducing q v s) hquiet hp ((reducing_iff _).2 hv), hiter, State.lift_next]

/-- The Reducer loop of a running command appends the records of `reduce` and leaves its value in `WV` (R114). -/
theorem runs_reducer (hw : 8 ≤ w) (hquiet : s.agenda = []) (hp : s.phase = .reda ∨ s.phase = .redb)
    (h : reduce s.wv s.m s.n.toNat s.seg = some (r, tr)) (hroom : s.trccnt.toNat + tr.length ≤ Config.traceDepth w) :
    runs tr.length (.of s) = .next (.of (afterReducing tr r s)) := by
  have hrun := runs_afterReducing hw hquiet hp h [] (by rwa [List.length_nil])
  rwa [afterReducing, appendRecords_nil, List.nil_append] at hrun

/-- `s` with the loop variables `x` of the Multiplier. -/
def withMulVars (s : Block w) (x : MulVars w) : Block w :=
  { s with acc := x.acc, wa := x.a, wb := x.b }

/-- The block in which a Multiplier loop that began in `s` has run `k` iterations. -/
def afterMulIterations (s : Block w) (k : Nat) : Block w :=
  appendRecords (iterationRecords s.m s.n.toNat k (mulVars s)) (withMulVars s (iterations s.m s.n.toNat k (mulVars s)))

theorem afterMulIterations_wb (s : Block w) (k : Nat) : (afterMulIterations s k).wb = s.wb >>> k :=
  iterations_b ..

theorem shiftRight_eq_zero_iff (v : BitVec w) (k : Nat) : v >>> k = 0 ↔ bitLength v ≤ k := by
  rw [← BitVec.toNat_inj, BitVec.toNat_ushiftRight, Nat.shiftRight_eq_div_pow, BitVec.ofNat_eq_ofNat,
    BitVec.toNat_zero, Nat.div_eq_zero_iff_lt (Nat.two_pow_pos k), bitLength_le_iff]

/-- With nothing of the host pending a step in the Multiplier loop is an iteration or the exit. -/
theorem step_mult (hquiet : s.agenda = []) (hp : s.phase = .mult) :
    step (.of s) = State.lift (if s.wb = 0 then mulExit s else mulIteration s) := by
  rw [step_nil hquiet, Independence.engineTurn_eq_lift (by rw [hp]; nofun)]
  by_cases hb : s.wb = 0
  · rw [enginePhase_mult_exit hp hb, if_pos hb]
  · rw [enginePhase_mult_iter hp hb, if_neg hb]

theorem mulIteration_afterMulIterations (hw : 8 ≤ w) (hroom : s.trccnt.toNat + k < Config.traceDepth w) :
    mulIteration (afterMulIterations s k) = .next (afterMulIterations s (k + 1)) := by
  have hlen := length_iterationRecords s.m s.n.toNat k (mulVars s)
  rw [afterMulIterations, afterMulIterations, iterationRecords_succ_last, iterations_succ_last]
  exact append_appendRecords (s := withMulVars s (mulStep (iterations s.m s.n.toNat k (mulVars s)) s.m s.n.toNat).1) hw
    (hlen.symm ▸ hroom) _

theorem runs_mulIterations (hw : 8 ≤ w) (hquiet : s.agenda = []) (hp : s.phase = .mult)
    (hroom : s.trccnt.toNat + bitLength s.wb ≤ Config.traceDepth w) : ∀ {k : Nat}, k ≤ bitLength s.wb →
    runs k (.of s) = .next (.of (afterMulIterations s k))
  | 0, _ => congrArg (fun t => Host.Outcome.next (State.of t)) (appendRecords_nil s).symm
  | k + 1, hk => by
    refine runs_add (runs_mulIterations hw hquiet hp hroom (k := k) (by omega)) (runs_one.2 ?_)
    have hb : (afterMulIterations s k).wb ≠ 0 := by
      rw [afterMulIterations_wb, Ne, shiftRight_eq_zero_iff]
      omega
    rw [step_mult (s := afterMulIterations s k) hquiet hp, if_neg hb, mulIteration_afterMulIterations hw (by omega),
      State.lift_next]

/-- The block in which a Multiplier loop that began in `s` has completed. -/
def afterMultiplier (s : Block w) : Block w :=
  complete { afterMulIterations s (bitLength s.wb) with res := (afterMulIterations s (bitLength s.wb)).acc }

/-- The Multiplier loop of a running command, with the exit (R124). -/
theorem runs_multiplier (hw : 8 ≤ w) (hquiet : s.agenda = []) (hp : s.phase = .mult)
    (hroom : s.trccnt.toNat + bitLength s.wb ≤ Config.traceDepth w) :
    runs (bitLength s.wb + 1) (.of s) = .next (.of (afterMultiplier s)) := by
  refine runs_add (runs_mulIterations hw hquiet hp hroom le_rfl) (runs_one.2 ?_)
  have hb : (afterMulIterations s (bitLength s.wb)).wb = 0 := by
    rw [afterMulIterations_wb, shiftRight_eq_zero_iff]
  rw [step_mult (s := afterMulIterations s (bitLength s.wb)) hquiet hp, if_pos hb]
  rfl

end Loops

/-! ## The commands, from START to their end -/

section Commands

variable {s : Block w} {r p : Word w} {tr tm : List (Record w)}

/-- The block in which REDUCE has completed with the value `r` and the records `tr`. -/
def afterReduce (s : Block w) (r : Word w) (tr : List (Record w)) : Block w :=
  complete { afterReducing tr r { clearTrace s with wv := s.a, seg := 0, phase := .reda } with res := r }

/-- REDUCE runs to the value and the records of `reduce(A, M, N)` (41_reducer.md section 2). -/
theorem runs_reduce (hw : 8 ≤ w) (hquiet : s.agenda = []) (hp : s.phase = .start) (hcur : s.cur = 3)
    (h : reduce s.a s.m s.n.toNat 0 = some (r, tr)) :
    runs (1 + tr.length + 1) (.of s) = .next (.of (afterReduce s r tr)) := by
  have hm := deg_modulus_of_reduce h
  have hn := deg_lt_width s.m
  have hlen : tr.length ≤ Config.traceDepth w := length_reduce_le_traceDepth h
  have hfirst : reduceFirst s = .next { clearTrace s with wv := s.a, seg := 0, phase := .reda } := by
    rcases reduceFirst_cases s with ⟨hbad, -⟩ | ⟨-, hbad, -⟩ | ⟨-, -, hnext⟩
    · omega
    · exact absurd hm hbad
    · exact hnext
  have hstart := runs_firstStep hw .reduce hquiet hcur hp hfirst
  have hloop := runs_reducer (s := { clearTrace s with wv := s.a, seg := 0, phase := .reda }) hw hquiet (.inl rfl) h
    (clearTrace_room s hlen)
  have hexit := runs_exitStep (s := afterReducing tr r { clearTrace s with wv := s.a, seg := 0, phase := .reda })
    (t := afterReduce s r tr) hw .reduce hquiet hcur rfl (deg_lt_of_reduce h) rfl
  exact runs_add (runs_add hstart hloop) hexit

theorem holdsTrace_afterReduce (hw : 8 ≤ w) (h : reduce s.a s.m s.n.toNat 0 = some (r, tr)) :
    HoldsTrace (afterReduce s r tr) tr :=
  { holdsTrace_appendRecords_clearTrace hw s (length_reduce_le_traceDepth h) with }

/-- A Multiplier loop that begins with the operands `a` and `b` of `multiply` ends with its product in `RES`. -/
theorem afterMultiplier_res (hacc : s.acc = 0) (h : multiply s.wa s.wb s.m s.n.toNat = some (p, tm)) :
    (afterMultiplier s).res = p := by
  obtain ⟨-, rfl, -⟩ := multiply_eq_some_iff.1 h
  rw [mulStart, ← hacc]
  rfl

/-- The loop leaves the records of `multiply` behind those it has found. -/
theorem holdsTrace_afterMultiplier (hw : 8 ≤ w) (hacc : s.acc = 0)
    (h : multiply s.wa s.wb s.m s.n.toNat = some (p, tm)) (hs : HoldsTrace s tr)
    (hroom : tr.length + tm.length ≤ Config.traceDepth w) : HoldsTrace (afterMultiplier s) (tr ++ tm) := by
  obtain ⟨-, -, rfl⟩ := multiply_eq_some_iff.1 h
  rw [mulStart, ← hacc] at hroom ⊢
  exact { hs.appendRecords hw hroom with }

/-- The block in which MULTIPLY has completed. -/
def afterMultiply (s : Block w) : Block w :=
  afterMultiplier (afterIterations s 0)

/-- MULTIPLY runs to its end (42_multiplier.md section 2). -/
theorem runs_multiply_complete (hw : 8 ≤ w) (hquiet : s.agenda = []) (hp : s.phase = .start) (hcur : s.cur = 4)
    (h : multiply s.a s.b s.m s.n.toNat = some (p, tm)) :
    runs (1 + (tm.length + 1)) (.of s) = .next (.of (afterMultiply s)) := by
  obtain ⟨⟨hm, ha, hb⟩, -, rfl⟩ := multiply_eq_some_iff.1 h
  have hlen : bitLength s.b ≤ Config.traceDepth w := (bitLength_le_width s.b).trans (by rw [Config.traceDepth]; omega)
  have hloop := runs_multiplier (s := afterIterations s 0) hw hquiet rfl (clearTrace_room s hlen)
  rw [length_iterationRecords]
  exact runs_add (runs_firstStep hw .multiply hquiet hcur hp (multiplyFirst_of_domain hm ha hb)) hloop

theorem afterMultiply_res (h : multiply s.a s.b s.m s.n.toNat = some (p, tm)) : (afterMultiply s).res = p :=
  afterMultiplier_res (s := afterIterations s 0) rfl h

theorem holdsTrace_afterMultiply (hw : 8 ≤ w) (h : multiply s.a s.b s.m s.n.toNat = some (p, tm)) :
    HoldsTrace (afterMultiply s) tm := by
  obtain ⟨⟨hm, -⟩, -⟩ := multiply_eq_some_iff.1 h
  have hlen := length_multiply_le h
  have hn := deg_lt_width s.m
  have hfit : ([] : List (Record w)).length + tm.length ≤ Config.traceDepth w := by
    rw [List.length_nil, Config.traceDepth]
    omega
  exact holdsTrace_afterMultiplier (s := afterIterations s 0) hw rfl h { holdsTrace_clearTrace s with } hfit

end Commands

section Evaluate

variable {s : Block w} {e : Evaluation w} {ta tb tm : List (Record w)}

/-- The block in which EVALUATE begins to reduce `A` (R138, step S). -/
def segmentA (s : Block w) (e : Evaluation w) : Block w :=
  { clearTrace s with m := e.modulus, wv := s.a, seg := 0, phase := .reda }

/-- The block in which EVALUATE begins to reduce `B` (R138, step XA). -/
def segmentB (s : Block w) (e : Evaluation w) (ta : List (Record w)) : Block w :=
  { afterReducing ta e.aReduced (segmentA s e) with resa := e.aReduced, wv := s.b, seg := 1, phase := .redb }

/-- The block in which EVALUATE begins to multiply (R138, step XB). -/
def segmentM (s : Block w) (e : Evaluation w) (ta tb : List (Record w)) : Block w :=
  { afterReducing tb e.bReduced (segmentB s e ta) with
    resb := e.bReduced, wa := e.aReduced, wb := e.bReduced, acc := 0, seg := 2, phase := .mult }

/-- The block in which EVALUATE has completed. -/
def afterEvaluate (s : Block w) (e : Evaluation w) (ta tb : List (Record w)) : Block w :=
  afterMultiplier (segmentM s e ta tb)

theorem evaluateFirst_of_tests (hlen : s.txtlen.toNat ≤ s.depth)
    (hdecode : decodeText w (textOperand s) = .ok e.modulus) (hm : deg e.modulus = (s.n.toNat : Int)) :
    evaluateFirst s = .next (segmentA s e) := by
  have hn := deg_lt_width e.modulus
  rcases evaluateFirst_cases s with ⟨hbad, -⟩ | ⟨-, hbad, -⟩ | ⟨-, -, f, j, hbad, -⟩ | ⟨-, -, m, hd, hbad, -⟩ |
    ⟨-, -, m, hd, -, hnext⟩
  · omega
  · omega
  · cases hdecode.symm.trans hbad
  · cases hdecode.symm.trans hd
    exact absurd hm hbad
  · cases hdecode.symm.trans hd
    exact hnext

theorem holdsTrace_segmentB (hw : 8 ≤ w) (h : Composes s.a s.b s.n.toNat e ta tb tm) :
    HoldsTrace (segmentB s e ta) ta :=
  { holdsTrace_appendRecords_clearTrace hw s (length_reduce_le_traceDepth h.reduceA) with }

theorem holdsTrace_segmentM (hw : 8 ≤ w) (h : Composes s.a s.b s.n.toNat e ta tb tm) :
    HoldsTrace (segmentM s e ta tb) (ta ++ tb) := by
  have hlen := h.length_le
  have hfit : ta.length + tb.length ≤ Config.traceDepth w := by
    rw [Config.traceDepth]
    omega
  exact { (holdsTrace_segmentB hw h).appendRecords hw hfit with }

theorem holdsTrace_afterEvaluate (hw : 8 ≤ w) (h : Composes s.a s.b s.n.toNat e ta tb tm) :
    HoldsTrace (afterEvaluate s e ta tb) (ta ++ tb ++ tm) := by
  have hlen := h.length_le
  have hfit : (ta ++ tb).length + tm.length ≤ Config.traceDepth w := by
    rw [List.length_append, Config.traceDepth]
    omega
  exact holdsTrace_afterMultiplier hw rfl h.multiply (holdsTrace_segmentM hw h) hfit

theorem afterEvaluate_res (h : Composes s.a s.b s.n.toNat e ta tb tm) : (afterEvaluate s e ta tb).res = e.product :=
  afterMultiplier_res (s := segmentM s e ta tb) rfl h.multiply

/-- EVALUATE runs through its three segments to its end: four steps and one per record (43_evaluate.md section 2). -/
theorem runs_evaluate (hw : 8 ≤ w) (hquiet : s.agenda = []) (hp : s.phase = .start) (hcur : s.cur = 5)
    (hlen : s.txtlen.toNat ≤ s.depth) (hdecode : decodeText w (textOperand s) = .ok e.modulus)
    (h : Composes s.a s.b s.n.toNat e ta tb tm) :
    runs (e.trace.length + 4) (.of s) = .next (.of (afterEvaluate s e ta tb)) := by
  have hfit := h.length_le
  have hcountB := (holdsTrace_segmentB hw h).count
  have hcountM := (holdsTrace_segmentM hw h).count
  obtain ⟨-, -, htm⟩ := multiply_eq_some_iff.1 h.multiply
  have hlenM : tm.length = bitLength e.bReduced := by rw [htm, length_iterationRecords]
  have hfirst := runs_firstStep hw .evaluate hquiet hcur hp (evaluateFirst_of_tests hlen hdecode h.deg_modulus)
  have hloopA := runs_reducer (s := segmentA s e) hw hquiet (.inl rfl) h.reduceA
    (clearTrace_room s (length_reduce_le_traceDepth h.reduceA))
  have hexitA := runs_exitStep (s := afterReducing ta e.aReduced (segmentA s e)) (t := segmentB s e ta) hw .evaluate
    hquiet hcur rfl (deg_lt_of_reduce h.reduceA) rfl
  have hloopB := runs_reducer (s := segmentB s e ta) hw hquiet (.inr rfl) h.reduceB
    (by rw [hcountB, Config.traceDepth]; omega)
  have hexitB : runs 1 (.of (afterReducing tb e.bReduced (segmentB s e ta))) = .next (.of (segmentM s e ta tb)) := by
    rw [runs_one, step_command (s := afterReducing tb e.bReduced (segmentB s e ta)) hw .evaluate hquiet hcur nofun,
      enginePhase_redb_exit rfl (reducing_eq_false (deg_lt_of_reduce h.reduceB))]
    rfl
  have hloopM := runs_multiplier (s := segmentM s e ta tb) hw hquiet rfl
    (by rw [hcountM, List.length_append, Config.traceDepth]; show _ + bitLength e.bReduced ≤ _; omega)
  have hrun := runs_add (runs_add (runs_add (runs_add (runs_add hfirst hloopA) hexitA) hloopB) hexitB) hloopM
  have hsteps : e.trace.length + 4 =
      1 + ta.length + 1 + tb.length + 1 + (bitLength (segmentM s e ta tb).wb + 1) := by
    show _ = 1 + ta.length + 1 + tb.length + 1 + (bitLength e.bReduced + 1)
    rw [h.length_trace]
    omega
  rw [hsteps]
  exact hrun

end Evaluate

/-! ## The statements about EVALUATE -/

/-- A command whose first step is its last. -/
theorem finishes_of_firstStep {v : Word w} {s t : Block w} (hw : 8 ≤ w) (i : Instr)
    (hv : v = BitVec.ofNat w (opcode i).toNat)
    (h : Independence.firstStep (.ok i) (placeCommand v s) = .next t) (ht : t.phase = .idle) : finishes v s t :=
  ⟨1, runs_firstStep hw i rfl hv rfl h, ht⟩

theorem finishes_unique {v : Word w} {s t u : Block w} (hw : 8 ≤ w) (ht : finishes v s t) (hu : finishes v s u) :
    t = u := by
  obtain ⟨_, hrun, hidle⟩ := ht
  obtain ⟨_, hrun', hidle'⟩ := hu
  exact runs_idle_unique hw rfl rfl hrun hidle hrun' hidle'

/-- Settles O45: a run that ends without fault has passed every test, so it ends in `afterEvaluate`, whose product is
the remainder of the carry-less product (`Composes.reduce_clmul`). -/
theorem evaluateIsTheModularProduct : Obligations.EvaluateIsTheModularProduct := by
  intro w s t k hlegal hquiet hp hcur _ hrun hidle herr
  obtain ⟨hw, -⟩ := hlegal
  have hfault : ∀ (f : CommandFault) (info : Word w), evaluateFirst s ≠ .next (raise f info (clearTrace s)) := by
    intro f info hf
    have ht := runs_idle_unique hw hquiet hp hrun hidle (runs_firstStep hw .evaluate hquiet hcur hp hf) rfl
    rw [ht] at herr
    cases herr
  rcases evaluateFirst_cases s with ⟨-, hf⟩ | ⟨-, -, hf⟩ | ⟨-, -, f, j, -, hf⟩ | ⟨-, -, m, -, -, hf⟩ |
    ⟨-, hlen, m, hdecode, hm, -⟩
  · exact absurd hf (hfault _ _)
  · exact absurd hf (hfault _ _)
  · exact absurd hf (hfault _ _)
  · exact absurd hf (hfault _ _)
  · obtain ⟨e, ta, tb, tm, rfl, h⟩ := exists_composes hm s.a s.b
    obtain rfl : t = afterEvaluate s e ta tb :=
      runs_idle_unique hw hquiet hp hrun hidle (runs_evaluate hw hquiet hp hcur hlen hdecode h) rfl
    obtain ⟨_, hproduct⟩ := h.reduce_clmul
    refine ⟨hdecode, ?_, ?_, deg_lt_of_reduce h.reduceA, deg_lt_of_reduce h.reduceB⟩
    · rw [afterEvaluate_res h]
      exact congrArg (Option.map Prod.fst) hproduct
    · rw [afterEvaluate_res h]
      exact deg_lt_of_multiply h.multiply

section Script

variable {s : Block w} {r p m : Word w} {tr tm : List (Record w)}

/-- The block in which DECODE has completed with the value `m`. -/
def afterDecode (s : Block w) (m : Word w) : Block w :=
  complete { s with res := m }

theorem finishes_decode (hw : 8 ≤ w) (hlen : s.txtlen.toNat ≤ s.depth)
    (hdecode : decodeText w (textOperand s) = .ok m) : finishes 2 s (afterDecode (placeCommand 2 s) m) := by
  have htext : decodeText w (textOperand (placeCommand 2 s)) = .ok m := hdecode
  refine finishes_of_firstStep hw .decode rfl ?_ rfl
  rcases decodeFirst_cases (placeCommand 2 s) with ⟨hbad, -⟩ | ⟨-, f, j, hbad, -⟩ | ⟨-, v, hv, hnext⟩
  · exact absurd hlen (not_le.2 hbad)
  · cases htext.symm.trans hbad
  · cases htext.symm.trans hv
    exact hnext

theorem finishes_decode_err (hw : 8 ≤ w) (hlen : s.txtlen.toNat ≤ s.depth) {f : CommandFault} {j : Nat}
    (hdecode : decodeText w (textOperand s) = .err f j) :
    finishes 2 s (raise f (BitVec.ofNat w j) (placeCommand 2 s)) := by
  have htext : decodeText w (textOperand (placeCommand 2 s)) = .err f j := hdecode
  refine finishes_of_firstStep hw .decode rfl ?_ rfl
  rcases decodeFirst_cases (placeCommand 2 s) with ⟨hbad, -⟩ | ⟨-, f', j', hbad, hf⟩ | ⟨-, v, hv, -⟩
  · exact absurd hlen (not_le.2 hbad)
  · cases htext.symm.trans hbad
    exact hf
  · cases htext.symm.trans hv

theorem finishes_reduce (hw : 8 ≤ w) (h : reduce s.a s.m s.n.toNat 0 = some (r, tr)) :
    finishes 3 s (afterReduce (placeCommand 3 s) r tr) :=
  ⟨_, runs_reduce hw rfl rfl rfl h, rfl⟩

theorem finishes_multiply (hw : 8 ≤ w) (h : multiply s.a s.b s.m s.n.toNat = some (p, tm)) :
    finishes 4 s (afterMultiply (placeCommand 4 s)) :=
  ⟨_, runs_multiply_complete hw rfl rfl rfl h, rfl⟩

theorem finishes_reduce_modulusDegree (hw : 8 ≤ w) (hn : s.n.toNat < w) (hm : deg s.m ≠ (s.n.toNat : Int)) :
    finishes 3 s (raise .modulusDegree 0 (clearTrace (placeCommand 3 s))) := by
  refine finishes_of_firstStep hw .reduce rfl ?_ rfl
  rcases reduceFirst_cases (placeCommand 3 s) with ⟨hbad, -⟩ | ⟨-, -, hf⟩ | ⟨-, hbad, -⟩
  · exact absurd hn (not_lt.2 hbad)
  · exact hf
  · exact absurd hbad hm

end Script

/-- The trace `ta ++ tb.map f ++ tm` beside the three traces it is made of, record by record. -/
theorem HoldsTrace.segments {t t2 t3 t4 : Block w} {ta tb tm : List (Record w)} {f : Record w → Record w}
    (h : HoldsTrace t (ta ++ tb.map f ++ tm)) (h2 : HoldsTrace t2 ta) (h3 : HoldsTrace t3 tb) (h4 : HoldsTrace t4 tm) :
    t.trccnt.toNat = t2.trccnt.toNat + t3.trccnt.toNat + t4.trccnt.toNat ∧
    (∀ k : Nat, k < t2.trccnt.toNat → Store.find t.trc k = Store.find t2.trc k) ∧
    (∀ k : Nat, k < t3.trccnt.toNat → Store.find t.trc (t2.trccnt.toNat + k) = (Store.find t3.trc k).map f) ∧
    (∀ k : Nat, k < t4.trccnt.toNat →
      Store.find t.trc (t2.trccnt.toNat + t3.trccnt.toNat + k) = Store.find t4.trc k) := by
  rw [h.count, h2.count, h3.count, h4.count]
  have hmap : (tb.map f).length = tb.length := List.length_map ..
  refine ⟨by simp only [List.length_append, hmap], fun k hk => ?_, fun k hk => ?_, fun k hk => ?_⟩
  · rw [h2.records k hk, h.records k (by simp only [List.length_append]; omega), List.append_assoc,
      List.getElem?_append_left hk]
  · rw [h3.records k hk, h.find_segment (hmap.symm ▸ hk), List.getElem?_map]
  · rw [h4.records k hk, ← hmap, ← List.length_append]
    rw [← List.append_nil (_ ++ tm)] at h
    exact h.find_segment hk

theorem inSegment_one (hw : 8 ≤ w) : inSegment 1 = fun r : Record w => { r with header := 0x05 } := by
  funext r
  rw [inSegment, redHeader_eq_ofNat hw]
  rfl

/-- The block in which the script's first REDUCE has completed, after DECODE and the copy of `RES` to `M`. -/
def scriptReduceA (s : Block w) (e : Evaluation w) (ta : List (Record w)) : Block w :=
  afterReduce (placeCommand 3 { afterDecode (placeCommand 2 s) e.modulus with m := e.modulus }) e.aReduced ta

/-- The block in which the script's second REDUCE has completed, after the copy of `B` to `A`. -/
def scriptReduceB (s : Block w) (e : Evaluation w) (ta tb : List (Record w)) : Block w :=
  afterReduce (placeCommand 3 { scriptReduceA s e ta with a := s.b }) e.bReduced tb

/-- Settles O46: both runs take the branch of `evaluateFirst_cases` that the text and the degree choose; where every
test passes, the last states are `afterEvaluate`, `afterReduce` twice and `afterMultiply`. -/
theorem evaluateEqualsItsCommands : Obligations.EvaluateEqualsItsCommands := by
  intro w s t hlegal _ hn hfin
  obtain ⟨hw, -⟩ := hlegal
  have hend {u : Block w} (h : evaluateFirst (placeCommand 5 s) = .next u) (hu : u.phase = .idle) : t = u :=
    finishes_unique hw hfin (finishes_of_firstStep hw .evaluate rfl h hu)
  rcases evaluateFirst_cases (placeCommand 5 s) with ⟨hbad, -⟩ | ⟨-, hlen, hf⟩ | ⟨-, hlen, f, j, hdecode, hf⟩ |
    ⟨-, hlen, m, hdecode, hm, hf⟩ | ⟨-, hlen, m, hdecode, hm, -⟩
  · exact absurd hn (not_lt.2 hbad)
  · obtain rfl := hend hf rfl
    exact ⟨raise .textLength 0 (placeCommand 2 s), finishes_of_firstStep hw .decode rfl (if_pos hlen) rfl,
      fun _ => ⟨rfl, rfl⟩, nofun⟩
  · obtain rfl := hend hf rfl
    exact ⟨raise f (BitVec.ofNat w j) (placeCommand 2 s), finishes_decode_err hw hlen hdecode,
      fun _ => ⟨rfl, rfl⟩, nofun⟩
  · obtain rfl := hend hf rfl
    exact ⟨afterDecode (placeCommand 2 s) m, finishes_decode hw hlen hdecode, nofun, fun _ =>
      ⟨_, finishes_reduce_modulusDegree hw hn hm, fun _ => ⟨rfl, rfl⟩, nofun⟩⟩
  · obtain ⟨e, ta, tb', tm, rfl, h⟩ := exists_composes hm s.a s.b
    obtain rfl : t = afterEvaluate (placeCommand 5 s) e ta tb' :=
      finishes_unique hw hfin ⟨_, runs_evaluate hw rfl rfl rfl hlen hdecode h, rfl⟩
    obtain ⟨rb, tb, hb⟩ := exists_reduce_eq hm s.b 0
    obtain ⟨rfl, rfl⟩ := Prod.mk.inj (Option.some.inj (h.reduceB.symm.trans (reduce_inSegment 1 hb)))
    have hA : finishes 3 { afterDecode (placeCommand 2 s) e.modulus with m := e.modulus } (scriptReduceA s e ta) :=
      finishes_reduce hw h.reduceA
    have hB : finishes 3 { scriptReduceA s e ta with a := s.b } (scriptReduceB s e ta tb) := finishes_reduce hw hb
    refine ⟨_, finishes_decode hw hlen hdecode, nofun, fun _ => ⟨_, hA, nofun, fun _ => ⟨_, _, hB, rfl,
      finishes_multiply hw h.multiply, rfl, rfl, rfl, rfl, rfl, ?_, ?_⟩⟩⟩
    · exact (afterEvaluate_res (s := placeCommand 5 s) h).trans (afterMultiply_res h.multiply).symm
    · rw [← inSegment_one hw]
      exact (holdsTrace_afterEvaluate hw h).segments (holdsTrace_afterReduce hw h.reduceA)
        (holdsTrace_afterReduce hw hb) (holdsTrace_afterMultiply hw h.multiply)

end Sys2Proof.Machine

/-! # The faults (60_exceptions.md R145 to R155)

`FaultRule s d f info` says, rule by rule, when a command's first step finds the fault `f`. A first step takes exactly
these faults (`firstStep_of_faultRule`, `firstStep_effect`), and no later step takes any (`enginePhase_err`); the statements
read the rules off. -/

namespace Sys2Proof.Machine

open Sys2Proof.Safety Sys2Proof.Independence

variable {w : Nat}

/-! ## The tests of a first step, failing -/

theorem degreeInRange_eq_false_iff (n : BitVec w) : degreeInRange n = false ↔ w ≤ n.toNat := by
  rw [← Bool.not_eq_true, degreeInRange_iff, Nat.not_lt]

theorem modulusOk_eq_false_iff (m : BitVec w) (n : Nat) : modulusOk m n = false ↔ deg m ≠ (n : Int) := by
  rw [← Bool.not_eq_true, modulusOk_iff]

theorem canonical_eq_true_iff_deg (v : BitVec w) (n : Nat) : canonical v n = true ↔ deg v < (n : Int) :=
  decide_eq_true_iff

theorem canonical_eq_false_iff_deg (v : BitVec w) (n : Nat) : canonical v n = false ↔ (n : Int) ≤ deg v := by
  rw [← Bool.not_eq_true, canonical_eq_true_iff_deg, not_lt]

/-! ## The fault that `decode` returns (R155) -/

/-- The faults that R96 gives to a term. -/
abbrev IsTextFault (f : CommandFault) : Prop :=
  f = .malformedTerm ∨ f = .malformedExponent ∨ f = .exponentRange

theorem isTextFault_of_classify {u : List Byte} {f : CommandFault} (h : classify w u = .bad f) : IsTextFault f := by
  by_cases hone : u = [chOne]
  · subst hone; cases h
  by_cases hx : u = [chX]
  · subst hx; cases h
  by_cases hcaret : ∃ d, u = chX :: chCaret :: d
  · obtain ⟨d, rfl⟩ := hcaret
    rw [classify_caret] at h
    split_ifs at h <;> cases h
    · exact .inr (.inl rfl)
    · exact .inr (.inr rfl)
  · cases (classify_of_no_shape w hone hx (not_exists.1 hcaret)).symm.trans h
    exact .inl rfl

/-- `decode` returns no fault but the three of the text. -/
theorem isTextFault_of_decodeText {t : List Byte} {f : CommandFault} {j : Nat} (h : decodeText w t = .err f j) :
    IsTextFault f := by
  obtain ⟨⟨u, -, hbad⟩, -⟩ := decodeText_eq_err_iff.1 h
  exact isTextFault_of_classify hbad

/-- There is one term more than there are `+` characters. -/
theorem index_le_of_decodeText {t : List Byte} {f : CommandFault} {j : Nat} (h : decodeText w t = .err f j) :
    j ≤ (stripSpace t).count chPlus := by
  obtain ⟨⟨u, hu, -⟩, -⟩ := decodeText_eq_err_iff.1 h
  obtain ⟨hj, -⟩ := List.getElem?_eq_some_iff.1 hu
  rw [length_splitTerms] at hj
  omega

/-- The index of a term fits in `ERRINFO`: it is at most the length of the text, which `TXTLEN` holds. -/
theorem toNat_ofNat_index {s : Block w} {f : CommandFault} {j : Nat} (h : decodeText w (textOperand s) = .err f j) :
    (BitVec.ofNat w j).toNat = j := by
  have hlen : (stripSpace (textOperand s)).length ≤ s.txtlen.toNat :=
    (List.length_filter_le _ _).trans (by simp [textOperand])
  have hcount : (stripSpace (textOperand s)).count chPlus ≤ (stripSpace (textOperand s)).length := List.count_le_length
  have hj := index_le_of_decodeText h
  have htxtlen := s.txtlen.isLt
  rw [BitVec.toNat_ofNat, Nat.mod_eq_of_lt (by omega)]

/-! ## The rules -/

/-- The different faults have different codes (Table X-1). -/
theorem faultCode_injective {f g : CommandFault} (h : faultCode f = faultCode g) : f = g := by
  revert h
  cases f <;> cases g <;> decide

/-- The commands that reach the test of `TXTLEN` (R152): EVALUATE tests `N` first. -/
def ReadsText (s : Block w) (i : Instr) : Prop :=
  i = .decode ∨ i = .evaluate ∧ s.n.toNat < w

/-- When the first step of a latched word finds a fault, which one, and what goes to `ERRINFO` (R150 to R155). -/
inductive FaultRule (s : Block w) : Except IllegalWord Instr → CommandFault → Word w → Prop
  /-- R150. -/
  | illegalCommand (e : IllegalWord) : FaultRule s (.error e) .illegalCommand 0
  /-- R151. -/
  | degreeRange {i : Instr} (command : i = .reduce ∨ i = .multiply ∨ i = .evaluate) (range : w ≤ s.n.toNat) :
    FaultRule s (.ok i) .degreeRange 0
  /-- R152. -/
  | textLength {i : Instr} (command : ReadsText s i) (length : s.depth < s.txtlen.toNat) :
    FaultRule s (.ok i) .textLength 0
  /-- R155. -/
  | text {i : Instr} {f : CommandFault} {j : Nat} (command : ReadsText s i) (length : s.txtlen.toNat ≤ s.depth)
    (decoded : decodeText w (textOperand s) = .err f j) : FaultRule s (.ok i) f (BitVec.ofNat w j)
  /-- R153, the modulus in `M`. -/
  | modulusDegree {i : Instr} (command : i = .reduce ∨ i = .multiply) (range : s.n.toNat < w)
    (degree : deg s.m ≠ (s.n.toNat : Int)) : FaultRule s (.ok i) .modulusDegree 0
  /-- R153, the decoded modulus. -/
  | decodedDegree {m : Word w} (range : s.n.toNat < w) (length : s.txtlen.toNat ≤ s.depth)
    (decoded : decodeText w (textOperand s) = .ok m) (degree : deg m ≠ (s.n.toNat : Int)) :
    FaultRule s (.ok .evaluate) .modulusDegree 0
  /-- R154, the operand `A`. -/
  | nonCanonicalA (range : s.n.toNat < w) (degree : deg s.m = (s.n.toNat : Int)) (operand : (s.n.toNat : Int) ≤ deg s.a) :
    FaultRule s (.ok .multiply) .nonCanonical 0
  /-- R154, the operand `B` alone. -/
  | nonCanonicalB (range : s.n.toNat < w) (degree : deg s.m = (s.n.toNat : Int)) (operandA : deg s.a < (s.n.toNat : Int))
    (operand : (s.n.toNat : Int) ≤ deg s.b) : FaultRule s (.ok .multiply) .nonCanonical 1

/-- The words whose first step clears `TRCCNT` before any test (10_state.md R30). -/
def clearsTrace (d : Except IllegalWord Instr) : Bool :=
  match d with
  | .ok .reduce | .ok .multiply | .ok .evaluate => true
  | .ok .encode | .ok .decode | .error _ => false

theorem clearsTrace_decodeWord_iff (hw : 8 ≤ w) (v : Word w) :
    clearsTrace (decodeWord v) = true ↔ v = 3 ∨ v = 4 ∨ v = 5 := by
  have hword (i : Instr) : decodeWord v = .ok i ↔ v = BitVec.ofNat w (opcode i).toNat := by
    rw [← encodeWord_eq_ofNat]
    exact ⟨eq_encodeWord_of_decodeWord, fun h => h ▸ decodeWord_encodeWord hw i⟩
  calc clearsTrace (decodeWord v) = true
    _ ↔ decodeWord v = .ok .reduce ∨ decodeWord v = .ok .multiply ∨ decodeWord v = .ok .evaluate := by
      rcases decodeWord v with e | i
      · simp [clearsTrace]
      · cases i <;> simp [clearsTrace]
    _ ↔ v = 3 ∨ v = 4 ∨ v = 5 := by rw [hword, hword, hword]; rfl

/-- What the first step under a latched word leaves behind before it tests anything. -/
def beforeTests (d : Except IllegalWord Instr) (s : Block w) : Block w :=
  { s with trccnt := if clearsTrace d then 0 else s.trccnt }

@[simp] theorem beforeTests_decode (s : Block w) : beforeTests (.ok .decode) s = s := rfl
@[simp] theorem beforeTests_reduce (s : Block w) : beforeTests (.ok .reduce) s = clearTrace s := rfl
@[simp] theorem beforeTests_multiply (s : Block w) : beforeTests (.ok .multiply) s = clearTrace s := rfl
@[simp] theorem beforeTests_evaluate (s : Block w) : beforeTests (.ok .evaluate) s = clearTrace s := rfl

section FirstStep

variable {s t : Block w} {d : Except IllegalWord Instr} {i : Instr} {f : CommandFault} {info : Word w}

/-- A first step takes the fault that its rule names, and that is all it does. -/
theorem firstStep_of_faultRule (h : FaultRule s d f info) : firstStep d s = .next (raise f info (beforeTests d s)) := by
  cases h with
  | illegalCommand e => rfl
  | degreeRange hi hn =>
    have hn' := (degreeInRange_eq_false_iff _).2 hn
    rcases hi with rfl | rfl | rfl
    · simp [firstStep, reduceFirst, hn']
    · simp [firstStep, multiplyFirst, hn']
    · simp [firstStep, evaluateFirst, hn']
  | textLength hi hl =>
    rcases hi with rfl | ⟨rfl, hn⟩
    · simp [firstStep, decodeFirst, hl]
    · simp [firstStep, evaluateFirst, (degreeInRange_iff _).2 hn, hl]
  | text hi hl hd =>
    have hl' := not_lt.2 hl
    rcases hi with rfl | ⟨rfl, hn⟩
    · simp [firstStep, decodeFirst, hl', hd]
    · simp [firstStep, evaluateFirst, (degreeInRange_iff _).2 hn, hl', hd]
  | modulusDegree hi hn hm =>
    have hn' := (degreeInRange_iff _).2 hn
    have hm' := (modulusOk_eq_false_iff _ _).2 hm
    rcases hi with rfl | rfl
    · simp [firstStep, reduceFirst, hn', hm']
    · simp [firstStep, multiplyFirst, hn', hm']
  | decodedDegree hn hl hd hm =>
    have hm' := (modulusOk_eq_false_iff _ _).2 hm
    simp [firstStep, evaluateFirst, (degreeInRange_iff _).2 hn, not_lt.2 hl, hd, hm']
  | nonCanonicalA hn hm ha =>
    have ha' := (canonical_eq_false_iff_deg _ _).2 ha
    simp [firstStep, multiplyFirst, (degreeInRange_iff _).2 hn, (modulusOk_iff _ _).2 hm, ha']
  | nonCanonicalB hn hm ha hb =>
    have ha' := (canonical_eq_true_iff_deg _ _).2 ha
    have hb' := (canonical_eq_false_iff_deg _ _).2 hb
    simp [firstStep, multiplyFirst, (degreeInRange_iff _).2 hn, (modulusOk_iff _ _).2 hm, ha', hb']

/-- What a first step can do about faults: take one by a rule, or leave `ERR` and `ERRCODE` as they were. -/
inductive FirstEffect (s t : Block w) (d : Except IllegalWord Instr) : Prop where
  /-- The step takes the fault of a rule. -/
  | faults {f : CommandFault} {info : Word w} (rule : FaultRule s d f info) (next : t = raise f info (beforeTests d s))
  /-- Every test passes. -/
  | passes (err : t.status.err = s.status.err) (errcode : t.status.errcode = s.status.errcode)

/-- A first step takes no fault but by a rule (R150 to R155). -/
theorem firstStep_effect (h : firstStep d s = .next t) : FirstEffect s t d := by
  rcases d with e | i
  · cases h
    exact .faults (.illegalCommand e) rfl
  cases i with
  | encode =>
    cases h
    exact .passes rfl rfl
  | decode =>
    rcases decodeFirst_cases s with ⟨hl, ht⟩ | ⟨hl, f, j, hd, ht⟩ | ⟨-, v, -, ht⟩ <;> cases ht.symm.trans h
    · exact .faults (.textLength (.inl rfl) hl) rfl
    · exact .faults (.text (.inl rfl) hl hd) rfl
    · exact .passes rfl rfl
  | reduce =>
    rcases reduceFirst_cases s with ⟨hn, ht⟩ | ⟨hn, hm, ht⟩ | ⟨-, -, ht⟩ <;> cases ht.symm.trans h
    · exact .faults (.degreeRange (.inl rfl) hn) rfl
    · exact .faults (.modulusDegree (.inl rfl) hn hm) rfl
    · exact .passes rfl rfl
  | multiply =>
    rcases multiplyFirst_cases s with ⟨hn, ht⟩ | ⟨hn, hm, ht⟩ | ⟨hn, hm, ha, ht⟩ | ⟨hn, hm, ha, hb, ht⟩ |
      ⟨-, -, -, -, ht⟩ <;> cases ht.symm.trans h
    · exact .faults (.degreeRange (.inr (.inl rfl)) hn) rfl
    · exact .faults (.modulusDegree (.inr rfl) hn hm) rfl
    · exact .faults (.nonCanonicalA hn hm ha) rfl
    · exact .faults (.nonCanonicalB hn hm ha hb) rfl
    · exact .passes rfl rfl
  | evaluate =>
    rcases evaluateFirst_cases s with ⟨hn, ht⟩ | ⟨hn, hl, ht⟩ | ⟨hn, hl, f, j, hd, ht⟩ | ⟨hn, hl, m, hd, hm, ht⟩ |
      ⟨-, -, m, -, -, ht⟩ <;> cases ht.symm.trans h
    · exact .faults (.degreeRange (.inr (.inr rfl)) hn) rfl
    · exact .faults (.textLength (.inr ⟨rfl, hn⟩) hl) rfl
    · exact .faults (.text (.inr ⟨rfl, hn⟩) hl hd) rfl
    · exact .faults (.decodedDegree hn hl hd hm) rfl
    · exact .passes rfl rfl

/-! ## What each fault says of its rule -/

/-- The rule of `DegreeRange` is the only one with that fault: a text gives only text faults. -/
theorem FaultRule.range_of_degreeRange (h : FaultRule s d .degreeRange info) : w ≤ s.n.toNat := by
  cases h with
  | degreeRange _ hn => exact hn
  | text _ _ hd => exact absurd (isTextFault_of_decodeText hd) (by decide)

theorem FaultRule.length_of_textLength (h : FaultRule s d .textLength info) : s.depth < s.txtlen.toNat := by
  cases h with
  | textLength _ hl => exact hl
  | text _ _ hd => exact absurd (isTextFault_of_decodeText hd) (by decide)

theorem FaultRule.multiply_of_nonCanonical (h : FaultRule s (.ok i) .nonCanonical info) : i = .multiply := by
  cases h with
  | text _ _ hd => exact absurd (isTextFault_of_decodeText hd) (by decide)
  | nonCanonicalA => rfl
  | nonCanonicalB => rfl

/-- A text fault comes from the rule of the text. -/
theorem FaultRule.text_of_textFault (h : FaultRule s (.ok i) f info) (hf : IsTextFault f) :
    ReadsText s i ∧ ∃ j : Nat, decodeText w (textOperand s) = .err f j ∧ info.toNat = j := by
  cases h with
  | text hi _ hd => exact ⟨hi, _, hd, toNat_ofNat_index hd⟩
  | degreeRange | textLength | modulusDegree | decodedDegree | nonCanonicalA | nonCanonicalB => exact absurd hf (by decide)

/-! ## The command's meaning in START -/

theorem exec_start (hp : s.phase = .start) (i : Instr) : exec i (.of s) = State.lift (firstStep (.ok i) s) := by
  cases i <;> exact congrArg State.lift (enginePhase_start hp)

theorem exec_of_faultRule (hp : s.phase = .start) (h : FaultRule s (.ok i) f info) :
    exec i (.of s) = .next (.of (raise f info (beforeTests (.ok i) s))) := by
  rw [exec_start hp, firstStep_of_faultRule h, State.lift_next]

/-- Where START has `ERRCODE` 0, the code of a fault afterwards is there by a rule of that fault. -/
theorem faultRule_of_errcode (hp : s.phase = .start) (hcode : s.status.errcode = 0) (h : exec i (.of s) = .next (.of t))
    (hf : t.status.errcode = faultCode f) : FaultRule s (.ok i) f t.errinfo := by
  rw [exec_start hp, State.lift_eq_next_of] at h
  cases firstStep_effect h with
  | passes _ hsame => exact absurd (hf.symm.trans (hsame.trans hcode)) (faultCode_ne_zero f)
  | @faults g info rule ht =>
    subst ht
    obtain rfl : g = f := faultCode_injective hf
    exact rule

end FirstStep

/-! ## The statements about the single faults -/

/-- Settles O9: the rule of R151, and no other rule has its fault. -/
theorem degreeRangeFaults : Obligations.DegreeRangeFaults := by
  refine ⟨fun w s i _ hp hn hi => ?_, fun w s t i _ hp hcode hn h h2 => ?_⟩
  · have h := exec_of_faultRule hp (.degreeRange hi hn)
    rcases hi with rfl | rfl | rfl <;> exact h
  · have rule : FaultRule s (.ok i) .degreeRange t.errinfo := faultRule_of_errcode hp hcode h h2
    exact absurd rule.range_of_degreeRange (not_le.2 hn)

theorem decodeText_nil (w : Nat) : decodeText w [] = .err .malformedTerm 0 := rfl

/-- Settles O10: the rule of R152; the empty text is one empty term, which is malformed. -/
theorem textLengthFaults : Obligations.TextLengthFaults := by
  refine ⟨fun w s _ hp hl => ?_, fun w s t i _ hp hcode hl h h3 => ?_, fun w s _ hp h0 => ?_⟩
  · exact ⟨exec_of_faultRule hp (.textLength (.inl rfl) hl),
      fun hn => exec_of_faultRule hp (.textLength (.inr ⟨rfl, hn⟩) hl)⟩
  · have rule : FaultRule s (.ok i) .textLength t.errinfo := faultRule_of_errcode hp hcode h h3
    exact absurd rule.length_of_textLength (not_lt.2 hl)
  · have hd : decodeText w (textOperand s) = .err .malformedTerm 0 := by simp [textOperand, h0, decodeText_nil]
    exact exec_of_faultRule hp (.text (.inl rfl) (by simp [h0]) hd)

/-- Settles O11: the two rules of R153; `M = 0` has degree -1. -/
theorem modulusDegreeFaults : Obligations.ModulusDegreeFaults := by
  refine fun w s _ hp hn => ⟨fun i hi hm => ?_, fun m hl hd hm => exec_of_faultRule hp (.decodedDegree hn hl hd hm)⟩
  have hdeg : deg s.m ≠ (s.n.toNat : Int) := hm.elim id fun h0 => by
    have := deg_zero_lt (w := w) s.n.toNat
    rw [h0]
    omega
  have h := exec_of_faultRule hp (.modulusDegree hi hn hdeg)
  rcases hi with rfl | rfl <;> exact h

/-- Settles O12: the two rules of R154, the operand `A` before `B`. -/
theorem nonCanonicalFaults : Obligations.NonCanonicalFaults := by
  refine ⟨fun w s _ hp hn hm hab => ?_, fun w n => deg_zero_lt n, fun w s t i _ hi hp hcode h h8 => ?_⟩
  · by_cases ha : (s.n.toNat : Int) ≤ deg s.a
    · rw [if_pos ha]
      exact exec_of_faultRule hp (.nonCanonicalA hn hm ha)
    · rw [if_neg ha]
      exact exec_of_faultRule hp (.nonCanonicalB hn hm (not_le.1 ha) (hab.resolve_left ha))
  · have rule : FaultRule s (.ok i) .nonCanonical t.errinfo := faultRule_of_errcode hp hcode h h8
    cases rule.multiply_of_nonCanonical
    simp at hi

/-- Settles O13: the rule of the text is the only one with a text fault, and an index fits in `ERRINFO`. -/
theorem textFaultsReportTheTerm : Obligations.TextFaultsReportTheTerm := by
  refine ⟨fun w s f j _ hp hl hd => ?_, fun w s t i _ hp hcode h hf => ?_, ⟨rfl, rfl, rfl⟩, fun w => ⟨rfl, rfl⟩⟩
  · exact ⟨exec_of_faultRule hp (.text (.inl rfl) hl hd), fun hn => exec_of_faultRule hp (.text (.inr ⟨rfl, hn⟩) hl hd),
      toNat_ofNat_index hd, index_le_of_decodeText hd, isTextFault_of_decodeText hd⟩
  · have hrule : ∃ f, IsTextFault f ∧ t.status.errcode = faultCode f := by
      rcases hf with h4 | h5 | h6
      · exact ⟨_, .inl rfl, h4⟩
      · exact ⟨_, .inr (.inl rfl), h5⟩
      · exact ⟨_, .inr (.inr rfl), h6⟩
    obtain ⟨f, htext, hf⟩ := hrule
    obtain ⟨hi, j, hd, hj⟩ := (faultRule_of_errcode hp hcode h hf).text_of_textFault htext
    exact ⟨hi.imp_right And.left, f, j, hd, hf, hj⟩

/-! ## A fault is found in a first step (R145) -/

section Precise

variable {s t : Block w}

/-- An old fault stands only while nothing runs (10_state.md R33). -/
theorem idle_of_err (h : StatusConsistent s) (herr : s.status.err = true) : s.phase = .idle := by
  by_contra hp
  obtain ⟨-, hclear, -⟩ := h.busy_clear (h.busy_iff.2 hp)
  cases herr.symm.trans hclear

theorem exitStep_err {d : Except IllegalWord Instr} (h : exitStep d s = .next t) : t.status.err = s.status.err := by
  rcases d with e | i
  · cases h
  · cases i with
    | encode | decode | multiply => cases h
    | reduce | evaluate => cases h; rfl

/-- No step but a first one finds a fault. -/
theorem enginePhase_err {d d' : Except IllegalWord Instr} (hp : s.phase ≠ .start)
    (h : enginePhase (firstStep d) (exitStep d') s = .next t) : t.status.err = s.status.err := by
  rcases enginePhase_cases h with ⟨hstart, -⟩ | ⟨-, -, h⟩ | ⟨-, -, h⟩ | ⟨-, -, h⟩ | ⟨-, -, h⟩ | ⟨-, -, h⟩
  · exact absurd hstart hp
  · obtain ⟨-, rfl⟩ := redIteration_cases h
    rfl
  · exact exitStep_err h
  · cases h; rfl
  · obtain ⟨-, rfl⟩ := mulIteration_cases h
    rfl
  · cases h; rfl

/-- A fault that the engine's turn leaves recorded in a running state was found in START, by a rule. -/
theorem faultRule_of_engineTurn (hs : StatusConsistent s) (hp : s.phase ≠ .idle)
    (h : engineTurn (.of s) = .next (.of t)) (herr : t.status.err = true) :
    s.phase = .start ∧ ∃ f info, FaultRule s (decodeWord s.cur) f info ∧
      t = raise f info (beforeTests (decodeWord s.cur) s) := by
  rw [engineTurn_eq_lift hp, State.lift_eq_next_of] at h
  have hold : t.status.err ≠ s.status.err := fun heq => hp (idle_of_err hs (heq.symm.trans herr))
  by_cases hstart : s.phase = .start
  · rw [enginePhase_start hstart] at h
    cases firstStep_effect h with
    | faults rule ht => exact ⟨hstart, _, _, rule, ht⟩
    | passes heq _ => exact absurd heq hold
  · exact absurd (enginePhase_err hstart h) hold

/-- `STATUS`, `ERRINFO` and `PHASE` stay. -/
structure KeepsControl (s t : Block w) : Prop where
  status : t.status = s.status
  errinfo : t.errinfo = s.errinfo
  phase : t.phase = s.phase

theorem hostRead_keepsControl (addr : Addr) (s : Block w) : KeepsControl s (hostRead addr s) := by
  rcases hostRead_cases addr s with ⟨v, -, hr⟩ | ⟨-, hr⟩ <;> rw [hr] <;> exact ⟨rfl, rfl, rfl⟩

theorem pollStatus_keepsControl (s : Block w) : KeepsControl s (pollStatus s) := by
  obtain ⟨hstatus, herrinfo, hphase⟩ := hostRead_keepsControl (addrOf .status) s
  unfold pollStatus
  split <;> exact ⟨hstatus, herrinfo, hphase⟩

/-- A write that is not accepted as a command touches none of the three registers; an accepted one clears `ERR`. -/
theorem hostWrite_keepsControl (addr : Addr) (v : Word w) (s : Block w)
    (herr : (hostWrite addr v s).status.err = true) : KeepsControl s (hostWrite addr v s) := by
  cases hb : s.status.busy with
  | true => rw [hostWrite_busy hb]; exact ⟨rfl, rfl, rfl⟩
  | false =>
    rw [hostWrite_idle hb] at herr ⊢
    rcases writeIdle_cases (placeAt w s.depth addr) v s with ⟨-, hw⟩ | ⟨-, hw⟩ | ⟨-, hw⟩ | ⟨-, hw⟩ | ⟨-, hw⟩ | ⟨-, hw⟩ |
      ⟨i, -, hw⟩ | hw <;> rw [hw] at herr ⊢
    · cases herr
    all_goals exact ⟨rfl, rfl, rfl⟩

/-- No event of the host records a fault: one that stands afterwards is as it was. -/
theorem perform_keepsControl {e : Event w} (he : e ≠ .engine) (h : perform e s = .next (.of t))
    (herr : t.status.err = true) : KeepsControl s t := by
  cases e with
  | read addr => cases h; exact hostRead_keepsControl addr s
  | write addr v => cases h; exact hostWrite_keepsControl addr v s herr
  | reset => cases h; cases herr
  | engine => exact absurd rfl he
  | poll => cases h; exact pollStatus_keepsControl s

end Precise

/-- Settles O15: the host keeps a fault as it was or clears it, and the engine finds one in a first step only. -/
theorem faultsArePrecise : Obligations.FaultsArePrecise := by
  intro w s t e ⟨hw, _⟩ hs h herr
  by_cases he : e = .engine
  · subst he
    by_cases hp : s.phase = .idle
    · cases (engineTurn_idle (s := .of s) hp).symm.trans h
      exact .inl ⟨hp, hp, rfl, rfl⟩
    · obtain ⟨hstart, f, info, -, rfl⟩ := faultRule_of_engineTurn hs hp h herr
      refine .inr ⟨rfl, hstart, f, info, ?_⟩
      simp only [raise, beforeTests, clearsTrace_decodeWord_iff hw]
  · obtain ⟨hstatus, herrinfo, hphase⟩ := perform_keepsControl he h herr
    have hp := idle_of_err hs (hstatus ▸ herr)
    exact .inl ⟨hp, hphase.trans hp, hstatus, herrinfo⟩

end Sys2Proof.Machine

/-! # The steps of the commands (40_codec.md R93, R99; 41_reducer.md R114; 42_multiplier.md R124; 43_evaluate.md R138)

`exec` is the phase step of its command (`exec_eq_enginePhase`), so in each phase it is one of the shared steps; the
statements about single steps are read off the equations of those. -/

namespace Sys2Proof.Machine

open Sys2Proof.Safety Sys2Proof.Independence

variable {w : Nat} {s : Block w}

/-! ## The command's meaning in each phase -/

theorem exec_eq_enginePhase (i : Instr) (s : Block w) :
    exec i (.of s) = State.lift (enginePhase (firstStep (.ok i)) (exitStep (.ok i)) s) := by
  cases i <;> rfl

theorem exec_reducing (i : Instr) (hp : s.phase = .reda ∨ s.phase = .redb) (hv : (s.n.toNat : Int) ≤ deg s.wv) :
    exec i (.of s) = State.lift (redIteration s) := by
  have hr := (reducing_iff s).2 hv
  rw [exec_eq_enginePhase]
  rcases hp with hp | hp
  · rw [enginePhase_reda_iter hp hr]
  · rw [enginePhase_redb_iter hp hr]

theorem exec_reda_exit (i : Instr) (hp : s.phase = .reda) (hv : deg s.wv < (s.n.toNat : Int)) :
    exec i (.of s) = State.lift (exitStep (.ok i) s) := by
  rw [exec_eq_enginePhase, enginePhase_reda_exit hp (reducing_eq_false hv)]

theorem exec_redb_exit (i : Instr) (hp : s.phase = .redb) (hv : deg s.wv < (s.n.toNat : Int)) :
    exec i (.of s) = State.lift (evaluateExitB s) := by
  rw [exec_eq_enginePhase, enginePhase_redb_exit hp (reducing_eq_false hv)]

theorem exec_multiplying (i : Instr) (hp : s.phase = .mult) (hb : s.wb ≠ 0) :
    exec i (.of s) = State.lift (mulIteration s) := by
  rw [exec_eq_enginePhase, enginePhase_mult_iter hp hb]

theorem exec_mult_exit (i : Instr) (hp : s.phase = .mult) (hb : s.wb = 0) :
    exec i (.of s) = State.lift (mulExit s) := by
  rw [exec_eq_enginePhase, enginePhase_mult_exit hp hb]

/-! ## The first steps when every test passes -/

theorem reduceFirst_of_tests (hm : deg s.m = (s.n.toNat : Int)) :
    reduceFirst s = .next { clearTrace s with wv := s.a, seg := 0, phase := .reda } := by
  have hn := deg_lt_width s.m
  rcases reduceFirst_cases s with ⟨hbad, -⟩ | ⟨-, hbad, -⟩ | ⟨-, -, hnext⟩
  · omega
  · exact absurd hm hbad
  · exact hnext

theorem decodeFirst_of_tests (hlen : s.txtlen.toNat ≤ s.depth) {v : Word w}
    (hd : decodeText w (textOperand s) = .ok v) : decodeFirst s = .next (complete { s with res := v }) := by
  rcases decodeFirst_cases s with ⟨hbad, -⟩ | ⟨-, f, j, hbad, -⟩ | ⟨-, v', hd', hnext⟩
  · omega
  · cases hd.symm.trans hbad
  · cases hd.symm.trans hd'
    exact hnext

/-- Settles O7: what the three first steps load when every test passes. -/
theorem arithmeticCommandsStart : Obligations.ArithmeticCommandsStart := by
  intro w s _ hp _
  simp only [exec_start hp]
  refine ⟨fun hm => ?_, fun hm ha hb => ?_, fun m hlen hd hm => ?_⟩
  · exact congrArg State.lift (reduceFirst_of_tests hm)
  · exact congrArg State.lift (multiplyFirst_of_domain hm ha hb)
  · exact congrArg State.lift (evaluateFirst_of_tests (e := ⟨0, 0, 0, m, []⟩) hlen hd hm)

/-! ## ENCODE and DECODE -/

theorem one_le_length_encodeText (v : BitVec w) : 1 ≤ (encodeText v).length := by
  by_cases hv : v = 0
  · rw [hv, encodeText_zero, List.length_singleton]
  · refine List.length_pos_iff.2 fun hnil => ?_
    have hround := decodeText_encodeText hv
    rw [hnil, decodeText_nil] at hround
    cases hround

/-- The longest text of ENCODE fits in the buffer, and its length in a word (00_scope.md R7). -/
theorem encMax_le_of_legal {depth : Nat} (h : Config.legal w depth) : Config.encMax w ≤ depth ∧ depth < 2 ^ w := by
  obtain ⟨-, -, henc, hdepth⟩ := h
  have hpos := Nat.two_pow_pos w
  exact ⟨henc, by omega⟩

/-- Settles O16: the step of ENCODE completes for every `A`, and `Memory.read_writeText` says which cells it writes. -/
theorem encodeCompletes : Obligations.EncodeCompletes := by
  intro w s hlegal hp
  have hlen := length_encodeText_le (by have := hlegal.1; omega) s.a
  obtain ⟨henc, hdepth⟩ := encMax_le_of_legal hlegal
  refine ⟨exec_start hp .encode, one_le_length_encodeText s.a, hlen, henc, ?_, fun i hi => ?_, fun i hi => ?_⟩
  · rw [BitVec.toNat_ofNat, Nat.mod_eq_of_lt (by omega)]
  · rw [Memory.read_writeText, if_pos (by omega), Nat.sub_zero]
  · rw [Memory.read_writeText, if_neg (by omega)]

/-- Settles O22: the step of DECODE on a text that decodes, and the text as the first `TXTLEN` cells. -/
theorem decodeCompletes : Obligations.DecodeCompletes := by
  refine fun w s _ => ⟨fun v hp hlen hd => ?_, by simp [textOperand], fun i c hi hc => ?_⟩
  · exact (exec_start hp .decode).trans (congrArg State.lift (decodeFirst_of_tests hlen hd))
  · simp [textOperand, textByte, hi, hc]

/-! ## The domain of `reduce` (41_reducer.md sections 1 and 3) -/

/-- Settles O26: `reduce` has a value exactly on its domain, where its loop ends with a canonical value. -/
theorem reduceReturnsACanonicalValue : Obligations.ReduceReturnsACanonicalValue := by
  refine fun w v m n seg => ⟨⟨fun h => ?_, fun hm => ?_⟩, fun r tr h => deg_lt_of_reduce h, deg_lt_iff v n,
    fun hm hv => reduce_of_lt hm hv⟩
  · obtain ⟨⟨r, tr⟩, h⟩ := Option.isSome_iff_exists.1 h
    exact deg_modulus_of_reduce h
  · obtain ⟨r, tr, h⟩ := exists_reduce_eq hm v seg
    rw [h, Option.isSome_some]

/-! ## The loops and their exits -/

/-- Settles O29: an iteration is `redIteration`, which appends its record at `TRCCNT`. -/
theorem reducerIterationAppendsItsRecord : Obligations.ReducerIterationAppendsItsRecord := by
  intro w s i ⟨hw, _⟩ _ hp hv hroom
  refine ⟨_, (exec_reducing i hp hv).trans (congrArg State.lift (redIteration_eq hroom)), rfl, ?_, ?_, fun k hk => ?_⟩
  · exact trccnt_succ hw hroom
  · exact Store.find_insert_self _ _ _
  · exact Store.find_insert_of_ne _ hk.symm _

/-- Settles O30: the exit of REDA under REDUCE. -/
theorem reduceCompletes : Obligations.ReduceCompletes :=
  fun _ _ _ hp hv => exec_reda_exit .reduce hp hv

/-- Settles O38: an iteration is `mulIteration`, which appends its record at `TRCCNT`. -/
theorem multiplierIterationAppendsItsRecord : Obligations.MultiplierIterationAppendsItsRecord := by
  intro w s i ⟨hw, _⟩ _ hp hb hroom
  refine ⟨_, (mulStep (mulVars s) s.m s.n.toNat).1, (mulStep (mulVars s) s.m s.n.toNat).2,
    (exec_multiplying i hp hb).trans (congrArg State.lift (mulIteration_eq hroom)), rfl, rfl, ?_, ?_, fun k hk => ?_⟩
  · exact trccnt_succ hw hroom
  · exact Store.find_insert_self _ _ _
  · exact Store.find_insert_of_ne _ hk.symm _

/-- Settles O39: the exit of MULT is the same under both commands. -/
theorem multiplyAndEvaluateComplete : Obligations.MultiplyAndEvaluateComplete :=
  fun _ _ i _ _ hp hb => exec_mult_exit i hp hb

/-- Settles O42: the exits of REDA and REDB under EVALUATE. -/
theorem evaluatePassesBetweenSegments : Obligations.EvaluatePassesBetweenSegments :=
  fun _ _ _ hv => ⟨fun hp => exec_reda_exit .evaluate hp hv, fun hp => exec_redb_exit .evaluate hp hv⟩

/-! ## The latched word -/

/-- A word is refused exactly when it is none of the five opcodes (30_encoding.md R72). -/
theorem exists_decodeWord_error_iff (hw : 8 ≤ w) (v : Word w) :
    (∃ e, decodeWord v = .error e) ↔ v.toNat = 0 ∨ 6 ≤ v.toNat := by
  have hok (i : Instr) := decodeWord_eq_ok_iff hw v i
  constructor
  · rintro ⟨e, he⟩
    simp only [he, reduceCtorEq, false_iff] at hok
    have h1 := hok .encode
    have h2 := hok .decode
    have h3 := hok .reduce
    have h4 := hok .multiply
    have h5 := hok .evaluate
    simp only [opcode, BitVec.reduceToNat] at h1 h2 h3 h4 h5
    omega
  · intro hv
    rcases hd : decodeWord v with e | i
    · exact ⟨e, rfl⟩
    · have hvalue := (hok i).1 hd
      cases i <;> simp only [opcode, BitVec.reduceToNat] at hvalue <;> omega

/-- Settles O2: the table's words by evaluation, every other width by `decodeWord_encodeWord`. -/
theorem opcodeTableWordsDecode : Obligations.OpcodeTableWordsDecode := by
  refine ⟨by decide, by decide, by decide, by decide, by decide, by decide, by decide, by decide, by decide, ?_⟩
  intro w i hw
  have hvalue := toNat_encodeWord hw i
  refine ⟨by cases i <;> rfl, decodeWord_encodeWord hw i, ?_, hvalue⟩
  rw [commandWordWf, hvalue]
  cases i <;> rfl

end Sys2Proof.Machine

/-! # `STATUS` as a word (10_state.md Table S-2, 60_exceptions.md Table X-1) -/

namespace Sys2Proof.Machine

open Sys2Proof.Safety Sys2Proof.Independence

variable {w : Nat}

/-- The number that `STATUS` reads as, from its four fields (Table S-2). -/
def statusValue (st : Status) : Nat :=
  st.busy.toNat + 2 * st.done.toNat + 4 * st.err.toNat + 16 * st.errcode.toNat

theorem ofNat_shiftLeft (x k : Nat) : BitVec.ofNat w x <<< k = BitVec.ofNat w (x <<< k) := by
  refine BitVec.eq_of_toNat_eq ?_
  simp [Nat.shiftLeft_eq, Nat.mod_mul_mod]

theorem bitWord_eq_ofNat (b : Bool) : (bitWord b : BitVec w) = BitVec.ofNat w b.toNat := by
  cases b <;> rfl

theorem statusWord_eq_ofNat (st : Status) : (statusWord st : Word w) = BitVec.ofNat w (statusValue st) := by
  have hsum (b d e : Bool) (c : BitVec 4) : b.toNat + 2 * d.toNat + 4 * e.toNat + 16 * c.toNat =
      b.toNat ||| d.toNat <<< 1 ||| e.toNat <<< 2 ||| c.toNat <<< 4 := by
    revert b d e c
    decide
  rw [statusWord, statusValue, hsum, bitWord_eq_ofNat, bitWord_eq_ofNat, bitWord_eq_ofNat, ← BitVec.ofNat_toNat,
    ofNat_shiftLeft, ofNat_shiftLeft, ofNat_shiftLeft, BitVec.ofNat_or, BitVec.ofNat_or, BitVec.ofNat_or]

theorem statusValue_lt (st : Status) : statusValue st < 2 ^ 8 := by
  have hbusy := st.busy.toNat_le
  have hdone := st.done.toNat_le
  have herr := st.err.toNat_le
  have hcode := st.errcode.isLt
  rw [statusValue]
  omega

theorem toNat_statusWord (hw : 8 ≤ w) (st : Status) : (statusWord st : Word w).toNat = statusValue st := by
  have hlt := statusValue_lt st
  have hbound : 2 ^ 8 ≤ 2 ^ w := Nat.pow_le_pow_right (by decide) hw
  rw [statusWord_eq_ofNat, BitVec.toNat_ofNat, Nat.mod_eq_of_lt (by omega)]

theorem getLsbD_statusWord (hw : 8 ≤ w) (st : Status) {i : Nat} (hi : i < 8) :
    (statusWord st : Word w).getLsbD i = (statusValue st).testBit i := by
  rw [statusWord_eq_ofNat, BitVec.getLsbD_ofNat, decide_eq_true (by omega), Bool.true_and]

/-- The four flag bits of the number. -/
theorem testBit_statusValue (st : Status) :
    (statusValue st).testBit 0 = st.busy ∧ (statusValue st).testBit 1 = st.done ∧
    (statusValue st).testBit 2 = st.err ∧ (statusValue st).testBit 3 = false := by
  obtain ⟨busy, done, err, errcode⟩ := st
  revert busy done err errcode
  decide

theorem extractLsb'_statusWord (hw : 8 ≤ w) (st : Status) : (statusWord st : Word w).extractLsb' 4 4 = st.errcode := by
  have hbusy := st.busy.toNat_le
  have hdone := st.done.toNat_le
  have herr := st.err.toNat_le
  have hcode := st.errcode.isLt
  refine BitVec.eq_of_toNat_eq ?_
  rw [BitVec.extractLsb'_toNat, toNat_statusWord hw, statusValue, Nat.shiftRight_eq_div_pow]
  omega

/-- Settles O14: the word is the number of Table S-2 at every width of at least 8. -/
theorem statusReadsAsTabled : Obligations.StatusReadsAsTabled := by
  refine ⟨fun w hw => ?_, fun w hw => ?_, fun w st hw => ?_⟩
  · simp only [toNat_statusWord hw]
    decide
  · simp only [toNat_statusWord hw]
    decide
  · obtain ⟨hbusy, hdone, herr, hzero⟩ := testBit_statusValue st
    simp only [getLsbD_statusWord hw st (show 0 < 8 by decide), getLsbD_statusWord hw st (show 1 < 8 by decide),
      getLsbD_statusWord hw st (show 2 < 8 by decide), getLsbD_statusWord hw st (show 3 < 8 by decide)]
    exact ⟨hbusy, hdone, herr, hzero, extractLsb'_statusWord hw st, toNat_statusWord hw st ▸ statusValue_lt st⟩

/-- Settles O8: in START a word that does not decode ends with `raise`. -/
theorem illegalCommandFaults : Obligations.IllegalCommandFaults := by
  intro w s ⟨hw, _⟩ hp hcur
  obtain ⟨e, he⟩ := (exists_decodeWord_error_iff hw s.cur).2 hcur
  refine ⟨?_, step_nil, toNat_statusWord hw _⟩
  rw [engineTurn_eq_lift (by rw [hp]; nofun), enginePhase_start hp, he]
  rfl

end Sys2Proof.Machine

/-! # The address map, complete (20_memory.md Table M-1)

The two ways between addresses and places are inverse, and what is reserved is what is left. -/

namespace Sys2Proof.Machine

open Sys2Proof.Safety Sys2Proof.Independence

variable {w depth : Nat}

theorem registerMap_keys_iff : ∀ a < 0x1000, a ∈ registerMap.map Prod.fst ↔
    a < 0x000E ∧ a ≠ 0x0003 ∧ a ≠ 0x000B := by
  intro a _
  simp only [registerMap, List.map_cons, List.map_nil, List.mem_cons, List.not_mem_nil, or_false]
  omega

/-- What the map finds at an address is a register, whose own address that is. -/
theorem addrOf_of_find_registerMap {a : Nat} {p : Place} (h : Store.find registerMap a = some p) :
    p ∈ registerMap.map Prod.snd ∧ (addrOf p).toNat = a := by
  have hmem := Store.find_mem _ h
  refine ⟨hmem, ?_⟩
  have hkey := (Store.mem_keys_iff _ _).2 ⟨p, h⟩
  simp only [registerMap, List.map_cons, List.map_nil, List.mem_cons, List.not_mem_nil, or_false] at hkey
  rcases hkey with rfl | rfl | rfl | rfl | rfl | rfl | rfl | rfl | rfl | rfl | rfl | rfl <;>
    exact (Option.some.inj h) ▸ rfl

theorem toNat_addrOf_trc (hw : w ≤ 512) {k f : Nat} (hk : k < 2 * w) (hf : f < 8) :
    (addrOf (.trc k f)).toNat = 0x2000 + 8 * k + f := by
  rw [addrOf, BitVec.toNat_ofNat, Nat.mod_eq_of_lt (by omega)]

/-- The address of a trace word names that word. -/
theorem placeAt_addrOf_trc (hw : w ≤ 512) (hdepth : depth ≤ 0x1000) {k f : Nat} (hk : k < 2 * w) (hf : f < 8) :
    placeAt w depth (addrOf (.trc k f)) = .trc k f := by
  rw [placeAt, toNat_addrOf_trc hw hk hf, find_registerMap_of_le (by omega)]
  simp only [Config.traceDepth]
  rw [if_neg (by omega), if_pos (by omega), show (0x2000 + 8 * k + f - 0x2000) / 8 = k by omega,
    show (0x2000 + 8 * k + f - 0x2000) % 8 = f by omega]

/-- The address of the place that an address names is that address. -/
theorem addrOf_placeAt (depth : Nat) (addr : Addr) : addrOf (placeAt w depth addr) = addr := by
  have haddr := addr.isLt
  refine BitVec.eq_of_toNat_eq ?_
  rcases placeAt_cases (w := w) depth addr with h | ⟨hlo, hhi, h⟩ | ⟨hlo, hhi, h⟩ | h
  · exact (addrOf_of_find_registerMap h).2
  · rw [h, addrOf, BitVec.toNat_ofNat, Nat.mod_eq_of_lt (by omega)]
    omega
  · rw [h, addrOf, BitVec.toNat_ofNat, Nat.mod_eq_of_lt (by omega)]
    omega
  · rw [h, addrOf]

/-- An address is reserved when it is no register's and lies in neither buffer. -/
theorem placeAt_eq_reserved_iff (addr : Addr) : placeAt w depth addr = .reserved addr ↔
    addr.toNat ∉ registerMap.map Prod.fst ∧ ¬ (0x1000 ≤ addr.toNat ∧ addr.toNat < 0x1000 + depth) ∧
      ¬ (0x2000 ≤ addr.toNat ∧ addr.toNat < 0x2000 + 8 * Config.traceDepth w) := by
  rw [Store.mem_keys_iff, placeAt]
  cases hfind : Store.find registerMap addr.toNat with
  | some p =>
    have hne : p ≠ .reserved addr := by
      rintro rfl
      exact absurd (addrOf_of_find_registerMap hfind).1 (by simp [registerMap])
    simp [hne]
  | none =>
    simp only [reduceCtorEq, exists_false, not_false_eq_true, true_and]
    split_ifs with htxt htrc
    · simp [htxt]
    · simp [htrc]
    · simp [htxt, htrc]

/-- Settles O4: registers, text and trace by their addresses, the reserved ranges as what is left of the 14 bits. -/
theorem addressMapIsComplete : Obligations.AddressMapIsComplete := by
  intro w depth hlegal
  have hdepth := depth_le_of_legal hlegal
  obtain ⟨-, hw, -⟩ := hlegal
  refine ⟨⟨rfl, rfl, rfl, rfl, rfl, rfl, rfl, rfl, rfl, rfl, rfl, rfl⟩, fun i hi => ?_, fun k hk f hf => ?_,
    fun addr => ?_, addrOf_placeAt depth⟩
  · exact ⟨toNat_addrOf_txt hdepth hi, placeAt_addrOf_txt hdepth hi⟩
  · exact ⟨toNat_addrOf_trc hw hk hf, placeAt_addrOf_trc hw hdepth hk hf⟩
  · have haddr := addr.isLt
    rw [placeAt_eq_reserved_iff, Config.traceDepth]
    rcases Nat.lt_or_ge addr.toNat 0x1000 with hlow | hhigh
    · rw [registerMap_keys_iff _ hlow]
      omega
    · have hno : addr.toNat ∉ registerMap.map Prod.fst := fun h => by
        have := registerMap_keys_lt _ h
        omega
      simp only [hno, not_false_eq_true, true_and]
      omega

/-! # The step of the latched command (60_exceptions.md R147) -/

theorem step_engine {s : Block w} {rest : List (Event w)} (h : s.agenda = .engine :: rest) :
    step (.of s) = engineTurn (.of { s with agenda := rest }) :=
  step_cons h

/-- The table's word of a command is its encoding. -/
theorem tableWord_opcode (i : Instr) : tableWord w 64 (opcode i).toNat = encodeWord w i := by
  rw [tableWord, encodeWord_eq_ofNat]
  cases i <;> rfl

/-- Settles O5: the engine's turn under a command is `exec` of it, and in IDLE it is nothing. -/
theorem stepRunsLatchedCommand : Obligations.StepRunsLatchedCommand := by
  refine ⟨fun w s i _ hd hp => ⟨fun hquiet => ?_, fun rest h => ?_⟩,
    fun w s _ hp => ⟨fun hquiet => ?_, fun rest h => ?_⟩, fun w s i ⟨hw, _⟩ => ?_⟩
  · rw [step_nil hquiet, engineTurn_command (s := .of s) hp hd]
  · rw [step_engine h, engineTurn_command (s := .of { s with agenda := rest }) hp hd]
  · rw [step_nil hquiet, engineTurn_idle (s := .of s) hp]
  · rw [step_engine h, engineTurn_idle (s := .of { s with agenda := rest }) hp]
  · have hplace : (State.of s).withFetchWord 64 (opcode i).toNat = .of (placeCommand (encodeWord w i) s) := by
      rw [State.withFetchWord, tableWord_opcode]
    rw [hplace]
    refine ⟨rfl, ?_⟩
    rw [step_nil rfl]
    exact engineTurn_command (s := .of (placeCommand (encodeWord w i) s)) nofun (decodeWord_encodeWord hw i)

end Sys2Proof.Machine

/-! # Everything an engine step does (60_exceptions.md R147)

`EngineStep s t` lists, with what each requires and what each leaves, the steps of a running command. The edges of
`PHASE`, the invariant of the whole machine and the progress of the engine are case splits over it. -/

namespace Sys2Proof.Machine

open Sys2Proof.Safety Sys2Proof.Independence

variable {w : Nat} {s t : Block w}

/-- What the first step under a latched word does: it takes the fault of a rule, completes, or enters a loop. -/
inductive FirstOutcome (s t : Block w) : Except IllegalWord Instr → Prop
  /-- R150 to R155. -/
  | faults {d : Except IllegalWord Instr} {f : CommandFault} {info : Word w} (rule : FaultRule s d f info)
    (next : t = raise f info (beforeTests d s)) : FirstOutcome s t d
  /-- 40_codec.md R93. -/
  | encodes (next : t = complete { s with
      txt := Memory.writeText s.txt 0 (encodeText s.a)
      txtlen := BitVec.ofNat w (encodeText s.a).length }) : FirstOutcome s t (.ok .encode)
  /-- 40_codec.md R99. -/
  | decodes (v : Word w) (next : t = complete { s with res := v }) : FirstOutcome s t (.ok .decode)
  /-- 41_reducer.md R114, 43_evaluate.md R138. -/
  | entersReducer {i : Instr} (command : i = .reduce ∨ i = .evaluate) (m : Word w) (degree : deg m = (s.n.toNat : Int))
    (next : t = { clearTrace s with m := m, wv := s.a, seg := 0, phase := .reda }) : FirstOutcome s t (.ok i)
  /-- 42_multiplier.md R124. -/
  | entersMultiplier (degree : deg s.m = (s.n.toNat : Int)) (operandA : deg s.a < (s.n.toNat : Int))
    (operandB : deg s.b < (s.n.toNat : Int))
    (next : t = { clearTrace s with wa := s.a, wb := s.b, acc := 0, seg := 2, phase := .mult }) :
    FirstOutcome s t (.ok .multiply)

/-- A first step always goes on, to one of its outcomes. -/
theorem exists_firstOutcome (d : Except IllegalWord Instr) (s : Block w) :
    ∃ t, firstStep d s = .next t ∧ FirstOutcome s t d := by
  rcases d with e | i
  · exact ⟨_, rfl, .faults (.illegalCommand e) rfl⟩
  cases i with
  | encode => exact ⟨_, rfl, .encodes rfl⟩
  | decode =>
    rcases decodeFirst_cases s with ⟨hl, ht⟩ | ⟨hl, f, j, hd, ht⟩ | ⟨-, v, -, ht⟩ <;> refine ⟨_, ht, ?_⟩
    · exact .faults (.textLength (.inl rfl) hl) rfl
    · exact .faults (.text (.inl rfl) hl hd) rfl
    · exact .decodes v rfl
  | reduce =>
    rcases reduceFirst_cases s with ⟨hn, ht⟩ | ⟨hn, hm, ht⟩ | ⟨-, hm, ht⟩ <;> refine ⟨_, ht, ?_⟩
    · exact .faults (.degreeRange (.inl rfl) hn) rfl
    · exact .faults (.modulusDegree (.inl rfl) hn hm) rfl
    · exact .entersReducer (.inl rfl) s.m hm rfl
  | multiply =>
    rcases multiplyFirst_cases s with ⟨hn, ht⟩ | ⟨hn, hm, ht⟩ | ⟨hn, hm, ha, ht⟩ | ⟨hn, hm, ha, hb, ht⟩ |
      ⟨-, hm, ha, hb, ht⟩ <;> refine ⟨_, ht, ?_⟩
    · exact .faults (.degreeRange (.inr (.inl rfl)) hn) rfl
    · exact .faults (.modulusDegree (.inr rfl) hn hm) rfl
    · exact .faults (.nonCanonicalA hn hm ha) rfl
    · exact .faults (.nonCanonicalB hn hm ha hb) rfl
    · exact .entersMultiplier hm ha hb rfl
  | evaluate =>
    rcases evaluateFirst_cases s with ⟨hn, ht⟩ | ⟨hn, hl, ht⟩ | ⟨hn, hl, f, j, hd, ht⟩ | ⟨hn, hl, m, hd, hm, ht⟩ |
      ⟨-, -, m, -, hm, ht⟩ <;> refine ⟨_, ht, ?_⟩
    · exact .faults (.degreeRange (.inr (.inr rfl)) hn) rfl
    · exact .faults (.textLength (.inr ⟨rfl, hn⟩) hl) rfl
    · exact .faults (.text (.inr ⟨rfl, hn⟩) hl hd) rfl
    · exact .faults (.decodedDegree hn hl hd hm) rfl
    · exact .entersReducer (.inr rfl) m hm rfl

theorem firstOutcome_of_firstStep {d : Except IllegalWord Instr} (h : firstStep d s = .next t) :
    FirstOutcome s t d := by
  obtain ⟨t', ht', ho⟩ := exists_firstOutcome d s
  exact Host.Outcome.next.inj (ht'.symm.trans h) ▸ ho

/-- The only exits of REDA are those of REDUCE and EVALUATE. -/
theorem exitStep_cases {d : Except IllegalWord Instr} (h : exitStep d s = .next t) :
    (d = .ok .reduce ∧ t = complete { s with res := s.wv }) ∨
    (d = .ok .evaluate ∧ t = { s with resa := s.wv, wv := s.b, seg := 1, phase := .redb }) := by
  rcases d with e | i
  · cases h
  · cases i with
    | encode | decode | multiply => cases h
    | reduce => cases h; exact .inl ⟨rfl, rfl⟩
    | evaluate => cases h; exact .inr ⟨rfl, rfl⟩

/-- The steps of a running command. -/
inductive EngineStep (s t : Block w) : Prop
  /-- The first step of the latched word. -/
  | first (phase : s.phase = .start) (outcome : FirstOutcome s t (decodeWord s.cur))
  /-- A Reducer iteration (41_reducer.md R114, step I). -/
  | reduces (phase : s.phase = .reda ∨ s.phase = .redb) (degree : (s.n.toNat : Int) ≤ deg s.wv)
    (room : s.trccnt.toNat < Config.traceDepth w)
    (next : t = appended (redRecord s.seg s.wv (redStep s.wv s.m s.n.toNat))
      { s with wv := (redStep s.wv s.m s.n.toNat).nv })
  /-- The exit of REDUCE (41_reducer.md R114, step X). -/
  | endsReduce (phase : s.phase = .reda) (command : decodeWord s.cur = .ok .reduce)
    (next : t = complete { s with res := s.wv })
  /-- EVALUATE goes on with `B` (43_evaluate.md R138, step XA). -/
  | passesToB (phase : s.phase = .reda) (command : decodeWord s.cur = .ok .evaluate)
    (degree : deg s.wv < (s.n.toNat : Int)) (next : t = { s with resa := s.wv, wv := s.b, seg := 1, phase := .redb })
  /-- EVALUATE goes on with the product (43_evaluate.md R138, step XB). -/
  | passesToProduct (phase : s.phase = .redb) (degree : deg s.wv < (s.n.toNat : Int))
    (next : t = { s with resb := s.wv, wa := s.resa, wb := s.wv, acc := 0, seg := 2, phase := .mult })
  /-- A Multiplier iteration (42_multiplier.md R124, step I). -/
  | multiplies (phase : s.phase = .mult) (more : s.wb ≠ 0) (room : s.trccnt.toNat < Config.traceDepth w)
    (next : t = appended (mulStep (mulVars s) s.m s.n.toNat).2 (withMulVars s (mulStep (mulVars s) s.m s.n.toNat).1))
  /-- The exit of the Multiplier (42_multiplier.md R124, step X). -/
  | endsMultiplier (phase : s.phase = .mult) (next : t = complete { s with res := s.acc })

theorem deg_lt_of_not_reducing (h : reducing s = false) : deg s.wv < (s.n.toNat : Int) := by
  rw [← Bool.not_eq_true, reducing_iff] at h
  exact not_le.1 h

/-- An engine step out of a running state is one of them. -/
theorem engineStep_of_engineTurn (hp : s.phase ≠ .idle) (h : engineTurn (.of s) = .next (.of t)) : EngineStep s t := by
  rw [engineTurn_eq_lift hp, State.lift_eq_next_of] at h
  rcases enginePhase_cases h with ⟨hs, h⟩ | ⟨hs, hr, h⟩ | ⟨hs, hr, h⟩ | ⟨hs, hr, h⟩ | ⟨hs, hb, h⟩ | ⟨hs, -, h⟩
  · exact .first hs (firstOutcome_of_firstStep h)
  · obtain ⟨hroom, ht⟩ := redIteration_cases h
    exact .reduces hs ((reducing_iff s).1 hr) hroom ht
  · rcases exitStep_cases h with ⟨hd, ht⟩ | ⟨hd, ht⟩
    · exact .endsReduce hs hd ht
    · exact .passesToB hs hd (deg_lt_of_not_reducing hr) ht
  · cases h
    exact .passesToProduct hs (deg_lt_of_not_reducing hr) rfl
  · obtain ⟨hroom, ht⟩ := mulIteration_cases h
    exact .multiplies hs hb hroom ht
  · cases h
    exact .endsMultiplier hs rfl

/-! ## What no step changes: the parameters (00_scope.md R6, R7; log 1) -/

theorem FirstOutcome.depth {d : Except IllegalWord Instr} (h : FirstOutcome s t d) : t.depth = s.depth := by
  cases h with
  | faults _ next | encodes next | decodes _ next | entersReducer _ _ _ next | entersMultiplier _ _ _ next =>
    rw [next]; rfl

theorem EngineStep.depth (h : EngineStep s t) : t.depth = s.depth := by
  cases h with
  | first _ outcome => exact outcome.depth
  | reduces _ _ _ next | endsReduce _ _ next | passesToB _ _ _ next | passesToProduct _ _ next | multiplies _ _ _ next
  | endsMultiplier _ next => subst next; rfl

theorem hostRead_depth (addr : Addr) (s : Block w) : (hostRead addr s).depth = s.depth := by
  rcases hostRead_cases addr s with ⟨v, -, h⟩ | ⟨-, h⟩ <;> rw [h]

theorem hostWrite_depth (addr : Addr) (v : Word w) (s : Block w) : (hostWrite addr v s).depth = s.depth := by
  cases hb : s.status.busy with
  | true => rw [hostWrite_busy hb]
  | false =>
    rw [hostWrite_idle hb]
    rcases writeIdle_cases (placeAt w s.depth addr) v s with ⟨-, h⟩ | ⟨-, h⟩ | ⟨-, h⟩ | ⟨-, h⟩ | ⟨-, h⟩ | ⟨-, h⟩ |
      ⟨i, -, h⟩ | h <;> rw [h]
    rfl

theorem pollStatus_depth (s : Block w) : (pollStatus s).depth = s.depth := by
  rw [pollStatus]
  split <;> exact hostRead_depth _ s

/-- The engine's turn goes to a block of the same parameters. -/
theorem engineTurn_params {u : State} (h : engineTurn (.of s) = .next u) :
    ∃ t : Block w, u = .of t ∧ t.depth = s.depth := by
  by_cases hp : s.phase = .idle
  · rw [engineTurn_idle (s := .of s) hp] at h
    cases h
    exact ⟨s, rfl, rfl⟩
  · obtain ⟨t, -, rfl⟩ := State.lift_eq_next.1 ((engineTurn_eq_lift hp).symm.trans h)
    exact ⟨t, rfl, (engineStep_of_engineTurn hp h).depth⟩

theorem perform_params {e : Event w} {u : State} (h : perform e s = .next u) :
    ∃ t : Block w, u = .of t ∧ t.depth = s.depth := by
  cases e with
  | read addr => cases h; exact ⟨_, rfl, hostRead_depth addr s⟩
  | write addr v => cases h; exact ⟨_, rfl, hostWrite_depth addr v s⟩
  | reset => cases h; exact ⟨_, rfl, rfl⟩
  | engine => exact engineTurn_params h
  | poll => cases h; exact ⟨_, rfl, pollStatus_depth s⟩

/-- A step goes to a block of the same parameters. -/
theorem step_params {u : State} (h : step (.of s) = .next u) : ∃ t : Block w, u = .of t ∧ t.depth = s.depth := by
  cases hagenda : s.agenda with
  | nil => exact engineTurn_params ((step_nil hagenda).symm.trans h)
  | cons e es => exact perform_params (s := { s with agenda := es }) ((step_cons hagenda).symm.trans h)

/-! ## What the engine does not see: the model's record of the host (logs 3 to 5) -/

/-- `s` with the host's part set. -/
def withHost (agenda : List (Event w)) (replies : List (Word w)) (draws : Nat) (s : Block w) : Block w :=
  { s with agenda := agenda, replies := replies, draws := draws }

/-- A step of the block followed by a function of the next block. -/
def StepOutcome.map (g : Block w → Block w) (o : StepOutcome w) : StepOutcome w :=
  match o with
  | .next t => .next (g t)
  | .fault r => .fault r
  | .refused r => .refused r

/-- `step` neither reads nor writes the host's part. -/
def HostBlind (step : Block w → StepOutcome w) : Prop :=
  ∀ (agenda : List (Event w)) (replies : List (Word w)) (draws : Nat) (s : Block w),
    step (withHost agenda replies draws s) = (step s).map (withHost agenda replies draws)

@[simp] theorem StepOutcome.map_next (g : Block w → Block w) (t : Block w) :
    StepOutcome.map g (.next t) = .next (g t) := rfl

theorem StepOutcome.map_ite (g : Block w → Block w) (p : Prop) [Decidable p] (x y : StepOutcome w) :
    StepOutcome.map g (if p then x else y) = if p then StepOutcome.map g x else StepOutcome.map g y :=
  apply_ite ..

@[simp] theorem textOperand_withHost (agenda : List (Event w)) (replies : List (Word w)) (draws : Nat) (s : Block w) :
    textOperand (withHost agenda replies draws s) = textOperand s := rfl

theorem append_hostBlind (r : Record w) : HostBlind (append r) := by
  intro agenda replies draws s
  rw [append, append, StepOutcome.map_ite]
  rfl

theorem redIteration_hostBlind : HostBlind (w := w) redIteration :=
  fun agenda replies draws s =>
    append_hostBlind _ agenda replies draws { s with wv := (redStep s.wv s.m s.n.toNat).nv }

theorem mulIteration_hostBlind : HostBlind (w := w) mulIteration :=
  fun agenda replies draws s =>
    append_hostBlind _ agenda replies draws (withMulVars s (mulStep (mulVars s) s.m s.n.toNat).1)

theorem decodeFirst_hostBlind : HostBlind (w := w) decodeFirst := by
  intro agenda replies draws s
  simp only [decodeFirst, StepOutcome.map_ite, textOperand_withHost]
  cases decodeText w (textOperand s) <;> rfl

theorem reduceFirst_hostBlind : HostBlind (w := w) reduceFirst := by
  intro agenda replies draws s
  simp only [reduceFirst, StepOutcome.map_ite]
  rfl

theorem multiplyFirst_hostBlind : HostBlind (w := w) multiplyFirst := by
  intro agenda replies draws s
  simp only [multiplyFirst, StepOutcome.map_ite]
  rfl

theorem evaluateFirst_hostBlind : HostBlind (w := w) evaluateFirst := by
  intro agenda replies draws s
  simp only [evaluateFirst, StepOutcome.map_ite, textOperand_clearTrace, textOperand_withHost]
  cases decodeText w (textOperand s) with
  | err f j => rfl
  | ok m => simp only [StepOutcome.map_ite]; rfl

theorem firstStep_hostBlind (d : Except IllegalWord Instr) : HostBlind (w := w) (firstStep d) := by
  rcases d with e | i
  · exact fun _ _ _ _ => rfl
  · cases i with
    | encode => exact fun _ _ _ _ => rfl
    | decode => exact decodeFirst_hostBlind
    | reduce => exact reduceFirst_hostBlind
    | multiply => exact multiplyFirst_hostBlind
    | evaluate => exact evaluateFirst_hostBlind

theorem exitStep_hostBlind (d : Except IllegalWord Instr) : HostBlind (w := w) (exitStep d) := by
  rcases d with e | i
  · exact fun _ _ _ _ => rfl
  · cases i <;> exact fun _ _ _ _ => rfl

theorem enginePhase_hostBlind {first exitA : Block w → StepOutcome w} (hfirst : HostBlind first)
    (hexit : HostBlind exitA) : HostBlind (enginePhase first exitA) := by
  intro agenda replies draws s
  have hred := redIteration_hostBlind agenda replies draws s
  cases hp : s.phase with
  | idle => simp only [enginePhase, hp, withHost, StepOutcome.map]
  | start => rw [enginePhase_start hp, enginePhase_start (s := withHost agenda replies draws s) hp, hfirst]
  | reda =>
    cases hr : reducing s with
    | true => rwa [enginePhase_reda_iter hp hr, enginePhase_reda_iter (s := withHost agenda replies draws s) hp hr]
    | false =>
      rw [enginePhase_reda_exit hp hr, enginePhase_reda_exit (s := withHost agenda replies draws s) hp hr, hexit]
  | redb =>
    cases hr : reducing s with
    | true => rwa [enginePhase_redb_iter hp hr, enginePhase_redb_iter (s := withHost agenda replies draws s) hp hr]
    | false =>
      rw [enginePhase_redb_exit hp hr, enginePhase_redb_exit (s := withHost agenda replies draws s) hp hr]
      rfl
  | mult =>
    by_cases hb : s.wb = 0
    · rw [enginePhase_mult_exit hp hb, enginePhase_mult_exit (s := withHost agenda replies draws s) hp hb]
      rfl
    · rw [enginePhase_mult_iter hp hb, enginePhase_mult_iter (s := withHost agenda replies draws s) hp hb]
      exact mulIteration_hostBlind agenda replies draws s

/-- The engine's turn does the same to the block's own part whatever the host's part is, which it leaves as it was. -/
theorem engineTurn_withHost (agenda : List (Event w)) (replies : List (Word w)) (draws : Nat)
    (h : engineTurn (.of s) = .next (.of t)) :
    engineTurn (.of (withHost agenda replies draws s)) = .next (.of (withHost agenda replies draws t)) := by
  by_cases hp : s.phase = .idle
  · rw [engineTurn_idle (s := .of s) hp] at h
    cases h
    exact engineTurn_idle (s := .of (withHost agenda replies draws s)) hp
  · have hblind := enginePhase_hostBlind (firstStep_hostBlind (decodeWord s.cur))
      (exitStep_hostBlind (decodeWord s.cur)) agenda replies draws s
    rw [engineTurn_eq_lift hp, State.lift_eq_next_of] at h
    rw [h, StepOutcome.map_next] at hblind
    rw [engineTurn_eq_lift (s := withHost agenda replies draws s) hp, State.lift_eq_next_of]
    exact hblind

/-- A block is its own part under its host's part. -/
theorem withHost_blockOf (s : Block w) : withHost s.agenda s.replies s.draws (blockOf s) = s := rfl

/-- The engine's turn keeps the host's part. -/
theorem agenda_of_engineTurn (h : engineTurn (.of s) = .next (.of t)) : t.agenda = s.agenda := by
  have hself := engineTurn_withHost s.agenda s.replies s.draws h
  rw [show withHost s.agenda s.replies s.draws s = s from rfl, h] at hself
  rw [State.of_inj.1 (Host.Outcome.next.inj hself)]
  rfl

/-- Blocks with the same part of their own stay so under the engine's turns. -/
theorem engineTurn_of_blockOf_eq {u : Block w} (hb : blockOf u = blockOf s) (h : engineTurn (.of s) = .next (.of t)) :
    ∃ v : Block w, engineTurn (.of u) = .next (.of v) ∧ blockOf v = blockOf t := by
  have hs : u = withHost u.agenda u.replies u.draws s := by
    rw [← withHost_blockOf u, hb]
    rfl
  refine ⟨withHost u.agenda u.replies u.draws t, ?_, rfl⟩
  rw [hs]
  exact engineTurn_withHost u.agenda u.replies u.draws h

end Sys2Proof.Machine

/-! # The invariant of the whole machine (10_state.md section 5, 00_scope.md section 4)

`Inv` is what the buffers, `STATUS` and the loop in progress each keep. Outside the loops the buffers and `STATUS` are
all of it (`BuffersFit.resting`); inside them each `EngineStep` keeps the loop's operands and its room in the trace. -/

namespace Sys2Proof.Safety

open Sys2Proof.Machine Sys2Proof.Independence

variable {w : Nat} {s t : Block w}

/-! ## The buffers -/

/-- The part of `Inv` that speaks of the parameters and the two buffers. -/
structure BuffersFit (s : Block w) : Prop where
  params : Config.legal w s.depth
  text : Memory.wf s.depth s.txt
  trace : Trace.wf s.trc
  listed : ∀ k < s.trccnt.toNat, k ∈ s.trc.map Prod.fst
  headers : ∀ r ∈ s.trc.map Prod.snd, headerLegal r.header = true

theorem Inv.buffers (h : Inv s) : BuffersFit s :=
  { h with }

theorem buffersFit_reset {depth : Nat} (h : Config.legal w depth) : BuffersFit (Block.reset w depth) where
  params := h
  text := Memory.wf_reset
  trace := Trace.wf_reset
  listed k hk := absurd hk (by simp [Block.reset])
  headers := nofun

theorem BuffersFit.clearTrace (h : BuffersFit s) : BuffersFit (clearTrace s) :=
  { h with listed := fun k hk => absurd hk (by simp) }

/-- Appending a record with a legal header to a trace that has room. -/
theorem BuffersFit.appended (h : BuffersFit s) (hroom : s.trccnt.toNat < Config.traceDepth w) {r : Record w}
    (hr : headerLegal r.header = true) : BuffersFit (appended r s) where
  params := h.params
  text := h.text
  trace := Trace.wf_insert h.trace hroom r
  listed k hk := by
    obtain ⟨hw, -⟩ := h.params
    have hk' : k < s.trccnt.toNat + 1 := trccnt_succ hw hroom ▸ hk
    refine (Store.mem_keys_insert _ _ _ _).2 ?_
    rcases Nat.lt_succ_iff_lt_or_eq.1 hk' with hlt | heq
    · exact .inr (h.listed k hlt)
    · exact .inl heq
  headers x hx := by
    rcases Store.mem_values_insert _ _ _ _ hx with rfl | hx
    · exact hr
    · exact h.headers x hx

theorem BuffersFit.writeText (h : BuffersFit s) (v : BitVec w) :
    BuffersFit { s with txt := Memory.writeText s.txt 0 (encodeText v) } := by
  obtain ⟨henc, -⟩ := encMax_le_of_legal h.params
  have hlen := length_encodeText_le (by have := h.params.1; omega) v
  have hfit : 0 + (encodeText v).length ≤ s.depth := by omega
  exact { h with text := Memory.wf_writeText _ h.text hfit }

/-- Every valid record lies in the buffer, so there are no more than the buffer holds. -/
theorem BuffersFit.trccnt_le (h : BuffersFit s) : s.trccnt.toNat ≤ Config.traceDepth w := by
  obtain ⟨-, hbound⟩ := h.trace
  by_contra hlt
  exact absurd (hbound _ (h.listed _ (not_le.1 hlt))) (lt_irrefl _)

/-- Outside the loops nothing but the buffers and `STATUS` is asked for. -/
theorem BuffersFit.resting (h : BuffersFit s) (hstatus : StatusConsistent s) (hp : s.phase = .idle ∨ s.phase = .start) :
    Inv s :=
  { h with
    status := hstatus
    command := by rcases hp with hp | hp <;> simp [commandFits, hp]
    operands := by rcases hp with hp | hp <;> simp [loopOperandsFit, hp]
    room := by
      have hle := h.trccnt_le
      rcases hp with hp | hp <;> simpa [recordsLeft, segmentBound, hp] using hle }

/-! ## The headers of the two loops (30_encoding.md R80) -/

theorem headerLegal_redHeader (hw : 8 ≤ w) {seg : BitVec 2} (hseg : seg ≠ 3) :
    headerLegal (redHeader seg : BitVec w) = true := by
  have hlt : seg.toNat < 3 := by
    have hne := mt BitVec.eq_of_toNat_eq hseg
    have hbound := seg.isLt
    simp only [BitVec.reduceToNat] at hne
    omega
  have hvalue := toNat_redHeader hw seg
  have hkind : headerKind (redHeader seg : BitVec w) = 1 := by
    refine BitVec.eq_of_toNat_eq ?_
    rw [headerKind, BitVec.extractLsb'_toNat, hvalue, Nat.shiftRight_zero]
    show _ % 4 = 1
    omega
  have hsegment : headerSeg (redHeader seg : BitVec w) = seg := by
    refine BitVec.eq_of_toNat_eq ?_
    rw [headerSeg, BitVec.extractLsb'_toNat, hvalue, Nat.shiftRight_eq_div_pow]
    omega
  rw [headerLegal, decide_eq_true_iff]
  exact ⟨.inl hkind, by rwa [hsegment], by omega⟩

theorem headerLegal_mulHeader (hw : 8 ≤ w) (bit chg ovf : Bool) :
    headerLegal (mulHeader bit chg ovf : BitVec w) = true := by
  obtain ⟨hkind, hsegment⟩ := kind_seg_mulHeader hw bit chg ovf
  have hbound : 2 ^ 8 ≤ 2 ^ w := Nat.pow_le_pow_right (by decide) hw
  have hbit := bit.toNat_le
  have hchg := chg.toNat_le
  have hovf := ovf.toNat_le
  have hvalue := congrArg BitVec.toNat (mulHeader_eq_ofNat (w := w) bit chg ovf)
  rw [BitVec.toNat_ofNat, Nat.mod_eq_of_lt (by omega)] at hvalue
  rw [headerLegal, decide_eq_true_iff]
  exact ⟨.inr hkind, by rw [hsegment]; decide, by omega⟩

/-! ## The loops -/

/-- What `Inv` asks of REDA beyond the buffers and `STATUS`. -/
structure RedaFits (s : Block w) : Prop where
  command : s.cur = 3 ∨ s.cur = 5
  degree : deg s.m = (s.n.toNat : Int)
  segment : s.seg = 0
  room : s.trccnt.toNat + (bitLength s.wv - s.n.toNat) ≤ w - s.n.toNat

/-- What `Inv` asks of REDB beyond the buffers and `STATUS`. -/
structure RedbFits (s : Block w) : Prop where
  command : s.cur = 5
  degree : deg s.m = (s.n.toNat : Int)
  segment : s.seg = 1
  resa : deg s.resa < (s.n.toNat : Int)
  room : s.trccnt.toNat + (bitLength s.wv - s.n.toNat) ≤ 2 * (w - s.n.toNat)

/-- What `Inv` asks of MULT beyond the buffers and `STATUS`. -/
structure MultFits (s : Block w) : Prop where
  command : s.cur = 4 ∨ s.cur = 5
  degree : deg s.m = (s.n.toNat : Int)
  segment : s.seg = 2
  wa : deg s.wa < (s.n.toNat : Int)
  acc : deg s.acc < (s.n.toNat : Int)
  wb : deg s.wb < (s.n.toNat : Int)
  room : s.trccnt.toNat + bitLength s.wb ≤ 2 * w - s.n.toNat

theorem Inv.reda (h : Inv s) (hp : s.phase = .reda) : RedaFits s := by
  obtain ⟨-, -, -, -, -, -, hcommand, hoperands, hroom⟩ := h
  simp only [commandFits, loopOperandsFit, recordsLeft, segmentBound, hp, Bool.and_eq_true, decide_eq_true_eq,
    reduceDomain_iff] at hcommand hoperands hroom
  obtain ⟨hdegree, hsegment⟩ := hoperands
  exact ⟨hcommand, hdegree, hsegment, hroom⟩

theorem Inv.redb (h : Inv s) (hp : s.phase = .redb) : RedbFits s := by
  obtain ⟨-, -, -, -, -, -, hcommand, hoperands, hroom⟩ := h
  simp only [commandFits, loopOperandsFit, recordsLeft, segmentBound, hp, Bool.and_eq_true, decide_eq_true_eq,
    reduceDomain_iff, canonical_eq_true_iff_deg] at hcommand hoperands hroom
  obtain ⟨⟨hdegree, hsegment⟩, hresa⟩ := hoperands
  exact ⟨hcommand, hdegree, hsegment, hresa, hroom⟩

theorem Inv.mult (h : Inv s) (hp : s.phase = .mult) : MultFits s := by
  obtain ⟨-, -, -, -, -, -, hcommand, hoperands, hroom⟩ := h
  simp only [commandFits, loopOperandsFit, recordsLeft, segmentBound, hp, Bool.and_eq_true, decide_eq_true_eq,
    reduceDomain_iff, canonical_eq_true_iff_deg] at hcommand hoperands hroom
  obtain ⟨⟨⟨⟨hdegree, hsegment⟩, hwa⟩, hacc⟩, hwb⟩ := hoperands
  exact ⟨hcommand, hdegree, hsegment, hwa, hacc, hwb, hroom⟩

theorem BuffersFit.inReda (h : BuffersFit s) (hstatus : StatusConsistent s) (hp : s.phase = .reda) (hl : RedaFits s) :
    Inv s :=
  { h with
    status := hstatus
    command := by simpa [commandFits, hp] using hl.command
    operands := by simp [loopOperandsFit, hp, reduceDomain_iff, hl.degree, hl.segment]
    room := by simpa only [recordsLeft, segmentBound, hp] using hl.room }

theorem BuffersFit.inRedb (h : BuffersFit s) (hstatus : StatusConsistent s) (hp : s.phase = .redb) (hl : RedbFits s) :
    Inv s :=
  { h with
    status := hstatus
    command := by simpa [commandFits, hp] using hl.command
    operands := by
      simp [loopOperandsFit, hp, reduceDomain_iff, canonical_eq_true_iff_deg, hl.degree, hl.segment, hl.resa]
    room := by simpa only [recordsLeft, segmentBound, hp] using hl.room }

theorem BuffersFit.inMult (h : BuffersFit s) (hstatus : StatusConsistent s) (hp : s.phase = .mult) (hl : MultFits s) :
    Inv s :=
  { h with
    status := hstatus
    command := by simpa [commandFits, hp] using hl.command
    operands := by
      simp [loopOperandsFit, hp, reduceDomain_iff, canonical_eq_true_iff_deg, hl.degree, hl.segment, hl.wa, hl.acc,
        hl.wb]
    room := by simpa only [recordsLeft, segmentBound, hp] using hl.room }

/-- A degree bound as a bound on the length. -/
theorem bitLength_le_of_deg_lt {v : BitVec w} {n : Nat} (h : deg v < (n : Int)) : bitLength v ≤ n := by
  have hlen := bitLength_eq_deg_add_one v
  omega

/-- An iteration makes the Reducer's value at least one bit shorter, above the length of a canonical one. -/
theorem bitLength_redStep_lt {v m : BitVec w} {n : Nat} (hm : deg m = (n : Int)) (hv : (n : Int) ≤ deg v) :
    bitLength (redStep v m n).nv - n < bitLength v - n := by
  have hlen := bitLength_eq_deg_add_one v
  have hnext := bitLength_eq_deg_add_one (redStep v m n).nv
  have hlt := deg_redStep_nv_lt hm hv
  omega

/-- An iteration makes the multiplier operand one bit shorter. -/
theorem bitLength_shr1_lt {b : BitVec w} (hb : b ≠ 0) : bitLength (shr1 b) < bitLength b := by
  have hpos : bitLength b ≠ 0 := mt (bitLength_eq_zero_iff b).1 hb
  rw [bitLength_shr1]
  omega

/-! ## Every engine step keeps the invariant -/

theorem Inv.of_firstOutcome (h : Inv s) (ho : FirstOutcome s t (decodeWord s.cur)) (ht : StatusConsistent t) :
    Inv t := by
  have hbuf := h.buffers
  have hclear := hbuf.clearTrace
  generalize hd : decodeWord s.cur = d at ho
  cases ho with
  | faults rule next =>
    subst next
    refine BuffersFit.resting ?_ ht (.inl rfl)
    by_cases hc : clearsTrace d = true
    · exact { hclear with listed := by simp [beforeTests, hc] }
    · exact { hbuf with listed := by simpa [beforeTests, hc] using hbuf.listed }
  | encodes next =>
    subst next
    exact BuffersFit.resting { hbuf.writeText s.a with } ht (.inl rfl)
  | decodes v next =>
    subst next
    exact BuffersFit.resting { hbuf with } ht (.inl rfl)
  | @entersReducer i command m degree next =>
    subst next
    have hcur := eq_ofNat_of_decodeWord hd
    have hv := bitLength_le_width s.a
    have hcommand : s.cur = 3 ∨ s.cur = 5 := by
      rcases command with rfl | rfl
      · exact .inl hcur
      · exact .inr hcur
    refine BuffersFit.inReda { hclear with } ht rfl ⟨hcommand, degree, rfl, ?_⟩
    show (0#w).toNat + (bitLength s.a - s.n.toNat) ≤ w - s.n.toNat
    rw [BitVec.toNat_zero]
    omega
  | entersMultiplier degree operandA operandB next =>
    subst next
    have hn := deg_lt_width s.m
    have hb := bitLength_le_of_deg_lt operandB
    refine BuffersFit.inMult { hclear with } ht rfl
      ⟨.inl (eq_ofNat_of_decodeWord hd), degree, rfl, operandA, deg_zero_lt _, operandB, ?_⟩
    show (0#w).toNat + bitLength s.b ≤ 2 * w - s.n.toNat
    rw [BitVec.toNat_zero]
    omega

theorem Inv.of_redIteration (h : Inv s) (hp : s.phase = .reda ∨ s.phase = .redb) (hv : (s.n.toNat : Int) ≤ deg s.wv)
    (hroom : s.trccnt.toNat < Config.traceDepth w)
    (hnext : t = Independence.appended (redRecord s.seg s.wv (redStep s.wv s.m s.n.toNat))
      { s with wv := (redStep s.wv s.m s.n.toNat).nv }) (ht : StatusConsistent t) : Inv t := by
  obtain ⟨hw, -⟩ := h.params
  have hcount : t.trccnt.toNat = s.trccnt.toNat + 1 := by rw [hnext]; exact trccnt_succ hw hroom
  have hbuf (hseg : s.seg ≠ 3) : BuffersFit t := by
    rw [hnext]
    exact BuffersFit.appended (s := { s with wv := (redStep s.wv s.m s.n.toNat).nv }) { h.buffers with } hroom
      (headerLegal_redHeader hw hseg)
  rcases hp with hp | hp
  · have hl := h.reda hp
    have hlt := bitLength_redStep_lt hl.degree hv
    have hbound := hl.room
    have hfit := hbuf (by rw [hl.segment]; decide)
    subst hnext
    refine hfit.inReda ht hp { hl with room := ?_ }
    rw [hcount]
    show s.trccnt.toNat + 1 + (bitLength (redStep s.wv s.m s.n.toNat).nv - s.n.toNat) ≤ w - s.n.toNat
    omega
  · have hl := h.redb hp
    have hlt := bitLength_redStep_lt hl.degree hv
    have hbound := hl.room
    have hfit := hbuf (by rw [hl.segment]; decide)
    subst hnext
    refine hfit.inRedb ht hp { hl with room := ?_ }
    rw [hcount]
    show s.trccnt.toNat + 1 + (bitLength (redStep s.wv s.m s.n.toNat).nv - s.n.toNat) ≤ 2 * (w - s.n.toNat)
    omega

theorem Inv.of_mulIteration (h : Inv s) (hp : s.phase = .mult) (hb : s.wb ≠ 0)
    (hroom : s.trccnt.toNat < Config.traceDepth w)
    (hnext : t = Independence.appended (mulStep (mulVars s) s.m s.n.toNat).2
      (withMulVars s (mulStep (mulVars s) s.m s.n.toNat).1)) (ht : StatusConsistent t) : Inv t := by
  obtain ⟨hw, -⟩ := h.params
  have hl := h.mult hp
  have hcount : t.trccnt.toNat = s.trccnt.toNat + 1 := by rw [hnext]; exact trccnt_succ hw hroom
  have hlt := bitLength_shr1_lt hb
  have hshort : bitLength (shr1 s.wb) ≤ s.n.toNat := hlt.le.trans (bitLength_le_of_deg_lt hl.wb)
  have hbound := hl.room
  have hfit : BuffersFit (Independence.appended (mulStep (mulVars s) s.m s.n.toNat).2
      (withMulVars s (mulStep (mulVars s) s.m s.n.toNat).1)) :=
    BuffersFit.appended (s := withMulVars s (mulStep (mulVars s) s.m s.n.toNat).1) { h.buffers with } hroom
      (headerLegal_mulHeader hw _ _ _)
  subst hnext
  refine hfit.inMult ht hp
    { hl with
      wa := deg_mulStep_a hl.degree hl.wa
      acc := deg_mulStep_acc (m := s.m) hl.wa hl.acc
      wb := (canonical_eq_true_iff_deg _ _).1 ((canonical_iff_bitLength _ _).2 hshort)
      room := ?_ }
  rw [hcount]
  show s.trccnt.toNat + 1 + bitLength (shr1 s.wb) ≤ 2 * w - s.n.toNat
  omega

/-- Between the segments the trace keeps room for the next one: `2 * (w - n)` records before the product of two values
of `n` bits (43_evaluate.md R137). -/
theorem Inv.of_engineStep (h : Inv s) (he : EngineStep s t) (ht : StatusConsistent t) : Inv t := by
  have hbuf := h.buffers
  cases he with
  | first _ outcome => exact h.of_firstOutcome outcome ht
  | reduces phase degree room next => exact h.of_redIteration phase degree room next ht
  | endsReduce _ _ next | endsMultiplier _ next =>
    subst next
    exact BuffersFit.resting { hbuf with } ht (.inl rfl)
  | passesToB phase command degree next =>
    have hl := h.reda phase
    have hv := bitLength_le_width s.b
    have hroom := hl.room
    subst next
    refine BuffersFit.inRedb { hbuf with } ht rfl ⟨eq_ofNat_of_decodeWord command, hl.degree, rfl, degree, ?_⟩
    show s.trccnt.toNat + (bitLength s.b - s.n.toNat) ≤ 2 * (w - s.n.toNat)
    omega
  | passesToProduct phase degree next =>
    have hl := h.redb phase
    have hn := deg_lt_width s.m
    have hdegree := hl.degree
    have hv := bitLength_le_of_deg_lt degree
    have hroom := hl.room
    subst next
    refine BuffersFit.inMult { hbuf with } ht rfl
      ⟨.inr hl.command, hl.degree, rfl, hl.resa, deg_zero_lt _, degree, ?_⟩
    show s.trccnt.toNat + bitLength s.wv ≤ 2 * w - s.n.toNat
    omega
  | multiplies phase more room next => exact h.of_mulIteration phase more room next ht

theorem Inv.engineTurn (h : Inv s) {u : State} (hu : engineTurn (.of s) = .next u) : Inv u.block := by
  by_cases hp : s.phase = .idle
  · cases (engineTurn_idle (s := .of s) hp).symm.trans hu
    exact h
  · obtain ⟨t, rfl, -⟩ := engineTurn_params hu
    exact h.of_engineStep (engineStep_of_engineTurn hp hu) (h.status.engineTurn hu)

/-! ## Every event keeps the invariant -/

/-- The invariant does not speak of the host's part. -/
theorem Inv.withHost (h : Inv s) (agenda : List (Event w)) (replies : List (Word w)) (draws : Nat) :
    Inv (withHost agenda replies draws s) :=
  { h with status := { h.status with } }

theorem Inv.hostRead (h : Inv s) (addr : Addr) : Inv (hostRead addr s) := by
  rcases hostRead_cases addr s with ⟨v, -, hr⟩ | ⟨-, hr⟩ <;> rw [hr]
  · exact h.withHost s.agenda (v :: s.replies) s.draws
  · exact h.withHost s.agenda _ (s.draws + 1)

theorem StatusConsistent.idle_of_not_busy (h : StatusConsistent s) (hb : s.status.busy = false) : s.phase = .idle := by
  by_contra hp
  cases hb.symm.trans (h.busy_iff.2 hp)

theorem StatusConsistent.not_busy_of_idle (h : StatusConsistent s) (hp : s.phase = .idle) : s.status.busy = false := by
  by_contra hb
  exact absurd hp (h.busy_iff.1 (Bool.eq_true_of_not_eq_false hb))

/-- A write is taken in IDLE only, where the buffers and `STATUS` are all of the invariant. -/
theorem Inv.hostWrite (h : Inv s) (addr : Addr) (v : Word w) : Inv (hostWrite addr v s) := by
  have hstatus := h.status.hostWrite addr v
  have hbuf := h.buffers
  cases hb : s.status.busy with
  | true => rwa [hostWrite_busy hb]
  | false =>
    have hp := h.status.idle_of_not_busy hb
    rw [hostWrite_idle hb] at hstatus ⊢
    rcases writeIdle_cases (placeAt w s.depth addr) v s with ⟨-, hw⟩ | ⟨-, hw⟩ | ⟨-, hw⟩ | ⟨-, hw⟩ | ⟨-, hw⟩ | ⟨-, hw⟩ |
      ⟨i, hplace, hw⟩ | hw <;> rw [hw] at hstatus ⊢
    · exact BuffersFit.resting { hbuf with } hstatus (.inr rfl)
    case inr.inr.inr.inr.inr.inr.inl =>
      exact BuffersFit.resting { hbuf with text := Memory.wf_write hbuf.text (placeAt_txt hplace) _ } hstatus (.inl hp)
    all_goals exact BuffersFit.resting { hbuf with } hstatus (.inl hp)

theorem inv_reset {depth : Nat} (h : Config.legal w depth) : Inv (Block.reset w depth) :=
  (buffersFit_reset h).resting (statusConsistent_reset w depth) (.inl rfl)

theorem Inv.resetBlock (h : Inv s) : Inv (resetBlock s) :=
  { inv_reset h.params with status := { statusConsistent_reset w s.depth with } }

theorem Inv.pollStatus (h : Inv s) : Inv (pollStatus s) := by
  rw [Machine.pollStatus]
  split
  · exact (h.hostRead (addrOf .status)).withHost _ _ _
  · exact h.hostRead _

theorem Inv.perform (h : Inv s) {e : Event w} {u : State} (hu : perform e s = .next u) : Inv u.block := by
  cases e with
  | read addr => cases hu; exact h.hostRead addr
  | write addr v => cases hu; exact h.hostWrite addr v
  | reset => cases hu; exact h.resetBlock
  | engine => exact h.engineTurn hu
  | poll => cases hu; exact h.pollStatus

theorem Inv.step (h : Inv s) {u : State} (hu : step (.of s) = .next u) : Inv u.block := by
  cases hagenda : s.agenda with
  | nil => exact h.engineTurn ((step_nil hagenda).symm.trans hu)
  | cons e es => exact (h.withHost es s.replies s.draws).perform ((step_cons hagenda).symm.trans hu)

/-- Settles O55: in IDLE the buffers and `STATUS` are all of the invariant, and after reset both buffers are empty. -/
theorem resetSatisfiesTheInvariant : Obligations.ResetSatisfiesTheInvariant :=
  ⟨fun _ _ hlegal => ⟨inv_reset hlegal, rfl⟩, rfl⟩

/-- Settles O57: a step is one event, and every event keeps the invariant and the parameters. -/
theorem stepKeepsTheInvariant : Obligations.StepKeepsTheInvariant := by
  refine ⟨fun s t h hstep => Inv.step h hstep, fun s t hstep => ?_⟩
  obtain ⟨b, rfl, hdepth⟩ := step_params hstep
  exact ⟨rfl, hdepth⟩

end Sys2Proof.Safety

/-! # Progress (60_exceptions.md section 2, 70_reset_and_hazards.md section 4)

In a state of the invariant the engine always has a step, and each step out of a running state lowers `stepsLeft`. -/

namespace Sys2Proof.Safety

open Sys2Proof.Machine Sys2Proof.Independence

variable {w : Nat} {s t : Block w}

/-! ## Some step is always enabled -/

/-- A loop that goes on has room for its next record. -/
theorem Inv.room_reducing (h : Inv s) (hp : s.phase = .reda ∨ s.phase = .redb) (hv : (s.n.toNat : Int) ≤ deg s.wv) :
    s.trccnt.toNat < Config.traceDepth w := by
  have hlen := bitLength_eq_deg_add_one s.wv
  rw [Config.traceDepth]
  rcases hp with hp | hp
  · have hroom := (h.reda hp).room
    omega
  · have hroom := (h.redb hp).room
    omega

theorem Inv.room_multiplying (h : Inv s) (hp : s.phase = .mult) (hb : s.wb ≠ 0) :
    s.trccnt.toNat < Config.traceDepth w := by
  have hlt := bitLength_shr1_lt hb
  have hroom := (h.mult hp).room
  rw [Config.traceDepth]
  omega

theorem Inv.exists_redIteration (h : Inv s) (hp : s.phase = .reda ∨ s.phase = .redb) (hr : reducing s = true) :
    ∃ t, redIteration s = .next t :=
  ⟨_, redIteration_eq (h.room_reducing hp ((reducing_iff s).1 hr))⟩

theorem decodeWord_ofNat_opcode (hw : 8 ≤ w) (i : Instr) : decodeWord (BitVec.ofNat w (opcode i).toNat) = .ok i := by
  rw [← encodeWord_eq_ofNat, decodeWord_encodeWord hw]

/-- The latched word of REDA is one that has an exit there. -/
theorem Inv.exists_exitStep (h : Inv s) (hp : s.phase = .reda) : ∃ t, exitStep (decodeWord s.cur) s = .next t := by
  obtain ⟨hw, -⟩ := h.params
  rcases (h.reda hp).command with hcur | hcur
  · have hd : decodeWord s.cur = .ok .reduce := hcur ▸ decodeWord_ofNat_opcode hw .reduce
    exact ⟨_, by rw [hd]; rfl⟩
  · have hd : decodeWord s.cur = .ok .evaluate := hcur ▸ decodeWord_ofNat_opcode hw .evaluate
    exact ⟨_, by rw [hd]; rfl⟩

theorem Inv.exists_enginePhase (h : Inv s) (hp : s.phase ≠ .idle) :
    ∃ t, enginePhase (firstStep (decodeWord s.cur)) (exitStep (decodeWord s.cur)) s = .next t := by
  cases hs : s.phase with
  | idle => exact absurd hs hp
  | start =>
    obtain ⟨t, ht, -⟩ := exists_firstOutcome (decodeWord s.cur) s
    exact ⟨t, (enginePhase_start hs).trans ht⟩
  | reda =>
    cases hr : reducing s with
    | true => rw [enginePhase_reda_iter hs hr]; exact h.exists_redIteration (.inl hs) hr
    | false => rw [enginePhase_reda_exit hs hr]; exact h.exists_exitStep hs
  | redb =>
    cases hr : reducing s with
    | true => rw [enginePhase_redb_iter hs hr]; exact h.exists_redIteration (.inr hs) hr
    | false => exact ⟨_, enginePhase_redb_exit hs hr⟩
  | mult =>
    by_cases hb : s.wb = 0
    · exact ⟨_, enginePhase_mult_exit hs hb⟩
    · exact ⟨_, (enginePhase_mult_iter hs hb).trans (mulIteration_eq (h.room_multiplying hs hb))⟩

theorem Inv.exists_engineTurn (h : Inv s) : ∃ t : Block w, Machine.engineTurn (.of s) = .next (.of t) := by
  by_cases hp : s.phase = .idle
  · exact ⟨s, engineTurn_idle (s := .of s) hp⟩
  · obtain ⟨t, ht⟩ := h.exists_enginePhase hp
    exact ⟨t, by rw [engineTurn_eq_lift hp, ht, State.lift_next]⟩

theorem Inv.exists_perform (h : Inv s) (e : Event w) : ∃ t : Block w, Machine.perform e s = .next (.of t) := by
  cases e with
  | engine => exact h.exists_engineTurn
  | read | write | reset | poll => exact ⟨_, rfl⟩

/-- Settles O58: the engine has a step by the invariant, and the host's events always go on. -/
theorem invariantStatesNeverStop : Obligations.InvariantStatesNeverStop := by
  intro w s h
  cases hagenda : s.agenda with
  | nil => rw [step_nil hagenda]; exact h.exists_engineTurn
  | cons e es => rw [step_cons hagenda]; exact (h.withHost es s.replies s.draws).exists_perform e

/-! ## Every step of the engine brings the end nearer -/

/-- A bound on the engine's steps to the end of the command (70_reset_and_hazards.md Table T-1): one per record that the
loops can still append, one per exit, and the first step. -/
def stepsLeft (s : Block w) : Nat :=
  match s.phase with
  | .idle => 0
  | .start => 2 * w + 4
  | .reda => (bitLength s.wv - s.n.toNat) + (bitLength s.b - s.n.toNat) + s.n.toNat + 3
  | .redb => (bitLength s.wv - s.n.toNat) + s.n.toNat + 2
  | .mult => bitLength s.wb + 1

theorem Inv.stepsLeft_le (h : Inv s) : stepsLeft s ≤ 2 * w + 4 := by
  have hv := bitLength_le_width s.wv
  have hb := bitLength_le_width s.b
  have hwb := bitLength_le_width s.wb
  have hm := deg_lt_width s.m
  cases hp : s.phase <;> simp only [stepsLeft, hp]
  case idle | start | mult => omega
  case reda =>
    have hdegree := (h.reda hp).degree
    omega
  case redb =>
    have hdegree := (h.redb hp).degree
    omega

theorem stepsLeft_lt_of_firstOutcome {d : Except IllegalWord Instr} (h : FirstOutcome s t d) :
    stepsLeft t < 2 * w + 4 := by
  cases h with
  | faults _ next | encodes next | decodes _ next =>
    subst next
    exact Nat.succ_pos _
  | entersReducer _ m degree next =>
    have ha := bitLength_le_width s.a
    have hb := bitLength_le_width s.b
    have hm := deg_lt_width m
    subst next
    show (bitLength s.a - s.n.toNat) + (bitLength s.b - s.n.toNat) + s.n.toNat + 3 < 2 * w + 4
    omega
  | entersMultiplier _ _ _ next =>
    have hb := bitLength_le_width s.b
    subst next
    show bitLength s.b + 1 < 2 * w + 4
    omega

theorem Inv.stepsLeft_lt (h : Inv s) (he : EngineStep s t) : stepsLeft t < stepsLeft s := by
  cases he with
  | first phase outcome =>
    have hlt := stepsLeft_lt_of_firstOutcome outcome
    simpa only [stepsLeft, phase] using hlt
  | reduces phase degree room next =>
    have hdegree : deg s.m = (s.n.toNat : Int) := phase.elim (fun hp => (h.reda hp).degree) fun hp => (h.redb hp).degree
    have hlt := bitLength_redStep_lt hdegree degree
    subst next
    rcases phase with hp | hp <;> simp only [stepsLeft, Independence.appended, hp] <;> omega
  | endsReduce phase _ next | endsMultiplier phase next =>
    subst next
    simp [stepsLeft, phase]
  | passesToB phase _ _ next =>
    subst next
    simp only [stepsLeft, phase]
    omega
  | passesToProduct phase degree next =>
    have hv := bitLength_le_of_deg_lt degree
    subst next
    simp only [stepsLeft, phase]
    omega
  | multiplies phase more _ next =>
    have hlt := bitLength_shr1_lt more
    subst next
    simp only [stepsLeft, Independence.appended, withMulVars, mulStep_b, phase]
    omega

/-- A running command takes a step, which keeps the invariant and the agenda and lowers the bound. -/
theorem Inv.engineTurn_progress (h : Inv s) (hp : s.phase ≠ .idle) :
    ∃ t : Block w, Machine.engineTurn (.of s) = .next (.of t) ∧ Inv t ∧ t.agenda = s.agenda ∧
      stepsLeft t < stepsLeft s := by
  obtain ⟨t, ht⟩ := h.exists_engineTurn
  exact ⟨t, ht, h.engineTurn ht, agenda_of_engineTurn ht, h.stepsLeft_lt (engineStep_of_engineTurn hp ht)⟩

theorem Inv.idle_of_stepsLeft (h : Inv s) (hzero : stepsLeft s = 0) : s.phase = .idle := by
  by_contra hp
  obtain ⟨_, -, -, -, hlt⟩ := h.engineTurn_progress hp
  omega

theorem Inv.runs_to_idle : ∀ {j : Nat} {s : Block w}, Inv s → s.agenda = [] → stepsLeft s ≤ j →
    ∃ (k : Nat) (t : Block w), k ≤ j ∧ runs k (.of s) = .next (.of t) ∧ t.phase = .idle := by
  intro j
  induction j with
  | zero =>
    intro s h _ hj
    exact ⟨0, s, le_rfl, rfl, h.idle_of_stepsLeft (Nat.le_zero.1 hj)⟩
  | succ j ih =>
    intro s h hquiet hj
    by_cases hp : s.phase = .idle
    · exact ⟨0, s, Nat.zero_le _, rfl, hp⟩
    · obtain ⟨t, ht, hinv, hagenda, hlt⟩ := h.engineTurn_progress hp
      obtain ⟨k, u, hk, hrun, hu⟩ := ih hinv (hagenda.trans hquiet) (by omega)
      exact ⟨k + 1, u, by omega, runs_succ_eq_next.2 ⟨_, (step_nil hquiet).trans ht, hrun⟩, hu⟩

/-- Settles O59: `stepsLeft` bounds the run. -/
theorem everyCommandCompletes : Obligations.EveryCommandCompletes :=
  fun _ _ h hquiet => h.runs_to_idle hquiet h.stepsLeft_le

/-! ## WAIT (30_encoding.md R85, log 14) -/

/-- A poll reads `STATUS`, whatever runs, and asks for an engine turn and another poll while a command does. -/
theorem pollStatus_eq (s : Block w) : pollStatus s = { s with
    replies := statusWord s.status :: s.replies
    agenda := if s.status.busy then .engine :: .poll :: s.agenda else s.agenda } := by
  have hplace : placeAt w s.depth (addrOf .status) = .status := placeAt_addrOf_register s.depth (by decide)
  have hvalue : readValue s .status = some (statusWord s.status) := readValue_of_not_engineWritten rfl
  rw [pollStatus, hostRead, hplace, hvalue]
  split <;> rfl

theorem runs_poll_idle (hb : s.status.busy = false) (hagenda : s.agenda = [.poll]) :
    runs 1 (.of s) = .next (.of { s with agenda := [], replies := statusWord s.status :: s.replies }) := by
  rw [runs_one, step_cons hagenda, Machine.perform, pollStatus_eq]
  simp [hb]

/-- While a command runs, a poll and the engine's next turn lead to the next poll. -/
theorem runs_poll_busy (hb : s.status.busy = true) (hagenda : s.agenda = [.poll])
    (ht : Machine.engineTurn (.of (withHost [.poll] (statusWord s.status :: s.replies) s.draws s)) = .next (.of t)) :
    runs 2 (.of s) = .next (.of t) := by
  have hpoll : runs 1 (.of s) =
      .next (.of (withHost [.engine, .poll] (statusWord s.status :: s.replies) s.draws s)) := by
    rw [runs_one, step_cons hagenda, Machine.perform, pollStatus_eq]
    simp [hb, withHost]
  exact runs_add hpoll (runs_one.2 ((step_engine rfl).trans ht))

/-- A WAIT takes two steps per step of the engine, and one last poll. -/
theorem Inv.wait_ends : ∀ {j : Nat} {s : Block w}, Inv s → s.agenda = [.poll] → stepsLeft s ≤ j →
    ∃ (k : Nat) (t : Block w), k ≤ 2 * j + 1 ∧ runs k (.of s) = .next (.of t) ∧ t.agenda = [] ∧ t.phase = .idle ∧
      ∃ rest : List (Word w), t.replies = statusWord t.status :: rest := by
  intro j
  induction j with
  | zero =>
    intro s h hagenda hj
    have hp := h.idle_of_stepsLeft (Nat.le_zero.1 hj)
    exact ⟨1, _, le_rfl, runs_poll_idle (h.status.not_busy_of_idle hp) hagenda, rfl, hp, _, rfl⟩
  | succ j ih =>
    intro s h hagenda hj
    by_cases hp : s.phase = .idle
    · exact ⟨1, _, by omega, runs_poll_idle (h.status.not_busy_of_idle hp) hagenda, rfl, hp, _, rfl⟩
    · obtain ⟨t, ht, hinv, hpoll, hlt⟩ :=
        (h.withHost [.poll] (statusWord s.status :: s.replies) s.draws).engineTurn_progress hp
      have hleft : stepsLeft t < stepsLeft s := hlt
      obtain ⟨k, u, hk, hrun, hend⟩ := ih hinv hpoll (by omega)
      exact ⟨2 + k, u, by omega, runs_add (runs_poll_busy (h.status.busy_iff.2 hp) hagenda ht) hrun, hend⟩

/-- Settles O60: `stepsLeft` bounds the number of polls. -/
theorem waitAlwaysEnds : Obligations.WaitAlwaysEnds := by
  intro w s h hagenda
  obtain ⟨k, t, hk, hrest⟩ := h.wait_ends hagenda h.stepsLeft_le
  exact ⟨k, t, by omega, hrest⟩

end Sys2Proof.Safety

/-! # Interleaving (20_memory.md R62, R63; 70_reset_and_hazards.md R187)

While a command runs a host access changes no part of the block, and the engine does not see what it does change
(`engineTurn_of_blockOf_eq`): so the block with the host's accesses and the block without them stay the same. -/

namespace Sys2Proof.Safety

open Sys2Proof.Machine Sys2Proof.Independence

variable {w : Nat} {s t u : Block w}

theorem phase_eq_of_blockOf_eq (h : blockOf s = blockOf u) : s.phase = u.phase := by
  rw [← blockOf_phase s, h, blockOf_phase]

/-- While a command runs an access of the host leaves the block's own part as it was and takes itself off the agenda. -/
theorem perform_access (hb : s.status.busy = true) {e : Event w} (he : plainEvent e = true) (hne : e ≠ .engine) :
    ∃ t : Block w, perform e s = .next (.of t) ∧ blockOf t = blockOf s ∧ t.agenda = s.agenda := by
  cases e with
  | read addr =>
    obtain ⟨_, -, hagenda, -⟩ := hostRead_reply addr s
    exact ⟨_, rfl, blockOf_hostRead addr s, hagenda⟩
  | write addr v => exact ⟨s, by rw [perform, hostWrite_busy hb], rfl, rfl⟩
  | reset | poll => cases he
  | engine => exact absurd rfl hne

/-- The first `k` steps of a run are one step and `k - 1` steps of the rest. -/
theorem runs_tail {k : Nat} {x y z : State} (hstep : step x = .next y) (h : runs (k + 1) x = .next z) :
    runs k y = .next z := by
  obtain ⟨y', hy', hrest⟩ := runs_succ_eq_next.1 h
  exact Host.Outcome.next.inj (hstep.symm.trans hy') ▸ hrest

/-- The engine's turn with the agenda `rest` behind it, and the same turn of a block with the same part of its own. -/
theorem Inv.engineTurn_beside (h : Inv s) (hb : blockOf u = blockOf s) (rest : List (Event w)) :
    ∃ t v : Block w, Machine.engineTurn (.of { s with agenda := rest }) = .next (.of t) ∧
      Machine.engineTurn (.of u) = .next (.of v) ∧ Inv t ∧ t.agenda = rest ∧ v.agenda = u.agenda ∧
      blockOf v = blockOf t := by
  have hinv : Inv { s with agenda := rest } := h.withHost rest s.replies s.draws
  obtain ⟨t, ht⟩ := hinv.exists_engineTurn
  obtain ⟨v, hv, hbv⟩ := engineTurn_of_blockOf_eq (s := { s with agenda := rest }) hb ht
  exact ⟨t, v, ht, hv, hinv.engineTurn ht, agenda_of_engineTurn ht, agenda_of_engineTurn hv, hbv⟩

/-- A host access with the agenda `rest` behind it. -/
theorem Inv.access_beside (h : Inv s) (hp : s.phase ≠ .idle) {e : Event w} (he : plainEvent e = true)
    (hne : e ≠ .engine) (rest : List (Event w)) :
    ∃ t : Block w, Machine.perform e { s with agenda := rest } = .next (.of t) ∧ Inv t ∧
      t.agenda = rest ∧ blockOf t = blockOf s := by
  have hinv : Inv { s with agenda := rest } := h.withHost rest s.replies s.draws
  obtain ⟨t, ht, hbt, hta⟩ := perform_access (s := { s with agenda := rest }) (h.status.busy_iff.2 hp) he hne
  exact ⟨t, ht, hinv.perform ht, hta, hbt⟩

/-- The two runs side by side: `s` with the events `es` and one more turn of the engine ahead of it, `u` with nothing of
the host pending and a run that does not end during the turns in `es`. -/
theorem Inv.interleaved : ∀ (es : List (Event w)) {s u : Block w}, Inv s → (∀ e ∈ es, plainEvent e = true) →
    s.agenda = es ++ [.engine] → u.agenda = [] → blockOf u = blockOf s →
    (∀ k : Nat, k ≤ engineTurns es → ∃ v : Block w, runs k (.of u) = .next (.of v) ∧ v.phase ≠ .idle) →
    ∃ t v : Block w, runs (es.length + 1) (.of s) = .next (.of t) ∧
      runs (engineTurns es + 1) (.of u) = .next (.of v) ∧ t.agenda = [] ∧ blockOf t = blockOf v
  | [], s, u, h, _, hagenda, hquiet, hb, _ => by
    obtain ⟨t, v, ht, hv, -, hta, -, hbv⟩ := h.engineTurn_beside hb []
    exact ⟨t, v, runs_one.2 ((step_engine hagenda).trans ht), runs_one.2 ((step_nil hquiet).trans hv), hta, hbv.symm⟩
  | e :: es, s, u, h, hplain, hagenda, hquiet, hb, hrun => by
    obtain ⟨he, hes⟩ := List.forall_mem_cons.1 hplain
    by_cases hengine : e = .engine
    · subst hengine
      have hturns : engineTurns (.engine :: es) = engineTurns es + 1 := List.count_cons_self
      obtain ⟨t, v, ht, hv, hinv, hta, hva, hbv⟩ := h.engineTurn_beside hb (es ++ [.engine])
      have hstep : Machine.step (.of u) = .next (.of v) := (step_nil hquiet).trans hv
      have hrest (k : Nat) (hk : k ≤ engineTurns es) :
          ∃ x : Block w, runs k (.of v) = .next (.of x) ∧ x.phase ≠ .idle := by
        obtain ⟨x, hx, hxp⟩ := hrun (k + 1) (by omega)
        exact ⟨x, runs_tail hstep hx, hxp⟩
      obtain ⟨t', v', hs, hu, hend⟩ := Inv.interleaved es hinv hes hta (hva.trans hquiet) hbv hrest
      rw [hturns]
      exact ⟨t', v', runs_succ_eq_next.2 ⟨_, (step_engine hagenda).trans ht, hs⟩,
        runs_succ_eq_next.2 ⟨_, hstep, hu⟩, hend⟩
    · have hturns : engineTurns (e :: es) = engineTurns es := List.count_cons_of_ne hengine
      have hp : s.phase ≠ .idle := by
        obtain ⟨_, hu, hp⟩ := hrun 0 (Nat.zero_le _)
        cases hu
        exact phase_eq_of_blockOf_eq hb ▸ hp
      obtain ⟨t, ht, hinv, hta, hbt⟩ := h.access_beside hp he hengine (es ++ [.engine])
      rw [hturns] at hrun ⊢
      obtain ⟨t', v', hs, hend⟩ := Inv.interleaved es hinv hes hta hquiet (hb.trans hbt.symm) hrun
      exact ⟨t', v', runs_succ_eq_next.2 ⟨_, (step_cons hagenda).trans ht, hs⟩, hend⟩

/-- Settles O53: the two runs begin in the same block. -/
theorem interleavingDoesNotMatter : Obligations.InterleavingDoesNotMatter :=
  fun _ _ es h hplain hagenda hrun => h.interleaved es hplain hagenda rfl rfl hrun

/-! # The edges of `PHASE` (10_state.md R34) -/

theorem engineEdge_of_firstOutcome (hp : s.phase = .start) (h : FirstOutcome s t (decodeWord s.cur)) :
    engineEdge s.cur s.phase t.phase = true := by
  generalize hd : decodeWord s.cur = d at h
  rw [hp]
  cases h with
  | faults _ next | encodes next | decodes _ next => subst next; rfl
  | entersReducer command _ _ next =>
    have hcur := eq_ofNat_of_decodeWord hd
    subst next
    refine decide_eq_true ?_
    rcases command with rfl | rfl
    · exact .inl hcur
    · exact .inr hcur
  | entersMultiplier _ _ _ next =>
    subst next
    exact decide_eq_true (eq_ofNat_of_decodeWord hd)

theorem engineEdge_of_engineStep (h : EngineStep s t) : engineEdge s.cur s.phase t.phase = true := by
  cases h with
  | first phase outcome => exact engineEdge_of_firstOutcome phase outcome
  | reduces phase _ _ next =>
    subst next
    rcases phase with hp | hp <;> simp only [appended, hp, engineEdge]
  | endsReduce phase command next | passesToB phase command _ next =>
    have hcur := eq_ofNat_of_decodeWord command
    subst next
    rw [phase]
    exact decide_eq_true hcur
  | passesToProduct phase _ next | endsMultiplier phase next =>
    subst next
    rw [phase]
    rfl
  | multiplies phase _ _ next =>
    subst next
    simp only [appended, withMulVars, phase, engineEdge]

theorem engineTurn_edge (h : engineTurn (.of s) = .next (.of t)) : engineEdge s.cur s.phase t.phase = true := by
  by_cases hp : s.phase = .idle
  · rw [engineTurn_idle (s := .of s) hp] at h
    cases h
    rw [hp]
    rfl
  · exact engineEdge_of_engineStep (engineStep_of_engineTurn hp h)

/-- Only a write to `CMD` in IDLE moves `PHASE`. -/
theorem hostWrite_phase (hs : StatusConsistent s) (addr : Addr) (v : Word w) : (hostWrite addr v s).phase = s.phase ∨
    (addr = 0 ∧ s.phase = .idle ∧ (hostWrite addr v s).phase = .start) := by
  cases hb : s.status.busy with
  | true => rw [hostWrite_busy hb]; exact .inl rfl
  | false =>
    rw [hostWrite_idle hb]
    rcases writeIdle_cases (placeAt w s.depth addr) v s with ⟨hplace, hw⟩ | ⟨-, hw⟩ | ⟨-, hw⟩ | ⟨-, hw⟩ | ⟨-, hw⟩ |
      ⟨-, hw⟩ | ⟨i, -, hw⟩ | hw <;> rw [hw]
    · have haddr := addrOf_placeAt (w := w) s.depth addr
      rw [hplace] at haddr
      exact .inr ⟨haddr.symm, hs.idle_of_not_busy hb, rfl⟩
    all_goals exact .inl rfl

/-- Settles O6: the engine's edges are those of `EngineStep`, and of the host's events only an accepted command and
reset move `PHASE`. -/
theorem phaseAdvancesAlongListedEdges : Obligations.PhaseAdvancesAlongListedEdges := by
  intro w s t e _ hs h
  refine ⟨?_, ?_, ?_, ?_, ?_⟩
  · rintro rfl
    exact engineTurn_edge h
  · rintro addr v rfl
    cases h
    exact hostWrite_phase hs addr v
  · rintro addr rfl
    cases h
    exact (hostRead_keepsControl addr s).phase
  · rintro rfl
    cases h
    exact (pollStatus_keepsControl s).phase
  · rintro rfl
    cases h
    rfl

/-! # Reset (10_state.md section 7) -/

/-- Settles O54: the reset event is `resetBlock`, whose buffers are empty. -/
theorem resetClearsTheBlock : Obligations.ResetClearsTheBlock :=
  fun _ _ _ _ h => ⟨_, step_cons h, rfl, rfl, rfl, rfl, rfl, rfl, rfl, rfl, rfl, rfl, rfl, rfl, rfl,
    fun _ => rfl, fun _ => rfl, rfl⟩

end Sys2Proof.Safety

/-! # The commands from START to their end (41_reducer.md, 42_multiplier.md, 43_evaluate.md sections 2; Table T-1)

`afterReduce`, `afterMultiply` and `afterEvaluate` are the last states (`runs_reduce`, `runs_multiply_complete`,
`runs_evaluate`). Here: what they hold register by register, that the trace from `TRCCNT` up is as it was, and that the
block is busy until then, since an idle block would have stayed so (`runs_busy`). -/

namespace Sys2Proof.Machine

open Sys2Proof.Safety Sys2Proof.Independence

variable {w : Nat} {s t u : Block w}

/-! ## Busy until the end -/

theorem exists_runs_of_le {k j : Nat} {y : State} (hkj : k ≤ j) (h : runs j (.of s) = .next y) :
    ∃ v : Block w, runs k (.of s) = .next (.of v) := by
  induction k generalizing j s with
  | zero => exact ⟨s, rfl⟩
  | succ k ih =>
    obtain ⟨j, rfl⟩ := Nat.exists_eq_succ_of_ne_zero (show j ≠ 0 by omega)
    obtain ⟨x, hstep, hrest⟩ := runs_succ_eq_next.1 h
    obtain ⟨b, rfl, -⟩ := step_params hstep
    obtain ⟨v, hv⟩ := ih (Nat.le_of_succ_le_succ hkj) hrest
    exact ⟨v, runs_succ_eq_next.2 ⟨_, hstep, hv⟩⟩

/-- A run from START that has not ended after `j` steps has not ended before. -/
theorem runs_busy {j : Nat} (hw : 8 ≤ w) (hquiet : s.agenda = []) (hp : s.phase = .start)
    (h : runs j (.of s) = .next (.of u)) (hu : u.phase ≠ .idle) :
    ∀ k < j + 1, ∃ v : Block w, runs k (.of s) = .next (.of v) ∧ v.phase ≠ .idle := by
  intro k hk
  obtain ⟨v, hv⟩ := exists_runs_of_le (Nat.le_of_lt_succ hk) h
  refine ⟨v, hv, fun hidle => hu ?_⟩
  have hstay := eq_of_runs_idle (runs_agenda hw hquiet hp hv) hidle (runs_sub (Nat.le_of_lt_succ hk) hv h)
  rwa [State.of_inj.1 hstay]

/-! ## The trace -/

theorem HoldsTrace.trccnt_eq {rs : List (Record w)} (h : HoldsTrace t rs) : t.trccnt = BitVec.ofNat w rs.length := by
  rw [← h.count, BitVec.ofNat_toNat, BitVec.setWidth_eq]

/-- Appending leaves the records behind the new ones as they were. -/
theorem find_appendRecords_of_le {rs : List (Record w)} {k : Nat} (hk : s.trccnt.toNat + rs.length ≤ k) :
    Store.find (appendRecords rs s).trc k = Store.find s.trc k := by
  rw [appendRecords, Trace.find_writeRecords, if_neg (by omega)]

/-! ## REDUCE -/

/-- REDUCE before its exit. -/
theorem runs_reduce_loop {r : Word w} {tr : List (Record w)} (hw : 8 ≤ w) (hquiet : s.agenda = [])
    (hp : s.phase = .start) (hcur : s.cur = 3) (h : reduce s.a s.m s.n.toNat 0 = some (r, tr)) :
    runs (1 + tr.length) (.of s) =
      .next (.of (afterReducing tr r { clearTrace s with wv := s.a, seg := 0, phase := .reda })) :=
  runs_add (runs_firstStep hw .reduce hquiet hcur hp (reduceFirst_of_tests (deg_modulus_of_reduce h)))
    (runs_reducer (s := { clearTrace s with wv := s.a, seg := 0, phase := .reda }) hw hquiet (.inl rfl) h
      (clearTrace_room s (length_reduce_le_traceDepth h)))

theorem find_afterReduce_of_le {r : Word w} {tr : List (Record w)} {k : Nat} (hk : tr.length ≤ k) :
    Store.find (afterReduce s r tr).trc k = Store.find s.trc k :=
  find_appendRecords_of_le (s := { clearTrace s with wv := r, seg := 0, phase := .reda })
    (by show (0#w).toNat + tr.length ≤ k; rwa [BitVec.toNat_zero, Nat.zero_add])

/-- Settles O31: `runs_reduce` with the frame of `afterReduce`. -/
theorem reduceRunsToItsFunction : Obligations.ReduceRunsToItsFunction := by
  intro w s ⟨hw, _⟩ hquiet hp hcur _ hm
  obtain ⟨r, tr, h⟩ := exists_reduce_eq hm s.a 0
  have htrace := holdsTrace_afterReduce hw h
  refine ⟨r, tr, afterReduce s r tr, h, ?_, ?_, htrace.count, htrace.records, fun k => find_afterReduce_of_le, ?_⟩
  · rw [show tr.length + 2 = 1 + tr.length + 1 by omega]
    exact runs_reduce hw hquiet hp hcur h
  · rw [← htrace.trccnt_eq]
    rfl
  · rw [show tr.length + 2 = 1 + tr.length + 1 by omega]
    exact runs_busy hw hquiet hp (runs_reduce_loop hw hquiet hp hcur h) nofun

/-! ## MULTIPLY -/

theorem afterMultiplier_wb (s : Block w) : (afterMultiplier s).wb = 0 :=
  (afterMulIterations_wb s _).trans ((shiftRight_eq_zero_iff _ _).2 le_rfl)

/-- The Multiplier loop and its exit change the results, the trace and the working registers, and nothing else. -/
theorem afterMultiplier_eq (s : Block w) : afterMultiplier s = { s with
    res := (afterMultiplier s).res
    trccnt := (afterMultiplier s).trccnt
    trc := (afterMultiplier s).trc
    wa := (afterMultiplier s).wa
    wb := 0
    acc := (afterMultiplier s).res
    status := statusCompleted s.status
    phase := .idle } := by
  rw [← afterMultiplier_wb s]
  rfl

theorem find_afterMultiplier_of_le {k : Nat} (hk : s.trccnt.toNat + bitLength s.wb ≤ k) :
    Store.find (afterMultiplier s).trc k = Store.find s.trc k :=
  find_appendRecords_of_le (s := withMulVars s _) (by rwa [length_iterationRecords])

/-- Settles O41: `runs_multiply_complete` with the frame of `afterMultiply`. -/
theorem multiplyRunsToItsFunction : Obligations.MultiplyRunsToItsFunction := by
  intro w s p tr ⟨hw, _⟩ hquiet hp hcur h
  obtain ⟨⟨hm, ha, hb⟩, -, htr⟩ := multiply_eq_some_iff.1 h
  have hlen : tr.length = bitLength s.b := by rw [htr, length_iterationRecords]
  have htrace := holdsTrace_afterMultiply hw h
  have hres := afterMultiply_res h
  refine ⟨afterMultiply s, ?_, ?_, htrace.count, htrace.records, fun k hk => ?_, ?_⟩
  · rw [show tr.length + 2 = 1 + (tr.length + 1) by omega]
    exact runs_multiply_complete hw hquiet hp hcur h
  · rw [← htrace.trccnt_eq, ← hres, afterMultiply]
    exact afterMultiplier_eq (afterIterations s 0)
  · refine find_afterMultiplier_of_le (s := afterIterations s 0) ?_
    show (0#w).toNat + bitLength s.b ≤ k
    rwa [BitVec.toNat_zero, Nat.zero_add, ← hlen]
  · rw [show tr.length + 2 = 1 + bitLength s.b + 1 by omega]
    exact runs_busy hw hquiet hp (runs_multiply hw hquiet hp hcur hm ha hb le_rfl) nofun

/-! ## EVALUATE -/

section Evaluate

variable {e : Evaluation w} {ta tb tm : List (Record w)}

theorem length_textOperand (s : Block w) : (textOperand s).length = s.txtlen.toNat := by
  simp [textOperand]

/-- The first step of EVALUATE takes the fault that `evaluate` returns, or `evaluate` is the composition of its three
functions. -/
theorem evaluate_cases (s : Block w) :
    (∃ f j, evaluate s.depth s.a s.b (textOperand s) s.n.toNat = .error (f, j) ∧
      evaluateFirst s = .next (raise f (BitVec.ofNat w j) (clearTrace s))) ∨
    (∃ e ta tb tm, evaluate s.depth s.a s.b (textOperand s) s.n.toNat = .ok e ∧ s.txtlen.toNat ≤ s.depth ∧
      decodeText w (textOperand s) = .ok e.modulus ∧ Composes s.a s.b s.n.toNat e ta tb tm) := by
  obtain ⟨hrange, hlength, htext, hdegree, -⟩ :=
    evaluateIsItsComposition w s.depth s.a s.b (textOperand s) s.n.toNat
  rw [length_textOperand] at hlength htext hdegree
  rcases evaluateFirst_cases s with ⟨hn, h⟩ | ⟨hn, hl, h⟩ | ⟨hn, hl, f, j, hd, h⟩ | ⟨hn, hl, m, hd, hm, h⟩ |
    ⟨hn, hl, m, hd, hm, -⟩
  · exact .inl ⟨_, 0, hrange hn, h⟩
  · exact .inl ⟨_, 0, hlength hn hl, h⟩
  · exact .inl ⟨f, j, htext hn hl f j hd, h⟩
  · exact .inl ⟨_, 0, hdegree hn hl m hd hm, h⟩
  · obtain ⟨e, ta, tb, tm, rfl, hc⟩ := exists_composes hm s.a s.b
    exact .inr ⟨e, ta, tb, tm, hc.evaluate_eq (by rwa [length_textOperand]) hd, hl, hd, hc⟩

/-- The segments keep the agenda and the latched word. -/
theorem segmentB_quiet (ta : List (Record w)) (e : Evaluation w) (hquiet : s.agenda = []) (hcur : s.cur = 5) :
    (segmentB s e ta).agenda = [] ∧ (segmentB s e ta).cur = 5 := by
  simp only [segmentB, segmentA, afterReducing, appendRecords, clearTrace]
  exact ⟨hquiet, hcur⟩

/-- The registers at the head of the product's loop. -/
theorem exists_segmentM_eq (s : Block w) (e : Evaluation w) (ta tb : List (Record w)) :
    ∃ (trc : List (Nat × Record w)) (trccnt : Word w), segmentM s e ta tb = { s with
      m := e.modulus
      resa := e.aReduced
      resb := e.bReduced
      trccnt := trccnt
      trc := trc
      wv := e.bReduced
      wa := e.aReduced
      wb := e.bReduced
      acc := 0
      seg := 2
      phase := .mult } := by
  simp only [segmentM, segmentB, segmentA, afterReducing, appendRecords, clearTrace]
  exact ⟨_, _, rfl⟩

/-- The first segment of EVALUATE, with its exit. -/
theorem runs_segmentB (hw : 8 ≤ w) (hquiet : s.agenda = []) (hcur : s.cur = 5)
    (h : Composes s.a s.b s.n.toNat e ta tb tm) :
    runs (ta.length + 1) (.of (segmentA s e)) = .next (.of (segmentB s e ta)) :=
  runs_add
    (runs_reducer (s := segmentA s e) hw hquiet (.inl rfl) h.reduceA
      (clearTrace_room s (length_reduce_le_traceDepth h.reduceA)))
    (runs_exitStep (s := afterReducing ta e.aReduced (segmentA s e)) hw .evaluate hquiet hcur rfl
      (deg_lt_of_reduce h.reduceA) rfl)

/-- A Reducer loop in REDB and its exit (R138, step XB). -/
theorem runs_redb {r : Word w} {q : List (Record w)} (hw : 8 ≤ w) (hquiet : u.agenda = []) (hcur : u.cur = 5)
    (hp : u.phase = .redb) (h : reduce u.wv u.m u.n.toNat u.seg = some (r, q))
    (hroom : u.trccnt.toNat + q.length ≤ Config.traceDepth w) :
    runs (q.length + 1) (.of u) = .next (.of { afterReducing q r u with
      resb := r, wa := u.resa, wb := r, acc := 0, seg := 2, phase := .mult }) := by
  refine runs_add (runs_reducer hw hquiet (.inr hp) h hroom) (runs_one.2 ?_)
  rw [step_command (s := afterReducing q r u) hw .evaluate hquiet hcur (by show u.phase ≠ .idle; rw [hp]; nofun),
    enginePhase_redb_exit (s := afterReducing q r u) hp (reducing_eq_false (deg_lt_of_reduce h))]
  rfl

/-- The second segment of EVALUATE, with its exit. -/
theorem runs_segmentM (hw : 8 ≤ w) (hquiet : s.agenda = []) (hcur : s.cur = 5)
    (h : Composes s.a s.b s.n.toNat e ta tb tm) :
    runs (tb.length + 1) (.of (segmentB s e ta)) = .next (.of (segmentM s e ta tb)) := by
  have hroom : (segmentB s e ta).trccnt.toNat + tb.length ≤ Config.traceDepth w := by
    have hfit := h.length_le
    rw [(holdsTrace_segmentB hw h).count, Config.traceDepth]
    omega
  obtain ⟨hquietB, hcurB⟩ := segmentB_quiet ta e hquiet hcur
  exact runs_redb hw hquietB hcurB rfl h.reduceB hroom

theorem Composes.length_product (h : Composes s.a s.b s.n.toNat e ta tb tm) : tm.length = bitLength e.bReduced := by
  obtain ⟨-, -, htm⟩ := multiply_eq_some_iff.1 h.multiply
  rw [htm, length_iterationRecords]

/-- The trace has room for the product's records behind those of the two reductions. -/
theorem room_segmentM (hw : 8 ≤ w) (h : Composes s.a s.b s.n.toNat e ta tb tm) :
    (segmentM s e ta tb).trccnt.toNat + bitLength e.bReduced = e.trace.length := by
  rw [(holdsTrace_segmentM hw h).count, List.length_append, ← h.length_product, h.length_trace]

/-- EVALUATE before its last step. -/
theorem runs_evaluate_loop (hw : 8 ≤ w) (hquiet : s.agenda = []) (hp : s.phase = .start) (hcur : s.cur = 5)
    (hlen : s.txtlen.toNat ≤ s.depth) (hdecode : decodeText w (textOperand s) = .ok e.modulus)
    (h : Composes s.a s.b s.n.toNat e ta tb tm) : runs (e.trace.length + 3) (.of s) =
      .next (.of (afterMulIterations (segmentM s e ta tb) (bitLength e.bReduced))) := by
  have hfirst := runs_firstStep hw .evaluate hquiet hcur hp (evaluateFirst_of_tests hlen hdecode h.deg_modulus)
  have hroom : (segmentM s e ta tb).trccnt.toNat + bitLength e.bReduced ≤ Config.traceDepth w := by
    have hfit := h.length_le
    rw [room_segmentM hw h, h.length_trace, Config.traceDepth]
    omega
  have hquietM : (segmentM s e ta tb).agenda = [] := by
    obtain ⟨_, _, hm⟩ := exists_segmentM_eq s e ta tb
    rw [hm]
    exact hquiet
  have hloop := runs_mulIterations (s := segmentM s e ta tb) hw hquietM rfl hroom (k := bitLength e.bReduced) le_rfl
  have hsteps : e.trace.length + 3 = 1 + (ta.length + 1) + (tb.length + 1) + bitLength e.bReduced := by
    rw [h.length_trace, h.length_product]
    omega
  rw [hsteps]
  exact runs_add (runs_add (runs_add hfirst (runs_segmentB hw hquiet hcur h)) (runs_segmentM hw hquiet hcur h)) hloop

/-- The three segments leave the records behind the trace as they were. -/
theorem find_afterEvaluate_of_le (hw : 8 ≤ w) (h : Composes s.a s.b s.n.toNat e ta tb tm) {k : Nat}
    (hk : e.trace.length ≤ k) : Store.find (afterEvaluate s e ta tb).trc k = Store.find s.trc k := by
  have hlen := h.length_trace
  have hcountB := (holdsTrace_segmentB hw h).count
  calc Store.find (afterEvaluate s e ta tb).trc k
    _ = Store.find (segmentM s e ta tb).trc k := find_afterMultiplier_of_le ((room_segmentM hw h).trans_le hk)
    _ = Store.find (segmentB s e ta).trc k :=
      find_appendRecords_of_le (s := { segmentB s e ta with wv := e.bReduced })
        (by show (segmentB s e ta).trccnt.toNat + tb.length ≤ k; omega)
    _ = Store.find s.trc k :=
      find_appendRecords_of_le (s := { segmentA s e with wv := e.aReduced })
        (by show (0#w).toNat + ta.length ≤ k; rw [BitVec.toNat_zero]; omega)

/-- The registers after EVALUATE: its results, the working registers, and nothing else. -/
theorem afterEvaluate_eq (hw : 8 ≤ w) (h : Composes s.a s.b s.n.toNat e ta tb tm) :
    afterEvaluate s e ta tb = { s with
      m := e.modulus
      resa := e.aReduced
      resb := e.bReduced
      res := e.product
      trccnt := BitVec.ofNat w e.trace.length
      trc := (afterEvaluate s e ta tb).trc
      wv := e.bReduced
      wa := (afterEvaluate s e ta tb).wa
      wb := 0
      acc := e.product
      seg := 2
      status := { s.status with busy := false, done := true }
      phase := .idle } := by
  have hcount := (holdsTrace_afterEvaluate hw h).trccnt_eq
  rw [h.trace, ← hcount, ← afterEvaluate_res h, afterEvaluate]
  obtain ⟨trc, trccnt, hm⟩ := exists_segmentM_eq s e ta tb
  refine (afterMultiplier_eq (segmentM s e ta tb)).trans ?_
  generalize afterMultiplier (segmentM s e ta tb) = t
  rw [hm]
  rfl

end Evaluate

/-- Settles O44: the first step takes the fault of `evaluate`, or the run is that of the composition. -/
theorem evaluateRunsToItsFunction : Obligations.EvaluateRunsToItsFunction := by
  intro w s ⟨hw, _⟩ hquiet hp hcur
  rcases evaluate_cases s with ⟨f, j, hfault, hfirst⟩ | ⟨e, ta, tb, tm, hok, hlen, hdecode, h⟩
  · refine ⟨fun f' j' hf => ?_, fun e he => nomatch hfault.symm.trans he⟩
    cases hfault.symm.trans hf
    exact runs_firstStep hw .evaluate hquiet hcur hp hfirst
  · refine ⟨fun f j hf => (nomatch hok.symm.trans hf), fun e' he => ?_⟩
    cases hok.symm.trans he
    have htrace := holdsTrace_afterEvaluate hw h
    rw [← h.trace] at htrace
    exact ⟨afterEvaluate s e ta tb, runs_evaluate hw hquiet hp hcur hlen hdecode h, afterEvaluate_eq hw h, htrace.count,
      htrace.records, fun k => find_afterEvaluate_of_le hw h,
      runs_busy hw hquiet hp (runs_evaluate_loop hw hquiet hp hcur hlen hdecode h) nofun⟩

end Sys2Proof.Machine
